-- ==== Sys2Proof/Word.lean ====
section
/-! DEFINITION. Words of the packet engine: bytes, 16-bit sums, 32-bit device addresses and sizes (R8, R10). -/

namespace Sys2Proof

/-- One byte of the link, of a buffer or of device memory. -/
abbrev Byte := BitVec 8

/-- A checksum value: "The checksum is 16 bits wide" (R8). -/
abbrev Half := BitVec 16

/-- A device address, a size or a numeric payload field: `ADDR_W = 32` (R8). -/
abbrev Word := BitVec 32

/-- A byte string, first byte first on the wire (R10). -/
abbrev Bytes := List Byte

/-- `MAX32 = 2^32 − 1` (R10). -/
def max32 : Nat := 4294967295

end Sys2Proof
end

