-- ==== Sys2Proof/Config.lean ====
section
/-! DEFINITION. The parameters of the block (R8, R9, R34), the answers its ports can give (R54 to R58), and the free
values: opaque constants that nothing in Lean can evaluate, each the answer of an external collaborator when `State`
holds no answer of its own for it. -/

namespace Sys2Proof

/-- The parameter table `CMD_ID` of R73 (R9, D4): "one exact value per command". -/
structure CmdIds where
  ping     : Byte
  getInfo  : Byte
  alloc    : Byte
  free     : Byte
  writeMem : Byte
  readMem  : Byte
  exec     : Byte
  heapInfo : Byte
  deriving DecidableEq, Repr

/-- The parameter table `ERR` of R76 (R9, D7), but for `ERR_OK`: "The one fixed point is that success is 0". -/
structure ErrCodes where
  checksum    : Word
  unknownCmd  : Word
  malformed   : Word
  alloc       : Word
  invalidAddr : Word
  cacheSync   : Word
  deriving DecidableEq, Repr

/-- The configuration values of R8, R9 and R34: fixed at engine start, read-only afterwards. They stand in `State` as
data that no step writes, so a statement about every state is a statement about every configuration. -/
structure Config where
  /-- `MAGIC0`, the first sentinel byte (R9). -/
  magic0           : Byte
  /-- `MAGIC1`, the second sentinel byte (R9). -/
  magic1           : Byte
  /-- `CMD_ID`, the eight command ids (R9, R73). -/
  cmdIds           : CmdIds
  /-- `ERR`, the error code values (R9, R76). -/
  errCodes         : ErrCodes
  /-- `CHECKSUM_COVERS_MAGIC` (R9, R113). -/
  csumCoversMagic  : Bool
  /-- `RX_BUF_SIZE` (R28). -/
  rxBufSize        : Word
  /-- `TX_BUF_SIZE` (R29). -/
  txBufSize        : Word
  /-- `TRANSPORT_LIMIT` (R223). -/
  transportLimit   : Word
  /-- `TABLE_CAPACITY`, also called `MAX_ALLOCATIONS` (R8). -/
  tableCapacity    : Word
  /-- `CACHE_LINE_DEFAULT` (R180). -/
  cacheLineDefault : Word
  /-- `PROTOCOL_VERSION` (R153). -/
  protocolVersion  : Word
  /-- `FIRMWARE_VERSION` (R153). -/
  firmwareVersion  : Word
  /-- `RX_FIFO_DEPTH` (R31). -/
  rxFifoDepth      : Nat
  /-- `EXEC_REQUIRE_START` (R158). -/
  execRequireStart : Bool
  /-- `CAPS_DEFAULT`, the value a host may send as `caps` (R9). The block reads it nowhere (D42). -/
  capsDefault      : Word
  /-- `EXEC_FAIL_SENTINEL`, never on the wire and read nowhere (R9, C2). -/
  execFailSentinel : Word
  deriving DecidableEq, Repr

/-- The four counters of `HeapPort.info()` (R57). -/
structure HeapCounters where
  free0  : Word
  total0 : Word
  free1  : Word
  total1 : Word
  deriving DecidableEq, Repr, Inhabited

/-- What an Exec callee does (R55, R66): it returns a value after storing any bytes to device memory, or it never returns. -/
inductive ExecAnswer where
  | returns (value : Word) (stores : List (Word × Byte))
  | never
  deriving DecidableEq, Repr, Inhabited

/-- The address the allocator answers at draw `n` (R54, I2): any value. -/
opaque Config.freeAlloc : Nat → Word

/-- The answer of the line-size query at draw `n` (R56, I5): any value. -/
opaque Config.freeLine : Nat → Option Word

/-- Whether `CachePort.sync` answers `ok` at draw `n` (R56, I5): any value. -/
opaque Config.freeSync : Nat → Bool

/-- What the Exec callee called at draw `n` does (R55, R66, I4): any value. -/
opaque Config.freeExec : Nat → ExecAnswer

/-- The heap counters at draw `n` (R57, I8): any value. -/
opaque Config.freeHeap : Nat → HeapCounters

/-- Whether the platform serves the device-memory transaction at draw `n` (R58, I7): any value. -/
opaque Config.freeServed : Nat → Bool

/-- Whether the buffer allocation at draw `n` succeeds (R220, I11): any value. -/
opaque Config.freeBuffer : Nat → Bool

/-- Whether a byte offered to a full input queue at draw `n` is dropped (R31, I10): any value. -/
opaque Config.freeDrop : Nat → Bool

/-- How many moves the producer makes, while both can move, between the worker's move at draw `n` and its next one (R199, R231):
any number. -/
opaque Config.freeLead : Nat → Nat

/-- Byte `i` of the buffer obtained at draw `n` (R28, R29, I1): any value. -/
opaque Config.freeBufferByte : Nat → Nat → Byte

end Sys2Proof
end

