-- ==== Sys2Proof/Syntax.lean ====
section
/-! DEFINITION. The instructions: the eight wire commands (R73, R77 to R84) and the four requests of the lookup engine
(R93), one constructor per row of the opcode table, with every operand form the spec gives each. -/

namespace Sys2Proof

/-- The eight commands of R73, in the spec's order. -/
inductive Cmd where
  | ping | getInfo | alloc | free | writeMem | readMem | exec | heapInfo
  deriving DecidableEq, Repr

/-- The two operand forms of a command with a fixed part (R79 to R82, R86): a payload too short for the fixed part, kept
as it came, and the fields of a payload that is long enough, with the bytes after the fixed part. -/
inductive Form (α : Type) where
  | short (raw : Bytes)
  | full (fields : α) (rest : Bytes)
  deriving DecidableEq, Repr

/-- The fixed part of an ALLOC request (R79), 12 bytes. -/
structure AllocFields where
  size      : Word
  caps      : Word
  alignment : Word
  deriving DecidableEq, Repr

/-- The fixed part of a FREE request (R80), 4 bytes. -/
structure FreeFields where
  address : Word
  deriving DecidableEq, Repr

/-- The fixed part of a WRITEMEM request (R81), 8 bytes: the bytes after it are the data. -/
structure WriteFields where
  address : Word
  mflags  : Byte
  pad0    : Byte
  pad1    : Byte
  pad2    : Byte
  deriving DecidableEq, Repr

/-- The fixed part of a READMEM request (R82), 12 bytes. -/
structure ReadFields where
  address : Word
  size    : Word
  mflags  : Byte
  pad0    : Byte
  pad1    : Byte
  pad2    : Byte
  deriving DecidableEq, Repr

/-- The three forms of an EXEC request (R83): too short, the 4-byte form, and the form that carries a flags byte. -/
inductive ExecForm where
  | short (raw : Bytes)
  | bare (address : Word)
  | flagged (address : Word) (mflags : Byte) (rest : Bytes)
  deriving DecidableEq, Repr

/-- One instruction: a command with its payload, or a request of the lookup engine. -/
inductive Instr where
  /-- PING (R77): the payload is arbitrary data. -/
  | ping (data : Bytes)
  /-- GETINFO (R78): any payload, ignored. -/
  | getInfo (body : Bytes)
  /-- ALLOC (R79). -/
  | alloc (o : Form AllocFields)
  /-- FREE (R80). -/
  | free (o : Form FreeFields)
  /-- WRITEMEM (R81). -/
  | writeMem (o : Form WriteFields)
  /-- READMEM (R82). -/
  | readMem (o : Form ReadFields)
  /-- EXEC (R83). -/
  | exec (o : ExecForm)
  /-- HEAPINFO (R84): any payload, ignored. -/
  | heapInfo (body : Bytes)
  /-- TRACKER.ADD (R131). -/
  | trackerAdd (a sz : Word)
  /-- TRACKER.REMOVE (R132). -/
  | trackerRemove (a : Word)
  /-- TRACKER.CONTAINS (R133). -/
  | trackerContains (a : Word)
  /-- TRACKER.VALIDATE (R134). -/
  | trackerValidate (a sz : Word)
  deriving DecidableEq, Repr

/-- A request as the lookup engine's port carries it (R93): "a 2-bit `op` field with two 32-bit operands `a` and `sz`". -/
structure TrackerRequest where
  op : BitVec 2
  a  : Word
  sz : Word
  deriving DecidableEq, Repr

/-- An encoded instruction: the command id, header flags and payload of a packet (R70), or a request of the lookup engine
(R93). -/
inductive Encoded where
  | packet (cmd flags : Byte) (payload : Bytes)
  | request (r : TrackerRequest)
  deriving DecidableEq, Repr

end Sys2Proof
end

