-- ==== Sys2Proof/WellFormed.lean ====
section
/-! DEFINITION. Which instructions an encoding can carry: a short form is shorter than its fixed part (R79 to R83), and
the payload's length fits the 32-bit length field (R71). -/

namespace Sys2Proof

/-- The length of a command's fixed part (R79 to R83), 0 for a command that has none. -/
def Cmd.fixedLen : Cmd → Nat
  | .ping => 0
  | .getInfo => 0
  | .alloc => 12
  | .free => 4
  | .writeMem => 8
  | .readMem => 12
  | .exec => 4
  | .heapInfo => 0

/-- The payload length `n` of a form whose fixed part has `k` bytes. -/
def Form.payloadLen {α : Type} (k : Nat) : Form α → Nat
  | .short raw => raw.length
  | .full _ rest => k + rest.length

/-- The payload length `n` of an EXEC form (R83). -/
def ExecForm.payloadLen : ExecForm → Nat
  | .short raw => raw.length
  | .bare _ => 4
  | .flagged _ _ rest => 5 + rest.length

/-- The payload length `n` of a command (R70); a request of the lookup engine has no payload. -/
def Instr.payloadLen : Instr → Nat
  | .ping d => d.length
  | .getInfo b => b.length
  | .alloc o => o.payloadLen Cmd.alloc.fixedLen
  | .free o => o.payloadLen Cmd.free.fixedLen
  | .writeMem o => o.payloadLen Cmd.writeMem.fixedLen
  | .readMem o => o.payloadLen Cmd.readMem.fixedLen
  | .exec o => o.payloadLen
  | .heapInfo b => b.length
  | .trackerAdd _ _ => 0
  | .trackerRemove _ => 0
  | .trackerContains _ => 0
  | .trackerValidate _ _ => 0

/-- A short form is shorter than the fixed part: "A short payload is one with fewer bytes than the fixed part" (R86). -/
def Form.shortOk {α : Type} (k : Nat) : Form α → Bool
  | .short raw => decide (raw.length < k)
  | .full _ _ => true

/-- A short EXEC payload has fewer than 4 bytes (R83). -/
def ExecForm.shortOk : ExecForm → Bool
  | .short raw => decide (raw.length < Cmd.exec.fixedLen)
  | .bare _ => true
  | .flagged _ _ _ => true

/-- Every short form of the instruction is shorter than its command's fixed part. -/
def Instr.formsOk : Instr → Bool
  | .ping _ => true
  | .getInfo _ => true
  | .alloc o => o.shortOk Cmd.alloc.fixedLen
  | .free o => o.shortOk Cmd.free.fixedLen
  | .writeMem o => o.shortOk Cmd.writeMem.fixedLen
  | .readMem o => o.shortOk Cmd.readMem.fixedLen
  | .exec o => o.shortOk
  | .heapInfo _ => true
  | .trackerAdd _ _ => true
  | .trackerRemove _ => true
  | .trackerContains _ => true
  | .trackerValidate _ _ => true

/-- An instruction some encoding carries: its forms are as they should be and its payload length is at most `MAX32` (R71). -/
def Instr.wf (i : Instr) : Bool :=
  i.formsOk && decide (i.payloadLen ≤ max32)

/-- An instruction a running block dispatches: its payload fits the negotiated maximum (R105, R150). -/
def Instr.fits (i : Instr) (maxPayload : Nat) : Bool :=
  i.wf && decide (i.payloadLen ≤ maxPayload)

end Sys2Proof
end

