-- ==== Sys2Proof/Decode.lean ====
section
/-! DEFINITION. From bytes to instructions and back: little-endian fields (R10, R52), the checksum function (R113), the tables of
command ids and error codes (R73, R76), the operand forms of every request (R77 to R84), the lookup engine's request port (R93), whole packets
(R70, R90), and, after the decoder, the encoder. -/

namespace Sys2Proof

/-! ## Little-endian fields and the checksum -/

/-- `LE32(v)`: "the 4-byte little-endian string of a 32-bit `v`, low byte first" (R10). -/
def le32 (v : Word) : Bytes :=
  [v.extractLsb' 0 8, v.extractLsb' 8 8, v.extractLsb' 16 8, v.extractLsb' 24 8]

/-- `LE16(v)` (R10). -/
def le16 (v : Half) : Bytes :=
  [v.extractLsb' 0 8, v.extractLsb' 8 8]

/-- Four bytes, low byte first, as one 32-bit value (R10). -/
def word32 (b0 b1 b2 b3 : Byte) : Word :=
  b0.setWidth 32 ||| (b1.setWidth 32 <<< 8) ||| (b2.setWidth 32 <<< 16) ||| (b3.setWidth 32 <<< 24)

/-- Two bytes, low byte first, as one 16-bit value (R10, R107, R108). -/
def half16 (b0 b1 : Byte) : Half :=
  b0.setWidth 16 ||| (b1.setWidth 16 <<< 8)

/-- `rdLE32(P, i)` (R10). -/
def rdLE32 (P : Bytes) (i : Nat) : Word :=
  word32 (P.getD i 0) (P.getD (i + 1) 0) (P.getD (i + 2) 0) (P.getD (i + 3) 0)

/-- `csum(B)`: "the sum of its bytes modulo 2^16, each byte taken as an unsigned value from 0 to 255" (R113). -/
def csum (B : Bytes) : Half :=
  BitVec.ofNat 16 ((B.map BitVec.toNat).sum)

/-! ## Command ids -/

/-- A row of the opcode table: the command whose id equals `pattern` under `mask` (R73). -/
structure CmdRow where
  mask    : Byte
  pattern : Byte
  cmd     : Cmd
  deriving DecidableEq, Repr

/-- The ids that R73 decides: 0x01 to 0x08, in the spec's order. -/
def CmdIds.decided : CmdIds := ⟨0x01, 0x02, 0x03, 0x04, 0x05, 0x06, 0x07, 0x08⟩

/-- The command-id map of R73: "one exact value per command. A decoder matches all 8 bits (mask 0xFF)". -/
def cmdTable (ids : CmdIds) : List CmdRow :=
  [⟨0xFF, ids.ping, .ping⟩, ⟨0xFF, ids.getInfo, .getInfo⟩, ⟨0xFF, ids.alloc, .alloc⟩, ⟨0xFF, ids.free, .free⟩,
   ⟨0xFF, ids.writeMem, .writeMem⟩, ⟨0xFF, ids.readMem, .readMem⟩, ⟨0xFF, ids.exec, .exec⟩,
   ⟨0xFF, ids.heapInfo, .heapInfo⟩]

/-- Whether the eight ids are eight different bytes, so that one id selects one command (R73; log entry 17). -/
def CmdIds.distinct (ids : CmdIds) : Bool :=
  decide ((cmdTable ids).map CmdRow.pattern).Nodup

/-- Whether a command id matches a row. -/
def CmdRow.accepts (r : CmdRow) (c : Byte) : Bool :=
  c &&& r.mask == r.pattern

/-- The command a `cmd_id` byte selects; none for an illegal id (R73, R151). -/
def cmdOf (ids : CmdIds) (c : Byte) : Option Cmd :=
  ((cmdTable ids).find? fun r => r.accepts c).map CmdRow.cmd

/-- The `cmd_id` byte of a command (R73, D4). -/
def cmdId (ids : CmdIds) : Cmd → Byte
  | .ping => ids.ping
  | .getInfo => ids.getInfo
  | .alloc => ids.alloc
  | .free => ids.free
  | .writeMem => ids.writeMem
  | .readMem => ids.readMem
  | .exec => ids.exec
  | .heapInfo => ids.heapInfo

/-- The error code values that R76 decides: 1 to 6, in the spec's order. -/
def ErrCodes.decided : ErrCodes := ⟨1, 2, 3, 4, 5, 6⟩

/-! ## The decoder -/

/-- Why bytes are not an instruction, by name. -/
inductive DecodeError where
  /-- The bytes do not open with the magic sentinel (R89, R101 to R103). -/
  | badMagic
  /-- The bytes end before the packet does (R90). -/
  | truncated
  /-- The declared payload length is above the maximum (R89, R105). -/
  | oversized (n : Nat)
  /-- The checksum field is not the sum of the covered bytes (R72, R110). -/
  | badChecksum (cmd : Byte)
  /-- The command id is none of the eight ids (R89, R151). -/
  | unknownCommand (cmd : Byte)
  deriving DecidableEq, Repr

/-- The operand form of an ALLOC payload (R79): fields at offsets 0, 4 and 8; bytes from 12 on are ignored. -/
def allocForm (P : Bytes) : Form AllocFields :=
  if P.length < Cmd.alloc.fixedLen then .short P
  else .full ⟨rdLE32 P 0, rdLE32 P 4, rdLE32 P 8⟩ (P.drop 12)

/-- The operand form of a FREE payload (R80). -/
def freeForm (P : Bytes) : Form FreeFields :=
  if P.length < Cmd.free.fixedLen then .short P
  else .full ⟨rdLE32 P 0⟩ (P.drop 4)

/-- The operand form of a WRITEMEM payload (R81): `mflags` at offset 4, padding at 5 to 7, the data from offset 8. -/
def writeForm (P : Bytes) : Form WriteFields :=
  if P.length < Cmd.writeMem.fixedLen then .short P
  else .full ⟨rdLE32 P 0, P.getD 4 0, P.getD 5 0, P.getD 6 0, P.getD 7 0⟩ (P.drop 8)

/-- The operand form of a READMEM payload (R82): `size` at offset 4, `mflags` at 8, padding at 9 to 11. -/
def readForm (P : Bytes) : Form ReadFields :=
  if P.length < Cmd.readMem.fixedLen then .short P
  else .full ⟨rdLE32 P 0, rdLE32 P 4, P.getD 8 0, P.getD 9 0, P.getD 10 0, P.getD 11 0⟩ (P.drop 12)

/-- The operand form of an EXEC payload (R83): "If `n ≥ 5`, byte 4 is `mflags`". -/
def execForm (P : Bytes) : ExecForm :=
  if P.length < Cmd.exec.fixedLen then .short P
  else if P.length = 4 then .bare (rdLE32 P 0)
  else .flagged (rdLE32 P 0) (P.getD 4 0) (P.drop 5)

/-- The instruction of a known command with payload `P`. -/
def commandInstr (k : Cmd) (P : Bytes) : Instr :=
  match k with
  | .ping => .ping P
  | .getInfo => .getInfo P
  | .alloc => .alloc (allocForm P)
  | .free => .free (freeForm P)
  | .writeMem => .writeMem (writeForm P)
  | .readMem => .readMem (readForm P)
  | .exec => .exec (execForm P)
  | .heapInfo => .heapInfo P

/-- The instruction that a command id and a payload are (R150), or the rejection of an unknown id (R151). -/
def decodeCommand (ids : CmdIds) (c : Byte) (P : Bytes) : Except DecodeError Instr :=
  match cmdOf ids c with
  | some k => .ok (commandInstr k P)
  | none => .error (.unknownCommand c)

/-- The instruction that a request of the lookup engine is (R93): "Every op has a defined meaning". -/
def decodeRequest (r : TrackerRequest) : Instr :=
  if r.op = 0b00#2 then .trackerAdd r.a r.sz
  else if r.op = 0b01#2 then .trackerRemove r.a
  else if r.op = 0b10#2 then .trackerContains r.a
  else .trackerValidate r.a r.sz

/-- The decoder. The header flags byte has no meaning (R74). -/
def decode (ids : CmdIds) : Encoded → Except DecodeError Instr
  | .packet c _ P => decodeCommand ids c P
  | .request r => .ok (decodeRequest r)

/-- The bytes a packet's checksum covers (R72, R113): the header and the payload, after the magic bytes when
`CHECKSUM_COVERS_MAGIC`. -/
def coveredBytes (cfg : Config) (body : Bytes) : Bytes :=
  if cfg.csumCoversMagic then [cfg.magic0, cfg.magic1] ++ body else body

/-- The decoder of a byte string that starts at a packet (R70, R71, R90): the instruction and the bytes after it, or why
there is none. It reads the magic, 6 header bytes, `n` payload bytes and 2 checksum bytes. -/
def decodeBytes (cfg : Config) (maxPayload : Nat) : Bytes → Except DecodeError (Instr × Bytes)
  | m0 :: m1 :: c :: f :: l0 :: l1 :: l2 :: l3 :: rest =>
    if m0 = cfg.magic0 ∧ m1 = cfg.magic1 then
      let n := (word32 l0 l1 l2 l3).toNat
      if maxPayload < n then .error (.oversized n)
      else if rest.length < n + 2 then .error .truncated
      else
        let P := rest.take n
        let sum := half16 (rest.getD n 0) (rest.getD (n + 1) 0)
        if sum = csum (coveredBytes cfg ([c, f, l0, l1, l2, l3] ++ P)) then
          match decodeCommand cfg.cmdIds c P with
          | .ok i => .ok (i, rest.drop (n + 2))
          | .error e => .error e
        else .error (.badChecksum c)
    else .error .badMagic
  | _ => .error .truncated

/-! ## The encoder -/

/-- The header of a packet: command id, flags and payload length (R70). -/
def headerBytes (c f : Byte) (n : Nat) : Bytes :=
  [c, f] ++ le32 (BitVec.ofNat 32 n)

/-- A whole packet, request or response (R70, R72, R112): magic, header, payload, checksum. -/
def packetBytes (cfg : Config) (c f : Byte) (p : Bytes) : Bytes :=
  let body := headerBytes c f p.length ++ p
  [cfg.magic0, cfg.magic1] ++ body ++ le16 (csum (coveredBytes cfg body))

/-- The payload of an ALLOC form (R79). -/
def allocBytes : Form AllocFields → Bytes
  | .short raw => raw
  | .full f rest => le32 f.size ++ le32 f.caps ++ le32 f.alignment ++ rest

/-- The payload of a FREE form (R80). -/
def freeBytes : Form FreeFields → Bytes
  | .short raw => raw
  | .full f rest => le32 f.address ++ rest

/-- The payload of a WRITEMEM form (R81). -/
def writeBytes : Form WriteFields → Bytes
  | .short raw => raw
  | .full f rest => le32 f.address ++ [f.mflags, f.pad0, f.pad1, f.pad2] ++ rest

/-- The payload of a READMEM form (R82). -/
def readBytes : Form ReadFields → Bytes
  | .short raw => raw
  | .full f rest => le32 f.address ++ le32 f.size ++ [f.mflags, f.pad0, f.pad1, f.pad2] ++ rest

/-- The payload of an EXEC form (R83). -/
def execBytes : ExecForm → Bytes
  | .short raw => raw
  | .bare a => le32 a
  | .flagged a mf rest => le32 a ++ [mf] ++ rest

/-- The encoder: a command with header flags 0x00, as R91 writes requests, or a request of the lookup engine (R93), whose
`sz` is 0 where the operation has no such operand. -/
def encode (ids : CmdIds) : Instr → Encoded
  | .ping d => .packet (cmdId ids .ping) 0 d
  | .getInfo b => .packet (cmdId ids .getInfo) 0 b
  | .alloc o => .packet (cmdId ids .alloc) 0 (allocBytes o)
  | .free o => .packet (cmdId ids .free) 0 (freeBytes o)
  | .writeMem o => .packet (cmdId ids .writeMem) 0 (writeBytes o)
  | .readMem o => .packet (cmdId ids .readMem) 0 (readBytes o)
  | .exec o => .packet (cmdId ids .exec) 0 (execBytes o)
  | .heapInfo b => .packet (cmdId ids .heapInfo) 0 b
  | .trackerAdd a sz => .request ⟨0b00#2, a, sz⟩
  | .trackerRemove a => .request ⟨0b01#2, a, 0⟩
  | .trackerContains a => .request ⟨0b10#2, a, 0⟩
  | .trackerValidate a sz => .request ⟨0b11#2, a, sz⟩

/-- The bytes of a command on the wire (R70, R91); a request of the lookup engine never goes over the wire (R93). -/
def encodeBytes (cfg : Config) (i : Instr) : Option Bytes :=
  match encode cfg.cmdIds i with
  | .packet c f p => some (packetBytes cfg c f p)
  | .request _ => none

/-! ## The notation's pseudo-instructions (R91, R92) -/

/-- `WRITEMEM.SKIP addr=A data=D`, which "expands to `WRITEMEM addr=A flags=0x01 data=D`" (R92). -/
def writeMemSkip (a : Word) (D : Bytes) : Instr :=
  .writeMem (.full ⟨a, 0x01, 0, 0, 0⟩ D)

/-- `READMEM.SKIP addr=A size=S` (R92). -/
def readMemSkip (a sz : Word) : Instr :=
  .readMem (.full ⟨a, sz, 0x01, 0, 0, 0⟩ [])

/-- `EXEC.SKIP addr=A`, "a 5-byte payload" (R92). -/
def execSkip (a : Word) : Instr :=
  .exec (.flagged a 0x01 [])

/-- `BADSUM <line>`: the packet of the line "with its checksum replaced by `(csum + 1) mod 2^16`" (R92). -/
def badSumBytes (cfg : Config) (i : Instr) : Option Bytes :=
  match encode cfg.cmdIds i with
  | .packet c f p =>
    let body := headerBytes c f p.length ++ p
    some ([cfg.magic0, cfg.magic1] ++ body ++ le16 (csum (coveredBytes cfg body) + 1))
  | .request _ => none

/-! ## The opcode table's words

The table is written with the ids that R73 decides, which are the ids after reset too. -/

/-- The payload of a command whose operands are all zero: as many zero bytes as its fixed part has. -/
def zeroOperands (c : Byte) : Bytes :=
  match cmdOf .decided c with
  | some k => List.replicate k.fixedLen 0
  | none => []

/-- The instruction whose bits are `w` as the opcode table numbers them: a packet row's bits 7..0 are its `cmd_id` and
bits 15..8 its flags byte; a lookup-engine row's bits 1..0 are its `op`. The table gives some command rows and some
lookup-engine rows one and the same word of 8 bits; a word of 8 bits that equals 0 or 3 is read as a request, any other
as a packet (log entry 22). -/
def tableWord (nbits w : Nat) : Encoded :=
  if nbits ≤ 2 ∨ (nbits ≤ 8 ∧ (w = 0 ∨ w = 3)) then .request ⟨BitVec.ofNat 2 w, 0, 0⟩
  else .packet (BitVec.ofNat 8 w) (BitVec.ofNat 8 (w / 256)) (zeroOperands (BitVec.ofNat 8 w))

/-- The instruction the decoder reads from a word of the opcode table, none where it refuses it. -/
def decodeTableWord (nbits w : Nat) : Option Instr :=
  match decode .decided (tableWord nbits w) with
  | .ok i => some i
  | .error _ => none

end Sys2Proof
end

