-- ==== Sys2Proof/Machine/Params.lean ====
section
/-! DEFINITION. What the parameters must satisfy, what is derived from them at start (R223), and the configuration the
model holds after reset: the values R9 decides, and for each OPEN parameter its test value. -/

namespace Sys2Proof.Machine

/-- The smaller of two 32-bit values. -/
def minWord (a b : Word) : Word :=
  if a.toNat ≤ b.toNat then a else b

/-- `MAX_PAYLOAD = min(RX_BUF_SIZE, TX_BUF_SIZE, TRANSPORT_LIMIT)` (R223). -/
def negotiatedMax (c : Config) : Word :=
  minWord (minWord c.rxBufSize c.txBufSize) c.transportLimit

/-- A configuration the model accepts: `MAX_PAYLOAD ≥ 20` (R223), `TABLE_CAPACITY ≥ 1` (R8), `CACHE_LINE_DEFAULT ≥ 1`
(R180), `RX_FIFO_DEPTH ≥ 1` (R31), and eight different command ids (R73). -/
def configOk (c : Config) : Bool :=
  decide (20 ≤ (negotiatedMax c).toNat) && decide (1 ≤ c.tableCapacity.toNat)
    && decide (1 ≤ c.cacheLineDefault.toNat) && decide (1 ≤ c.rxFifoDepth) && c.cmdIds.distinct


/-- The configuration after reset. DESIGN CHOICE (log entry 1): R9 decides the magic bytes, the command ids, the
error codes and the two switches and gives the others as OPEN; the values here are the ones its "test value" column names,
and a FIFO deep enough for any test. -/
def standardConfig : Config where
  magic0           := 0xA5
  magic1           := 0x5A
  cmdIds           := .decided
  errCodes         := .decided
  csumCoversMagic  := false
  rxBufSize        := 128
  txBufSize        := 128
  transportLimit   := 128
  tableCapacity    := 64
  cacheLineDefault := 64
  protocolVersion  := 1
  firmwareVersion  := 0x00000100
  rxFifoDepth      := 4096
  execRequireStart := false
  capsDefault      := 0
  execFailSentinel := 0

end Sys2Proof.Machine
end

