-- ==== Sys2Proof/Machine/State.lean ====
section
/-! DEFINITION. The state of the machine as plain data: the block's own state (R20 to R37), the device memory behind its
port (R50), the link, and the model's own fields (the agents' turns, the ports' pending answers and readiness, the
transaction log). -/

namespace Sys2Proof.Machine

/-- The nine values of `s.st` (R21). -/
inductive FramerState where
  | sync1 | sync2 | hdr | payload | csum | drain | verify | dispatch | respond
  deriving DecidableEq, Repr

/-- The four values of `s.run` (R32). -/
inductive RunStatus where
  | idle | running | failed | faulted
  deriving DecidableEq, Repr

/-- The direction of a device-memory transaction (R200). -/
inductive AccessDir where
  | read | write
  deriving DecidableEq, Repr

/-- The reason `MemFault(addr, dir)` of R200. -/
structure MemFault where
  addr : Word
  dir  : AccessDir
  deriving DecidableEq, Repr

/-- The 6-byte header latch `s.hdr` (R23): cmd id, flags, then the 4 length bytes. -/
structure Header where
  cmd   : Byte
  flags : Byte
  len0  : Byte
  len1  : Byte
  len2  : Byte
  len3  : Byte
  deriving DecidableEq, Repr

/-- One slot of the allocation table (R30). -/
structure Slot where
  addr : Word
  size : Word
  used : Bool
  deriving DecidableEq, Repr

/-- What the lookup engine's last operation answered (R93). -/
inductive TrackerResult where
  | noResult | ok | tableFull | found | notFound
  | bit (b : Bool)
  deriving DecidableEq, Repr

/-- What the last `start()` returned (R220). -/
inductive StartResult where
  | noResult | started | startFailed | alreadyRunning | notPossible
  deriving DecidableEq, Repr

/-- The two pools of R220: "preferring a larger/slower memory pool, falling back to a smaller/faster one". -/
inductive Pool where
  | large | small
  deriving DecidableEq, Repr

/-- The error and status codes of R76, by name. -/
inductive ErrCode where
  | ok | checksum | unknownCmd | malformed | alloc | invalidAddr | cacheSync
  deriving DecidableEq, Repr

/-- One completed transaction on a port (R54 to R58, R220), with its answer. -/
inductive PortTxn where
  /-- `AllocPort.alloc(size, caps, align) -> answer` (R54). -/
  | alloc (size caps align answer : Word)
  /-- `AllocPort.free(addr)` (R54). -/
  | free (addr : Word)
  /-- `MemWrite(addr, n, data)` (R58). -/
  | memWrite (addr : Word) (data : Bytes)
  /-- `MemRead(addr, n) -> data` (R58). -/
  | memRead (addr : Word) (data : Bytes)
  /-- A device-memory transaction of `n` bytes that ended in a fault (R58). -/
  | memFault (addr : Word) (dir : AccessDir) (n : Nat)
  /-- `CachePort.lineSize() -> answer` (R56). -/
  | lineSize (answer : Option Word)
  /-- `CachePort.sync(start, len) -> ok | fail` (R56). -/
  | sync (start len : Nat) (ok : Bool)
  /-- `ExecPort.call(addr) -> r` (R55); `none`: the callee never returns. -/
  | execCall (addr : Word) (result : Option Word)
  /-- `HeapPort.info()` (R57). -/
  | heapInfo (answer : HeapCounters)
  /-- `bufAlloc(size, pool)` (R220). -/
  | bufAlloc (size : Word) (pool : Pool) (ok : Bool)
  /-- The release of a buffer obtained by a start that failed (R220). -/
  | bufRelease (size : Word)
  deriving DecidableEq, Repr

/-- The answers that the external collaborators have ready, per port, the next one first. Where a list is empty the
answer is the free value of `Config` at the state's draw counter (log entry 2). -/
structure Answers where
  /-- The allocator's addresses (R54). -/
  allocs  : List Word
  /-- The line-size query's answers (R56). -/
  lines   : List (Option Word)
  /-- Whether each sync succeeds (R56). -/
  syncs   : List Bool
  /-- What each Exec callee does (R55, R66). -/
  execs   : List ExecAnswer
  /-- The heap counters (R57). -/
  heaps   : List HeapCounters
  /-- Whether the platform serves each device-memory transaction (R58). -/
  served  : List Bool
  /-- Whether each buffer allocation succeeds (R220). -/
  buffers : List Bool
  /-- Whether each byte offered to a full queue is dropped (R31). -/
  drops   : List Bool
  deriving DecidableEq, Repr

/-- The five ports through which the worker reaches the outside (R54 to R58). -/
inductive Port where
  | allocator | exec | cache | heap | memory
  deriving DecidableEq, Repr

/-- Whether each port can answer its next transaction (R12). -/
structure Ready where
  allocator : Bool
  exec      : Bool
  cache     : Bool
  heap      : Bool
  memory    : Bool
  deriving DecidableEq, Repr

/-- How far the dispatched command has come, between two of its port transactions (R12, R62). -/
inductive Progress where
  /-- No transaction of the command is done. -/
  | fresh
  /-- ALLOC with the table full, or FREE with the entry gone: the allocator is to be told to free `a` (R154, R155). -/
  | release (a : Word)
  /-- WRITEMEM after its `MemWrite`: the line size is to be queried (R156, R182). -/
  | written
  /-- WRITEMEM after its line-size query, with the line size in use: the sync is to be issued (R182). -/
  | lineKnown (S : Word)
  deriving DecidableEq, Repr

/-- Which agent moves next (R199, R204), with what the outside world brings when the move is its own. -/
inductive Turn where
  /-- The engine worker takes its step, or waits. -/
  | worker
  /-- The producer offers the next byte of the link. -/
  | producer
  /-- The host writes one byte on the link. -/
  | hostSend (b : Byte)
  /-- The host reads one byte of the output stream. -/
  | hostRecv
  /-- The platform calls `start()` (R220). -/
  | start
  /-- A port becomes able to answer, or unable (R12). -/
  | port (p : Port) (ready : Bool)
  /-- Power-on or external reset (R224); the stores are what the platform leaves in device memory. -/
  | powerOn (stores : List (Word × Byte))
  deriving DecidableEq, Repr

/-- Device memory: a list of (address, byte) pairs, addresses strictly rising, no entry equal to what an unlisted address
reads as. -/
abbrev Memory := List Host.Cell

/-- The whole state. -/
structure State where
  /-- The configuration values (R34), read-only. -/
  cfg        : Config
  /-- `s.run`, the engine status register (R32). -/
  run        : RunStatus
  /-- `s.fault` and `s.why` (R35): clear, or set with its reason. -/
  why        : Option MemFault
  /-- `MAX_PAYLOAD`, fixed at start (R34, R223). -/
  maxPayload : Word
  /-- `s.st`, the framer state register (R21). -/
  st         : FramerState
  /-- `s.idx`, the byte index within the current field (R22). -/
  idx        : Nat
  /-- `s.hdr`, the header latch (R23). -/
  hdr        : Header
  /-- `s.acc`, the checksum accumulator (R24). -/
  acc        : Half
  /-- `s.rcs`, the received-checksum register (R25). -/
  rcs        : Half
  /-- `s.drain`, the drain counter, an exact natural (R26). -/
  drain      : Nat
  /-- `s.tcmd` of the response register (R27). -/
  tcmd       : Byte
  /-- `s.tflags` of the response register (R27, R33). -/
  tflags     : Byte
  /-- The length of `s.tpay`, which stands in the transmit buffer (R27, R29). -/
  tlen       : Nat
  /-- `s.rxbuf`, the receive buffer (R28). -/
  rxbuf      : Bytes
  /-- `s.txbuf`, the transmit buffer (R29). -/
  txbuf      : Bytes
  /-- `T[0..TABLE_CAPACITY)`, the allocation table (R30). -/
  table      : List Slot
  /-- `s.q`, the input queue, oldest byte first (R31). -/
  q          : Bytes
  /-- The address of an Exec callee that has been entered and never returns (R55, R201). -/
  hung       : Option Word
  /-- How far the dispatched command has come (R12, R62). -/
  phase      : Progress
  /-- Device memory behind its port, as the data path sees it (R50, R58). -/
  mem        : Memory
  /-- The older contents of device memory: each (address, byte) pair that a store overwrote (R51, R64). -/
  past       : List Host.Cell
  /-- The addresses stored to since the last good sync of them, where an instruction fetch may see older contents (R64). -/
  dirty      : List Nat
  /-- A request standing at the lookup engine's port (R93). -/
  treq       : Option TrackerRequest
  /-- The lookup engine's answer to its last request (R93). -/
  tres       : TrackerResult
  /-- The answer of the last `start()` (R220). -/
  startRes   : StartResult
  /-- The bytes on the link that the producer has not yet offered, oldest first (R204). -/
  link       : Bytes
  /-- The bytes emitted by `TxPush` that the host has not yet read, oldest first (R112). -/
  out        : Bytes
  /-- The agents' coming moves (R199). The model's own field. -/
  turns      : List Turn
  /-- The ports' pending answers (R54 to R58). The model's own field. -/
  ans        : Answers
  /-- How many answers have been drawn: the argument of the free values. The model's own field. -/
  draws      : Nat
  /-- The port transactions done so far, oldest first (R62). The model's own field. -/
  log        : List PortTxn
  /-- Which ports can answer (R12). The model's own field. -/
  ready      : Ready
  /-- How many moves the producer makes before the worker's next, while both can move (R199, R231). The model's own field. -/
  lead       : Nat
  deriving DecidableEq, Repr

/-- Why the machine stops with a fault. -/
inductive Fault where
  /-- Raised by the worker's step in every state whose fault mark is set: "no agent of the block steps again" (R200).
  Safe: the spec itself ends the run here. -/
  | memFault (addr : Word) (dir : AccessDir)
  deriving DecidableEq, Repr

/-- Why the model gives a step no meaning. -/
inductive Refusal where
  /-- An instruction without a meaning in `exec`. No arm raises it. Safe: nothing is claimed of such an instruction. -/
  | notModelled (mnemonic : String)
  /-- Raised by `start()` under a configuration that R223 makes "a configuration error, not a behaviour", that breaks a
  lower bound of R8, R31 or R180, or that gives two commands one id (R73). Safe: nothing is claimed of such a machine. -/
  | badConfiguration
  deriving DecidableEq, Repr

/-- No port has an answer ready. -/
def Answers.nothing : Answers := ⟨[], [], [], [], [], [], [], []⟩

/-- Every port can answer. -/
def Ready.all : Ready := ⟨true, true, true, true, true⟩

/-- The machine right after power-on: `s.run = IDLE`, the fault mark clear (R32, R35, R224), memory with nothing listed.
R37 leaves the other registers unspecified; the values here are named in log entry 3. -/
def State.reset : State where
  cfg        := standardConfig
  run        := .idle
  why        := none
  maxPayload := 0
  st         := .sync1
  idx        := 0
  hdr        := ⟨0, 0, 0, 0, 0, 0⟩
  acc        := 0
  rcs        := 0
  drain      := 0
  tcmd       := 0
  tflags     := 0
  tlen       := 0
  rxbuf      := []
  txbuf      := []
  table      := []
  q          := []
  hung       := none
  phase      := .fresh
  mem        := []
  past       := []
  dirty      := []
  treq       := none
  tres       := .noResult
  startRes   := .noResult
  link       := []
  out        := []
  turns      := []
  ans        := Answers.nothing
  draws      := 0
  log        := []
  ready      := .all
  lead       := 0

end Sys2Proof.Machine
end

