-- ==== Sys2Proof/Machine/Flags.lean ====
section
/-! DEFINITION. The flag-like fields of R33: the response flags byte, the payload flags byte with its skip-bounds bit, and
the numeric codes of R76. The block has no condition codes and no arithmetic status flags (R33). -/

namespace Sys2Proof.Machine

/-- The response flags of success (R75). -/
def flagsOk : Byte := 0x00

/-- The response flags of an error: bit 0 is `FLAG_ERROR`, bits 7..1 are 0 (R75). -/
def flagsError : Byte := 0x01

/-- The skip-bounds bit, bit 0 of a request's `mflags`; bits 7..1 are reserved and ignored (R13, R87). -/
def skipBounds (mflags : Byte) : Bool :=
  mflags.getLsbD 0

/-- The number of a code under the table `ERR`; success is 0 in every table (R76, D7). -/
def ErrCode.code (err : ErrCodes) : ErrCode → Word
  | .ok => 0
  | .checksum => err.checksum
  | .unknownCmd => err.unknownCmd
  | .malformed => err.malformed
  | .alloc => err.alloc
  | .invalidAddr => err.invalidAddr
  | .cacheSync => err.cacheSync

end Sys2Proof.Machine
end

