-- ==== Sys2Proof/Machine/Operands.lean ====
section
/-! DEFINITION. What the operands of a request stand for: views of the header latch (R23), the request payload (R28), the
alignment test (R154) and the bytes a transfer touches (R58). -/

namespace Sys2Proof.Machine

/-- The latch as its six bytes, in order (R23). -/
def Header.toBytes (h : Header) : Bytes :=
  [h.cmd, h.flags, h.len0, h.len1, h.len2, h.len3]

/-- `s.len = rdLE32(s.hdr, 2)` (R23). -/
def Header.len (h : Header) : Word :=
  word32 h.len0 h.len1 h.len2 h.len3

/-- `s.hdr[i] <- b` (R104); the latch has no byte beyond the sixth. -/
def Header.set (h : Header) (i : Nat) (b : Byte) : Header :=
  match i with
  | 0 => { h with cmd := b }
  | 1 => { h with flags := b }
  | 2 => { h with len0 := b }
  | 3 => { h with len1 := b }
  | 4 => { h with len2 := b }
  | 5 => { h with len3 := b }
  | _ => h

/-- The header latch that holds a command id, a flags byte and a length (R23, R70). -/
def Header.mk' (c f : Byte) (n : Word) : Header :=
  ⟨c, f, n.extractLsb' 0 8, n.extractLsb' 8 8, n.extractLsb' 16 8, n.extractLsb' 24 8⟩

/-- The request payload `P = s.rxbuf[0..s.len)` (R28). -/
def State.payload (s : State) : Bytes :=
  s.rxbuf.take s.hdr.len.toNat

/-- `s.tpay`, which stands in the transmit buffer (R27, R29). -/
def State.tpay (s : State) : Bytes :=
  s.txbuf.take s.tlen

/-- "nonzero power of two": `align == 0 or (align & (align - 1)) != 0` is a bad alignment (R154). -/
def goodAlignment (align : Word) : Bool :=
  !(align == 0 || (align &&& (align - 1)) != 0)

/-- The bytes of a transfer with their addresses: byte `i` goes with address `a + i`, in increasing `i` (R58). -/
def addressed (a : Nat) : Bytes → List Host.Cell
  | [] => []
  | b :: bs => (a, b) :: addressed (a + 1) bs

/-- An Exec callee's stores as cells (R66). -/
def calleeCells (stores : List (Word × Byte)) : List Host.Cell :=
  stores.map fun w => (w.1.toNat, w.2)

end Sys2Proof.Machine
end

