-- ==== Sys2Proof/Machine/Ops.lean ====
section
/-! DEFINITION. The shared operations: device memory and the instruction-fetch view of it, the allocation table, the port
transactions, reporting an error and returning from it, and recording a fault. -/

namespace Sys2Proof.Machine

/-! ## Device memory -/

/-- What an address that memory does not list reads as. DESIGN CHOICE (log entry 4). -/
def Memory.unlisted : Byte := 0

/-- The byte at an address. -/
def Memory.read : Memory → Nat → Byte
  | [], _ => Memory.unlisted
  | c :: m, a => if c.1 = a then c.2 else Memory.read m a

/-- Memory with one byte stored; storing what an unlisted address reads as removes the entry. -/
def Memory.write : Memory → Nat → Byte → Memory
  | [], a, b => if b = Memory.unlisted then [] else [(a, b)]
  | c :: m, a, b =>
    if a < c.1 then (if b = Memory.unlisted then c :: m else (a, b) :: c :: m)
    else if a = c.1 then (if b = Memory.unlisted then m else (a, b) :: m)
    else c :: Memory.write m a b

/-- The canonical form: addresses strictly rising and within the 32-bit space (R50), no entry equal to what an unlisted
address reads as. -/
abbrev Memory.wf (m : Memory) : Prop :=
  m.Pairwise (fun c d => c.1 < d.1) ∧ ∀ c ∈ m, c.1 ≤ max32 ∧ c.2 ≠ Memory.unlisted

/-- Stores made one after another. -/
def Memory.storeAll : Memory → List Host.Cell → Memory
  | m, [] => m
  | m, c :: cs => Memory.storeAll (m.write c.1 c.2) cs

/-- `MemRead`'s bytes: byte `i` from address `a + i` (R58). -/
def Memory.readBytes (m : Memory) (a : Nat) : Nat → Bytes
  | 0 => []
  | n + 1 => m.read a :: Memory.readBytes m (a + 1) n

/-! ## The instruction-fetch view (R51, R64) -/

/-- The place of a pair in the order by address, then byte. -/
def cellKey (c : Host.Cell) : Nat :=
  c.1 * 256 + c.2.toNat

/-- The canonical form of a set of pairs: strictly rising in that order. -/
abbrev pastWf (l : List Host.Cell) : Prop :=
  l.Pairwise fun c d => cellKey c < cellKey d

/-- A set of pairs with one pair added. -/
def pastAdd (c : Host.Cell) : List Host.Cell → List Host.Cell
  | [] => [c]
  | d :: l =>
    if cellKey c < cellKey d then c :: d :: l
    else if cellKey c = cellKey d then d :: l
    else d :: pastAdd c l

/-- The older contents after a run of stores: what each store overwrites joins them, for good (R64). -/
def pastAll : Memory → List Host.Cell → List Host.Cell → List Host.Cell
  | _, l, [] => l
  | m, l, c :: cs => pastAll (m.write c.1 c.2) (pastAdd (c.1, m.read c.1) l) cs

/-- The canonical form of a set of addresses: strictly rising. -/
abbrev dirtyWf (l : List Nat) : Prop :=
  l.Pairwise (· < ·)

/-- A set of addresses with one address added. -/
def dirtyAdd (a : Nat) : List Nat → List Nat
  | [] => [a]
  | d :: l => if a < d then a :: d :: l else if a = d then d :: l else d :: dirtyAdd a l

/-- The addresses not synchronised, after a run of stores (R64). -/
def dirtyAll : List Nat → List Host.Cell → List Nat
  | l, [] => l
  | l, c :: cs => dirtyAll (dirtyAdd c.1 l) cs

/-- The addresses not synchronised, after a sync over `[start, start + len)` that answered `ok` (R64, R182). -/
def dirtyDrop (start len : Nat) (l : List Nat) : List Nat :=
  l.filter fun a => !(decide (start ≤ a) && decide (a < start + len))

/-- Whether an instruction fetch may see byte `b` at address `a`: the byte stored there, or, where no sync has answered `ok`
since the last store, "any older contents" of the address (R64, I6). -/
def State.fetchMaySee (s : State) (a : Nat) (b : Byte) : Bool :=
  s.mem.read a == b || (s.dirty.contains a && s.past.contains (a, b))

/-- Stores to device memory, as the data path and the instruction-fetch view see them. -/
def State.storeCells (s : State) (cs : List Host.Cell) : State :=
  { s with mem := s.mem.storeAll cs, past := pastAll s.mem s.past cs, dirty := dirtyAll s.dirty cs }

/-! ## The allocation table (R30, R131 to R134) -/

/-- A free slot: `{addr = 0, size = 0, used = false}` (R30). -/
def Slot.free : Slot := ⟨0, 0, false⟩

/-- `add(a, sz)`: the lowest free slot takes the entry; none when every slot is in use (R131). -/
def tableAdd : List Slot → Word → Word → Option (List Slot)
  | [], _, _ => none
  | t :: ts, a, sz =>
    if t.used then (tableAdd ts a sz).map (t :: ·) else some (⟨a, sz, true⟩ :: ts)

/-- `remove(a)`: the lowest slot in use whose start address is `a` is freed; none when there is no such slot (R132). -/
def tableRemove : List Slot → Word → Option (List Slot)
  | [], _ => none
  | t :: ts, a =>
    if t.used && t.addr == a then some (Slot.free :: ts) else (tableRemove ts a).map (t :: ·)

/-- `contains(a)`: an exact start-address match (R133). -/
def tableContains (T : List Slot) (a : Word) : Bool :=
  T.any fun t => t.used && t.addr == a

/-- Whether one entry covers `[a, a + sz)`; an entry whose own range overflows covers nothing (R134). -/
def Slot.covers (t : Slot) (a sz : Nat) : Bool :=
  t.used && decide (t.addr.toNat + t.size.toNat ≤ max32) && decide (t.addr.toNat ≤ a)
    && decide (a + sz ≤ t.addr.toNat + t.size.toNat)

/-- `validate(a, sz)` in unbounded naturals; `a > MAX32 − sz` says that `a + sz` is above `MAX32` (R134). -/
def tableValidate (T : List Slot) (a sz : Nat) : Bool :=
  decide (a + sz ≤ max32) && T.any fun t => t.covers a sz

/-- The lookup engine serves `add` (R131). -/
def State.lookupAdd (s : State) (a sz : Word) : State :=
  { s with
    table := (tableAdd s.table a sz).getD s.table
    tres := if (tableAdd s.table a sz).isSome then .ok else .tableFull }

/-- The lookup engine serves `remove` (R132). -/
def State.lookupRemove (s : State) (a : Word) : State :=
  { s with
    table := (tableRemove s.table a).getD s.table
    tres := if (tableRemove s.table a).isSome then .found else .notFound }

/-- The lookup engine serves `contains` (R133). -/
def State.lookupContains (s : State) (a : Word) : State :=
  { s with tres := .bit (tableContains s.table a) }

/-- The lookup engine serves `validate` (R134). -/
def State.lookupValidate (s : State) (a sz : Nat) : State :=
  { s with tres := .bit (tableValidate s.table a sz) }

/-- The bounds check of WriteMem and ReadMem (R61, R135): with the skip-bounds bit the Tracker is not asked. -/
def State.checkRange (s : State) (mflags : Byte) (a sz : Nat) : State :=
  if skipBounds mflags then s else s.lookupValidate a sz

/-- Whether that check lets the request go on (R61, R135). -/
def State.admits (s : State) (mflags : Byte) (a sz : Nat) : Bool :=
  skipBounds mflags || tableValidate s.table a sz

/-! ## Port transactions (R54 to R58)

Each takes one answer: the next pending one, or the free value at the draw counter. A command makes at most one of them in
one step (R12). -/

/-- Whether a port can answer (R12). -/
def Ready.on (r : Ready) : Port → Bool
  | .allocator => r.allocator
  | .exec => r.exec
  | .cache => r.cache
  | .heap => r.heap
  | .memory => r.memory

/-- A port becomes able to answer, or unable. -/
def Ready.set (r : Ready) (p : Port) (b : Bool) : Ready :=
  match p with
  | .allocator => { r with allocator := b }
  | .exec => { r with exec := b }
  | .cache => { r with cache := b }
  | .heap => { r with heap := b }
  | .memory => { r with memory := b }

/-- The port of a command's transaction; the buffers of a start are none of the five ports (R54 to R58, R220). -/
def PortTxn.port : PortTxn → Option Port
  | .alloc _ _ _ _ => some .allocator
  | .free _ => some .allocator
  | .memWrite _ _ => some .memory
  | .memRead _ _ => some .memory
  | .memFault _ _ _ => some .memory
  | .lineSize _ => some .cache
  | .sync _ _ _ => some .cache
  | .execCall _ _ => some .exec
  | .heapInfo _ => some .heap
  | .bufAlloc _ _ _ => none
  | .bufRelease _ => none

/-- The command goes on: its next transaction is a step of its own (R12). -/
def State.goOn (s : State) (p : Progress) : State :=
  { s with phase := p }

/-- The record of one transaction: its answer is used up and it joins the log. -/
def State.transact (s : State) (ans : Answers) (t : PortTxn) : State :=
  { s with ans := ans, draws := s.draws + 1, log := s.log ++ [t] }

/-- The allocator's next answer. -/
def State.allocAnswer (s : State) : Word :=
  s.ans.allocs.headD (Config.freeAlloc s.draws)

/-- `AllocPort.alloc(size, caps, align)` (R54). -/
def State.callAlloc (s : State) (size caps align : Word) : State :=
  s.transact { s.ans with allocs := s.ans.allocs.tail } (.alloc size caps align s.allocAnswer)

/-- `AllocPort.free(addr)`: "returns nothing. The block ignores any outcome" (R54). -/
def State.callFree (s : State) (a : Word) : State :=
  { s with log := s.log ++ [.free a] }

/-- The line-size query's next answer. -/
def State.lineAnswer (s : State) : Option Word :=
  s.ans.lines.headD (Config.freeLine s.draws)

/-- `CachePort.lineSize()` (R56). -/
def State.queryLine (s : State) : State :=
  s.transact { s.ans with lines := s.ans.lines.tail } (.lineSize s.lineAnswer)

/-- The line size in use under a query's answer: `none` and `some 0` are a failed query (R180). -/
def lineInUse (cfg : Config) : Option Word → Word
  | some S => if S = 0 then cfg.cacheLineDefault else S
  | none => cfg.cacheLineDefault

/-- `effectiveLine()` (R180). -/
def State.effectiveLine (s : State) : Word :=
  lineInUse s.cfg s.lineAnswer

/-- Whether the next sync answers `ok`. -/
def State.syncAnswer (s : State) : Bool :=
  s.ans.syncs.headD (Config.freeSync s.draws)

/-- `CachePort.sync(start, len)`, which makes fetches of the range see the stored bytes when it answers `ok` (R56, R182). -/
def State.callSync (s : State) (start len : Nat) : State :=
  { s.transact { s.ans with syncs := s.ans.syncs.tail } (.sync start len s.syncAnswer) with
    dirty := if s.syncAnswer then dirtyDrop start len s.dirty else s.dirty }

/-- What the next Exec callee does. -/
def State.execAnswer (s : State) : ExecAnswer :=
  s.ans.execs.headD (Config.freeExec s.draws)

/-- The callee returned `r` after some stores: it "can read and write any device memory" and nothing of the block (R66). -/
def State.calleeReturned (s : State) (a r : Word) (stores : List (Word × Byte)) : State :=
  (s.transact { s.ans with execs := s.ans.execs.tail } (.execCall a (some r))).storeCells (calleeCells stores)

/-- The callee never returns: the framer stays in `DISPATCH` for ever (R111, R201). -/
def State.calleeHangs (s : State) (a : Word) : State :=
  { s.transact { s.ans with execs := s.ans.execs.tail } (.execCall a none) with hung := some a }

/-- The heap port's next answer. -/
def State.heapAnswer (s : State) : HeapCounters :=
  s.ans.heaps.headD (Config.freeHeap s.draws)

/-- `HeapPort.info()` (R57). -/
def State.callHeap (s : State) : State :=
  s.transact { s.ans with heaps := s.ans.heaps.tail } (.heapInfo s.heapAnswer)

/-- Whether the platform serves the next device-memory transaction (R58). -/
def State.servedAnswer (s : State) : Bool :=
  s.ans.served.headD (Config.freeServed s.draws)

/-- Whether a device-memory transaction of `n` bytes at `a` faults: always when it would cross the top of the address
space, else where the platform maps no memory (R58). A transaction of no byte touches nothing. -/
def State.memFaults (s : State) (a : Word) (n : Nat) : Bool :=
  decide (n ≠ 0) && (decide (max32 + 1 < a.toNat + n) || !s.servedAnswer)

/-- `MemWrite(a, |D|, D)` that is served (R58). -/
def State.memWrite (s : State) (a : Word) (D : Bytes) : State :=
  (s.transact { s.ans with served := s.ans.served.tail } (.memWrite a D)).storeCells (addressed a.toNat D)

/-- `MemRead(a, n)` that is served (R58). -/
def State.memRead (s : State) (a : Word) (n : Nat) : State :=
  s.transact { s.ans with served := s.ans.served.tail } (.memRead a (s.mem.readBytes a.toNat n))

/-! ## Reporting an error, answering, and the return -/

/-- The response register takes a response and the framer goes to `RESPOND` (R111, R150); no command is in progress. -/
def State.respondWith (s : State) (c f : Byte) (p : Bytes) : State :=
  { s with
    tcmd := c
    tflags := f
    tlen := p.length
    txbuf := p ++ s.txbuf.drop p.length
    st := .respond
    phase := .fresh }

/-- The outcome `Ok(p)` of a command (R150). -/
def State.succeed (s : State) (k : Cmd) (p : Bytes) : State :=
  s.respondWith (cmdId s.cfg.cmdIds k) flagsOk p

/-- Reporting an error, "the block's only \"trap entry\"": "It saves no state and changes no mode, mask or stack. It
writes only the response register", and `s.st` goes to `RESPOND` (R196). -/
def State.reportError (s : State) (c : Byte) (e : ErrCode) : State :=
  s.respondWith c flagsError (le32 (e.code s.cfg.errCodes))

/-- The outcome `Err(e)` of a command (R150). -/
def State.fail (s : State) (k : Cmd) (e : ErrCode) : State :=
  s.reportError (cmdId s.cfg.cmdIds k) e

/-- The return from a report as from any answer: the response goes out and the framer is back in `SYNC1`; "There is no
return instruction and nothing to restore" (R112, R197). -/
def State.finishResponse (s : State) : State :=
  { s with
    out := s.out ++ packetBytes s.cfg s.tcmd s.tflags s.tpay
    st := .sync1 }

/-- Taking a fault: `s.fault <- set ; s.why <- MemFault(addr, dir) ; s.run <- FAULTED`. "No response is emitted" (R200), and the command that was in progress ends. -/
def State.takeFault (s : State) (a : Word) (dir : AccessDir) : State :=
  { s with why := some ⟨a, dir⟩, run := .faulted, phase := .fresh }

/-- A device-memory transaction that ended in a fault, which "stops the block" (R58, R200). -/
def State.memAbort (s : State) (a : Word) (dir : AccessDir) (n : Nat) : State :=
  (s.transact { s.ans with served := s.ans.served.tail } (.memFault a dir n)).takeFault a dir

end Sys2Proof.Machine
end

