-- ==== Sys2Proof/Machine/Allocation.lean ====
section
/-! DEFINITION. The allocation commands: ALLOC (R154) and FREE (R155), one port transaction in each step (R12). -/

namespace Sys2Proof.Machine

/-- After the allocator answered `a ≠ 0`: the Tracker records it, or the memory is to be released (R154). -/
def trackAllocation (s : State) (a size : Word) : State :=
  let t := s.lookupAdd a size
  if t.tres = .tableFull then t.goOn (.release a)
  else t.succeed .alloc (le32 a ++ le32 (ErrCode.ok.code t.cfg.errCodes))

/-- ALLOC up to the allocator's answer, its checks in the order of R162 (R154). -/
def requestAllocation (f : AllocFields) (s : State) : State :=
  if goodAlignment f.alignment then
    let t := s.callAlloc f.size f.caps f.alignment
    if s.allocAnswer = 0 then t.fail .alloc .alloc
    else trackAllocation t s.allocAnswer f.size
  else s.fail .alloc .alloc

/-- The effect of one step of ALLOC (R154): the request, or, with the table full, the release, which "releases the memory and
fails". -/
def allocEffect (o : Form AllocFields) (s : State) : State :=
  match o with
  | .short _ => s.fail .alloc .malformed
  | .full f _ =>
    match s.phase with
    | .release a => (s.callFree a).fail .alloc .alloc
    | .fresh => requestAllocation f s
    | .written => requestAllocation f s
    | .lineKnown _ => requestAllocation f s

/-- ALLOC (R154). -/
def execAlloc (o : Form AllocFields) (s : State) : Host.Outcome State Fault Refusal :=
  .next (allocEffect o s)

/-- FREE's Tracker operations (R155): the check, and the removal of the entry. -/
def untrack (a : Word) (s : State) : State :=
  let t := s.lookupContains a
  if t.tres = .bit true then (t.lookupRemove a).goOn (.release a)
  else t.fail .free .invalidAddr

/-- The effect of one step of FREE (R155): "The allocator is told only after the table entry is gone". -/
def freeEffect (o : Form FreeFields) (s : State) : State :=
  match o with
  | .short _ => s.fail .free .malformed
  | .full f _ =>
    match s.phase with
    | .release a => (s.callFree a).succeed .free (le32 (ErrCode.ok.code s.cfg.errCodes))
    | .fresh => untrack f.address s
    | .written => untrack f.address s
    | .lineKnown _ => untrack f.address s

/-- FREE (R155). -/
def execFree (o : Form FreeFields) (s : State) : Host.Outcome State Fault Refusal :=
  .next (freeEffect o s)

end Sys2Proof.Machine
end

