-- ==== Sys2Proof/Machine/Cache.lean ====
section
/-! DEFINITION. The cache synchroniser (R180 to R184). -/

namespace Sys2Proof.Machine

/-- `floor(a / S) * S` (R181). -/
def lineFloor (a S : Nat) : Nat :=
  a / S * S

/-- `ceil(x / S) * S` (R181). -/
def lineCeil (x S : Nat) : Nat :=
  (x + (S - 1)) / S * S

/-- `alignedRange(a, L, S) -> (start, len)`, in unbounded naturals (R181). -/
def alignedRange (a L S : Nat) : Nat × Nat :=
  (lineFloor a S, lineCeil (a + L) S - lineFloor a S)

/-- The first transaction of `CacheSync(a, L)`: one line-size query, whose line size the next step uses (R180, R182). -/
def State.learnLine (s : State) : State :=
  s.queryLine.goOn (.lineKnown s.effectiveLine)

/-- The second transaction of `CacheSync(a, L)`: one sync over the range aligned to the line size `S` (R181, R182). -/
def State.syncLines (s : State) (a L : Nat) (S : Word) : State :=
  s.callSync (alignedRange a L S.toNat).1 (alignedRange a L S.toNat).2

/-- The status field of a WRITEMEM response (R156, R183). -/
def syncStatus (ok : Bool) : ErrCode :=
  if ok then .ok else .cacheSync

end Sys2Proof.Machine
end

