-- ==== Sys2Proof/Machine/DeviceMemory.lean ====
section
/-! DEFINITION. The memory commands: WRITEMEM (R156) and READMEM (R157), one port transaction in each step (R12). -/

namespace Sys2Proof.Machine

/-- WRITEMEM after its checks: the copy (R156). -/
def transferWrite (a : Word) (D : Bytes) (s : State) : State :=
  if s.memFaults a D.length then s.memAbort a .write D.length
  else (s.memWrite a D).goOn .written

/-- WRITEMEM's checks, in the order of R162, and the copy (R156). -/
def checkedWrite (f : WriteFields) (D : Bytes) (s : State) : State :=
  let t := s.checkRange f.mflags f.address.toNat D.length
  if s.admits f.mflags f.address.toNat D.length then transferWrite f.address D t
  else t.fail .writeMem .invalidAddr

/-- WRITEMEM's sync and its response: the length, and the sync's status (R156, R182, R183). -/
def finishWrite (a : Word) (D : Bytes) (S : Word) (s : State) : State :=
  (s.syncLines a.toNat D.length S).succeed .writeMem
    (le32 (BitVec.ofNat 32 D.length) ++ le32 ((syncStatus s.syncAnswer).code s.cfg.errCodes))

/-- The effect of one step of WRITEMEM (R156): the checks and the copy, the line-size query, the sync that every write is
followed by (R182, R184). -/
def writeMemEffect (o : Form WriteFields) (s : State) : State :=
  match o with
  | .short _ => s.fail .writeMem .malformed
  | .full f D =>
    match s.phase with
    | .fresh => checkedWrite f D s
    | .release _ => checkedWrite f D s
    | .written => s.learnLine
    | .lineKnown S => finishWrite f.address D S s

/-- WRITEMEM (R156). -/
def execWriteMem (o : Form WriteFields) (s : State) : Host.Outcome State Fault Refusal :=
  .next (writeMemEffect o s)

/-- READMEM after its checks: "raw bytes of length = requested size", no cache operation (R157). -/
def transferRead (a : Word) (n : Nat) (s : State) : State :=
  if s.memFaults a n then s.memAbort a .read n
  else (s.memRead a n).succeed .readMem (s.mem.readBytes a.toNat n)

/-- The effect of READMEM (R157): the size limit is "checked even with skip-bounds". -/
def readMemEffect (o : Form ReadFields) (s : State) : State :=
  match o with
  | .short _ => s.fail .readMem .malformed
  | .full f _ =>
    if s.maxPayload.toNat < f.size.toNat then s.fail .readMem .malformed
    else
      let t := s.checkRange f.mflags f.address.toNat f.size.toNat
      if s.admits f.mflags f.address.toNat f.size.toNat then transferRead f.address f.size.toNat t
      else t.fail .readMem .invalidAddr

/-- READMEM (R157). -/
def execReadMem (o : Form ReadFields) (s : State) : Host.Outcome State Fault Refusal :=
  .next (readMemEffect o s)

end Sys2Proof.Machine
end

