-- ==== Sys2Proof/Machine/Execution.lean ====
section
/-! DEFINITION. The execution command: EXEC (R158). -/

namespace Sys2Proof.Machine

/-- The Tracker checks of an EXEC without skip-bounds: `validate(a, 1)`, and `contains(a)` when `EXEC_REQUIRE_START` (R158). -/
def State.checkEntry (s : State) (a : Word) : State :=
  if s.cfg.execRequireStart then (s.lookupValidate a.toNat 1).lookupContains a else s.lookupValidate a.toNat 1

/-- `ok_bounds` of R158. -/
def State.entryOk (s : State) (a : Word) : Bool :=
  tableValidate s.table a.toNat 1 && (!s.cfg.execRequireStart || tableContains s.table a)

/-- EXEC after its checks: the call, and the response with the callee's value; a callee that never returns leaves the
block in `DISPATCH` (R55, R158, R201). -/
def enterCallee (a : Word) (s : State) : State :=
  match s.execAnswer with
  | .returns r stores => (s.calleeReturned a r stores).succeed .exec (le32 r)
  | .never => s.calleeHangs a

/-- The effect of EXEC on an address and a flags byte (R158); with skip-bounds the Tracker is not asked (R135). -/
def callEffect (a : Word) (mflags : Byte) (s : State) : State :=
  if skipBounds mflags then enterCallee a s
  else if s.entryOk a then enterCallee a (s.checkEntry a)
  else (s.checkEntry a).fail .exec .invalidAddr

/-- The effect of EXEC (R158): "If `n = 4`, `mflags = 0`" (R83). -/
def execEffect (o : ExecForm) (s : State) : State :=
  match o with
  | .short _ => s.fail .exec .malformed
  | .bare a => callEffect a 0 s
  | .flagged a mf _ => callEffect a mf s

/-- EXEC (R158). -/
def execExec (o : ExecForm) (s : State) : Host.Outcome State Fault Refusal :=
  .next (execEffect o s)

end Sys2Proof.Machine
end

