-- ==== Sys2Proof/Machine/Info.lean ====
section
/-! DEFINITION. The informational commands: PING (R152), GETINFO (R153), HEAPINFO (R159). -/

namespace Sys2Proof.Machine

/-- PING: `Ok(P)`, the echo verbatim (R152). -/
def execPing (data : Bytes) (s : State) : Host.Outcome State Fault Refusal :=
  .next (s.succeed .ping data)

/-- GETINFO's five fields (R85, R153), with `line` the effective cache-line size. -/
def infoBytes (s : State) : Bytes :=
  le32 s.cfg.protocolVersion ++ le32 s.maxPayload ++ le32 s.effectiveLine ++ le32 s.cfg.tableCapacity
    ++ le32 s.cfg.firmwareVersion

/-- GETINFO: "`line` is a fresh query"; the payload is ignored (R153). -/
def execGetInfo (_body : Bytes) (s : State) : Host.Outcome State Fault Refusal :=
  .next (s.queryLine.succeed .getInfo (infoBytes s))

/-- HEAPINFO's four counters, in the port's order (R85, R159). -/
def heapBytes (h : HeapCounters) : Bytes :=
  le32 h.free0 ++ le32 h.total0 ++ le32 h.free1 ++ le32 h.total1

/-- HEAPINFO: the payload is ignored (R159). -/
def execHeapInfo (_body : Bytes) (s : State) : Host.Outcome State Fault Refusal :=
  .next (s.callHeap.succeed .heapInfo (heapBytes s.heapAnswer))

end Sys2Proof.Machine
end

