-- ==== Sys2Proof/Machine/Tracker.lean ====
section
/-! DEFINITION. The four requests of the lookup engine (R130 to R134), each "one indivisible step of the engine worker". -/

namespace Sys2Proof.Machine

/-- TRACKER.ADD (R131). -/
def execTrackerAdd (a sz : Word) (s : State) : Host.Outcome State Fault Refusal :=
  .next (s.lookupAdd a sz)

/-- TRACKER.REMOVE (R132). -/
def execTrackerRemove (a : Word) (s : State) : Host.Outcome State Fault Refusal :=
  .next (s.lookupRemove a)

/-- TRACKER.CONTAINS (R133). -/
def execTrackerContains (a : Word) (s : State) : Host.Outcome State Fault Refusal :=
  .next (s.lookupContains a)

/-- TRACKER.VALIDATE (R134). -/
def execTrackerValidate (a sz : Word) (s : State) : Host.Outcome State Fault Refusal :=
  .next (s.lookupValidate a.toNat sz.toNat)

end Sys2Proof.Machine
end

