-- ==== Sys2Proof/Machine/Dispatch.lean ====
section
/-! DEFINITION. The dispatcher: one arm per instruction (R150, R93). -/

namespace Sys2Proof.Machine

/-- What an instruction does. -/
def exec (i : Instr) (s : State) : Host.Outcome State Fault Refusal :=
  match i with
  | .ping data => Sys2Proof.Machine.execPing data s
  | .getInfo body => Sys2Proof.Machine.execGetInfo body s
  | .alloc o => Sys2Proof.Machine.execAlloc o s
  | .free o => Sys2Proof.Machine.execFree o s
  | .writeMem o => Sys2Proof.Machine.execWriteMem o s
  | .readMem o => Sys2Proof.Machine.execReadMem o s
  | .exec o => Sys2Proof.Machine.execExec o s
  | .heapInfo body => Sys2Proof.Machine.execHeapInfo body s
  | .trackerAdd a sz => Sys2Proof.Machine.execTrackerAdd a sz s
  | .trackerRemove a => Sys2Proof.Machine.execTrackerRemove a s
  | .trackerContains a => Sys2Proof.Machine.execTrackerContains a s
  | .trackerValidate a sz => Sys2Proof.Machine.execTrackerValidate a sz s

end Sys2Proof.Machine
end

