-- ==== Sys2Proof/Machine/Start.lean ====
section
/-! DEFINITION. Engine start and power-on (R220 to R224). -/

namespace Sys2Proof.Machine

/-- Whether the next buffer allocation succeeds (R220). -/
def State.bufferAnswer (s : State) : Bool :=
  s.ans.buffers.headD (Config.freeBuffer s.draws)

/-- `bufAlloc(size, pool)` (R220). -/
def State.bufAlloc (s : State) (size : Word) (pool : Pool) : State :=
  s.transact { s.ans with buffers := s.ans.buffers.tail } (.bufAlloc size pool s.bufferAnswer)

/-- After `bufAlloc(size, LARGE_POOL) orElse bufAlloc(size, SMALL_POOL)` (R220). -/
def State.obtainBuffer (s : State) (size : Word) : State :=
  if s.bufferAnswer then s.bufAlloc size .large else (s.bufAlloc size .large).bufAlloc size .small

/-- Whether that obtains a buffer (R220). -/
def State.bufferObtained (s : State) (size : Word) : Bool :=
  s.bufferAnswer || (s.bufAlloc size .large).bufferAnswer

/-- A fresh buffer of `n` bytes: its contents are unspecified (R28, R29), so each byte is a free value. -/
def freshBuffer (draw n : Nat) : Bytes :=
  (List.range n).map (Config.freeBufferByte draw)

/-- The state after `STARTED` (R37, R220). -/
def State.started (s : State) : State :=
  { s with
    maxPayload := negotiatedMax s.cfg
    rxbuf := freshBuffer s.draws s.cfg.rxBufSize.toNat
    txbuf := freshBuffer (s.draws + 1) s.cfg.txBufSize.toNat
    draws := s.draws + 2
    table := List.replicate s.cfg.tableCapacity.toNat Slot.free
    q := []
    st := .sync1
    why := none
    run := .running
    startRes := .started }

/-- The state after `START_FAILED`: whichever buffer was obtained is released (R220, R222). -/
def State.startFailed (s : State) (rx tx : Bool) : State :=
  { s with
    run := .failed
    startRes := .startFailed
    log := s.log ++ (if rx then [.bufRelease s.cfg.rxBufSize] else []) ++ (if tx then [.bufRelease s.cfg.txBufSize] else []) }

/-- The start procedure from `IDLE` or `FAILED`, RX before TX (R220). -/
def State.boot (s : State) : State :=
  let t := s.obtainBuffer s.cfg.rxBufSize
  let u := t.obtainBuffer s.cfg.txBufSize
  let rx := s.bufferObtained s.cfg.rxBufSize
  let tx := t.bufferObtained s.cfg.txBufSize
  if rx && tx then u.started else u.startFailed rx tx

/-- `start()` (R220 to R223): rejected while running, impossible from `FAULTED`, refused under a configuration the model
does not accept. -/
def State.start (s : State) : Host.Outcome State Fault Refusal :=
  match s.run with
  | .running => .next { s with startRes := .alreadyRunning }
  | .faulted => .next { s with startRes := .notPossible }
  | .idle => if configOk s.cfg then .next s.boot else .refused .badConfiguration
  | .failed => if configOk s.cfg then .next s.boot else .refused .badConfiguration

/-- Power-on or external reset: `s.run <- IDLE`, all other block state discarded (R224). The configuration, the link, the
output stream and the model's own fields are not the block's; device memory holds what the platform leaves in it. -/
def State.powerOn (s : State) (stores : List (Word × Byte)) : State :=
  { State.reset with
    cfg := s.cfg
    mem := (s.storeCells (calleeCells stores)).mem
    past := (s.storeCells (calleeCells stores)).past
    dirty := (s.storeCells (calleeCells stores)).dirty
    link := s.link
    out := s.out
    turns := s.turns
    ans := s.ans
    draws := s.draws
    log := s.log
    ready := s.ready
    lead := s.lead }

end Sys2Proof.Machine
end

