-- ==== Sys2Proof/Machine/Enabled.lean ====
section
/-! DEFINITION. When a command's step is enabled: 'Every "blocking" call in the source becomes a step that is enabled only
when its port or queue can answer' (R12). -/

namespace Sys2Proof.Machine

/-- The port of ALLOC's next transaction (R154); none when the step ends in an error before it. -/
def allocPort (o : Form AllocFields) (s : State) : Option Port :=
  match o with
  | .short _ => none
  | .full f _ =>
    match s.phase with
    | .release _ => some .allocator
    | .fresh => if goodAlignment f.alignment then some .allocator else none
    | .written => if goodAlignment f.alignment then some .allocator else none
    | .lineKnown _ => if goodAlignment f.alignment then some .allocator else none

/-- The port of FREE's next transaction (R155): the Tracker's operations need none. -/
def freePort (o : Form FreeFields) (s : State) : Option Port :=
  match o with
  | .short _ => none
  | .full _ _ =>
    match s.phase with
    | .release _ => some .allocator
    | .fresh => none
    | .written => none
    | .lineKnown _ => none

/-- The port of WRITEMEM's next transaction (R156, R182). -/
def writePort (o : Form WriteFields) (s : State) : Option Port :=
  match o with
  | .short _ => none
  | .full f D =>
    match s.phase with
    | .fresh => if s.admits f.mflags f.address.toNat D.length then some .memory else none
    | .release _ => if s.admits f.mflags f.address.toNat D.length then some .memory else none
    | .written => some .cache
    | .lineKnown _ => some .cache

/-- The port of READMEM's transaction (R157). -/
def readPort (o : Form ReadFields) (s : State) : Option Port :=
  match o with
  | .short _ => none
  | .full f _ =>
    if s.maxPayload.toNat < f.size.toNat then none
    else if s.admits f.mflags f.address.toNat f.size.toNat then some .memory
    else none

/-- The port of EXEC's transaction, by address and flags byte (R158). -/
def callPort (a : Word) (mflags : Byte) (s : State) : Option Port :=
  if skipBounds mflags || s.entryOk a then some .exec else none

/-- The port of EXEC's transaction (R83, R158). -/
def execPort (o : ExecForm) (s : State) : Option Port :=
  match o with
  | .short _ => none
  | .bare a => callPort a 0 s
  | .flagged a mf _ => callPort a mf s

/-- The port of the transaction that the instruction's next step makes; none when that step makes no transaction. -/
def nextPort (i : Instr) (s : State) : Option Port :=
  match i with
  | .ping _ => none
  | .getInfo _ => some .cache
  | .alloc o => allocPort o s
  | .free o => freePort o s
  | .writeMem o => writePort o s
  | .readMem o => readPort o s
  | .exec o => execPort o s
  | .heapInfo _ => some .heap
  | .trackerAdd _ _ => none
  | .trackerRemove _ => none
  | .trackerContains _ => none
  | .trackerValidate _ _ => none

/-- Whether the instruction's next step is enabled: its port, if it needs one, can answer (R12). -/
def State.enables (s : State) (i : Instr) : Bool :=
  match nextPort i s with
  | some p => s.ready.on p
  | none => true

end Sys2Proof.Machine
end

