-- ==== Sys2Proof/Machine/Framer.lean ====
section
/-! DEFINITION. The framer and its resynchronisation state machine (R100 to R110), one definition per state. -/

namespace Sys2Proof.Machine

/-- What `s.acc` starts from on entry to `HDR` (R102). -/
def accInit (cfg : Config) : Half :=
  if cfg.csumCoversMagic then csum [cfg.magic0, cfg.magic1] else 0

/-- `(s.acc + b) mod 2^16` (R104, R106). -/
def accAdd (acc : Half) (b : Byte) : Half :=
  acc + b.setWidth 16

/-- `SYNC1` takes a byte (R101). -/
def State.takeSync1 (s : State) (b : Byte) : State :=
  { s with st := if b = s.cfg.magic0 then .sync2 else .sync1 }

/-- `SYNC2` takes a byte: the match of R102 is tested before the re-test of R103. -/
def State.takeSync2 (s : State) (b : Byte) : State :=
  if b = s.cfg.magic1 then { s with idx := 0, acc := accInit s.cfg, st := .hdr }
  else { s with st := if b = s.cfg.magic0 then .sync2 else .sync1 }

/-- The header is complete (R105). -/
def State.headerComplete (s : State) : State :=
  if s.maxPayload.toNat < s.hdr.len.toNat then { s with drain := s.hdr.len.toNat + 2, st := .drain }
  else if s.hdr.len = 0 then { s with idx := 0, st := .csum }
  else { s with idx := 0, st := .payload }

/-- `HDR` takes a byte (R104); R105 "takes effect in the same step". -/
def State.takeHeader (s : State) (b : Byte) : State :=
  let t := { s with hdr := s.hdr.set s.idx b, acc := accAdd s.acc b }
  if s.idx < 5 then { t with idx := s.idx + 1 } else t.headerComplete

/-- `PAYLOAD` takes a byte (R106). -/
def State.takePayload (s : State) (b : Byte) : State :=
  let t := { s with rxbuf := s.rxbuf.set s.idx b, acc := accAdd s.acc b }
  if s.idx + 1 = s.hdr.len.toNat then { t with idx := 0, st := .csum } else { t with idx := s.idx + 1 }

/-- `s.rcs[7:0] <- b` (R107). -/
def setLowByte (r : Half) (b : Byte) : Half :=
  half16 b (r.extractLsb' 8 8)

/-- `s.rcs[15:8] <- b` (R108). -/
def setHighByte (r : Half) (b : Byte) : Half :=
  half16 (r.extractLsb' 0 8) b

/-- `CSUM` takes a byte: the low byte first (R107), then the high byte (R108). -/
def State.takeCsum (s : State) (b : Byte) : State :=
  if s.idx = 0 then { s with rcs := setLowByte s.rcs b, idx := 1 }
  else { s with rcs := setHighByte s.rcs b, st := .verify }

/-- `DRAIN` discards a byte (R109). -/
def State.takeDrain (s : State) : State :=
  { s with drain := s.drain - 1, st := if s.drain - 1 = 0 then .sync1 else .drain }

/-- `VERIFY` compares all 16 bits (R110). -/
def State.verifySum (s : State) : State :=
  if s.acc = s.rcs then { s with st := .dispatch } else s.reportError s.hdr.cmd .checksum

/-- An unknown command: `Err(ERR_UNKNOWN_CMD)`, the payload not examined (R151). -/
def State.unknownCommand (s : State) : State :=
  s.reportError s.hdr.cmd .unknownCmd

/-- Whether a framer state consumes one byte per step (R21, R100). -/
def FramerState.consumes : FramerState → Bool
  | .sync1 => true
  | .sync2 => true
  | .hdr => true
  | .payload => true
  | .csum => true
  | .drain => true
  | .verify => false
  | .dispatch => false
  | .respond => false

/-- A byte-consuming step with the byte that `RxPop()` gave (R100 to R109). -/
def State.takeByte (s : State) (b : Byte) : State :=
  match s.st with
  | .sync1 => s.takeSync1 b
  | .sync2 => s.takeSync2 b
  | .hdr => s.takeHeader b
  | .payload => s.takePayload b
  | .csum => s.takeCsum b
  | .drain => s.takeDrain
  | .verify => s
  | .dispatch => s
  | .respond => s

end Sys2Proof.Machine
end

