-- ==== Sys2Proof/Machine/Transport.lean ====
section
/-! DEFINITION. The agents around the worker: the producer and its bounded queue (R31), the host at the two ends of the
link (R204), when the worker has a step, and which agent moves when no move is given (R199, R231). -/

namespace Sys2Proof.Machine

/-- Whether the input queue can take a byte (R31). Before a start there is no queue (R37). -/
def State.queueRoom (s : State) : Bool :=
  (s.run == .running || s.run == .faulted) && decide (s.q.length < s.cfg.rxFifoDepth)

/-- Whether the producer drops the byte it offers to a full queue (R31). -/
def State.dropAnswer (s : State) : Bool :=
  s.ans.drops.headD (Config.freeDrop s.draws)

/-- The producer offers the next byte of the link: with room it is always appended; else it is dropped, or stays to be
appended later, "a free draw of the model" (R31). -/
def State.produce (s : State) : State :=
  match s.link with
  | [] => s
  | b :: rest =>
    if s.queueRoom then { s with q := s.q ++ [b], link := rest }
    else
      { s with
        link := if s.dropAnswer then rest else b :: rest
        ans := { s.ans with drops := s.ans.drops.tail }
        draws := s.draws + 1 }

/-- The host writes a byte on the link (R204). -/
def State.hostSends (s : State) (b : Byte) : State :=
  { s with link := s.link ++ [b] }

/-- The host reads a byte of the output stream (R204). -/
def State.hostReads (s : State) : State :=
  { s with out := s.out.tail }

/-- A port becomes able to answer, or unable (R12). -/
def State.setReady (s : State) (p : Port) (b : Bool) : State :=
  { s with ready := s.ready.set p b }

/-- Whether the framer has a step: a byte is there for a byte-consuming state, and the command in `DISPATCH` does not wait
for a port (R12, R100). -/
def State.framerReady (s : State) : Bool :=
  match s.st with
  | .verify => true
  | .respond => true
  | .dispatch =>
    match decodeCommand s.cfg.cmdIds s.hdr.cmd s.payload with
    | .ok i => s.enables i
    | .error _ => true
  | .sync1 | .sync2 | .hdr | .payload | .csum | .drain => !s.q.isEmpty

/-- Whether the worker has a step: it is running, not faulted, not inside a callee that never returns, and it has a request
of the lookup engine to serve or the framer has a step (R100, R201). -/
def State.workerReady (s : State) : Bool :=
  s.run == .running && s.why.isNone && s.hung.isNone && (s.treq.isSome || s.framerReady)

/-- The move when `turns` gives none: the only agent that can move; or, when the producer and the worker both can, the
producer for as many moves as `lead` says, then the worker, "in any order" (R199) and each "eventually" (R231). -/
def State.nextTurn (s : State) : Turn × State :=
  if s.link.isEmpty then (.worker, s)
  else if s.workerReady then
    match s.lead with
    | 0 => (.worker, { s with lead := Config.freeLead s.draws, draws := s.draws + 1 })
    | n + 1 => (.producer, { s with lead := n })
  else (.producer, s)

end Sys2Proof.Machine
end

