-- ==== Sys2Proof/Machine/Worker.lean ====
section
/-! DEFINITION. The engine worker's step (R62, R100), the other agents' moves, and where an instruction is placed for the
worker to fetch. -/

namespace Sys2Proof.Machine

/-- `DISPATCH`: the command that the header latch and the payload are, or the report of an unknown one (R111, R150, R151). A
command whose port cannot answer waits (R12). -/
def State.dispatch (s : State) : Host.Outcome State Fault Refusal :=
  match decodeCommand s.cfg.cmdIds s.hdr.cmd s.payload with
  | .ok i => if s.enables i then exec i s else .next s
  | .error _ => .next s.unknownCommand

/-- The framer's step: one byte, or one internal action (R12, R100). With the queue empty a consuming state waits. -/
def State.framerStep (s : State) : Host.Outcome State Fault Refusal :=
  match s.st with
  | .verify => .next s.verifySum
  | .dispatch => s.dispatch
  | .respond => .next s.finishResponse
  | .sync1 | .sync2 | .hdr | .payload | .csum | .drain =>
    match s.q with
    | [] => .next s
    | b :: rest => .next ({ s with q := rest }.takeByte b)

/-- The worker's step. A set fault mark stops it (R200); a block that is not running, or that is inside a callee that never
returns, waits (R100, R201); a request at the lookup engine's port is served in one step (R130); else the framer steps. -/
def State.workerStep (s : State) : Host.Outcome State Fault Refusal :=
  match s.why with
  | some f => .fault (.memFault f.addr f.dir)
  | none =>
    if s.run = .running ∧ s.hung = none then
      match s.treq with
      | some r => exec (decodeRequest r) { s with treq := none }
      | none => s.framerStep
    else .next s

/-- The move of one agent (R199, R204). -/
def State.move (s : State) : Turn → Host.Outcome State Fault Refusal
  | .worker => s.workerStep
  | .producer => .next s.produce
  | .hostSend b => .next (s.hostSends b)
  | .hostRecv => .next s.hostReads
  | .start => s.start
  | .port p b => .next (s.setReady p b)
  | .powerOn stores => .next (s.powerOn stores)

/-- The block running and free to fetch, with every port ready: as it is when it runs already, else as a successful start
leaves it but for the buffers' contents. -/
def State.readyToFetch (s : State) : State :=
  { s with
    run := .running
    why := none
    hung := none
    phase := .fresh
    ready := .all
    treq := none
    turns := []
    link := []
    maxPayload := if s.run = .running then s.maxPayload else negotiatedMax s.cfg
    table := if s.run = .running then s.table else List.replicate s.cfg.tableCapacity.toNat Slot.free }

/-- A command placed where the dispatcher fetches it: the header latch and the receive buffer, in `DISPATCH` (R28, R111). -/
def State.placePacket (s : State) (c f : Byte) (P : Bytes) : State :=
  { s.readyToFetch with
    st := .dispatch
    hdr := Header.mk' c f (BitVec.ofNat 32 P.length)
    rxbuf := P ++ s.rxbuf.drop P.length }

/-- A request placed at the lookup engine's port (R93). -/
def State.placeRequest (s : State) (r : TrackerRequest) : State :=
  { s.readyToFetch with treq := some r }

/-- An encoded instruction placed where the worker's next step fetches it. -/
def State.place (s : State) : Encoded → State
  | .packet c f P => s.placePacket c f P
  | .request r => s.placeRequest r

end Sys2Proof.Machine
end

