-- ==== Sys2Proof/Machine/Step.lean ====
section
/-! DEFINITION. One step of the machine: the next agent's move (R12, R199), and an instruction placed for that step. -/

namespace Sys2Proof.Machine

/-- One step: exactly one agent acts (R199), the one `turns` names next, else the one `nextTurn` picks. -/
def step (s : State) : Host.Outcome State Fault Refusal :=
  match s.turns with
  | t :: ts => { s with turns := ts }.move t
  | [] => s.nextTurn.2.move s.nextTurn.1

/-- `k` steps, up to the first fault or refusal. -/
def runFor : Nat → State → Host.Outcome State Fault Refusal
  | 0, s => .next s
  | k + 1, s =>
    match step s with
    | .next t => runFor k t
    | .fault f => .fault f
    | .refused r => .refused r

/-- The state with an instruction of the opcode table stored where the next step fetches it. -/
def State.withFetchWord (s : State) (nbits w : Nat) : State :=
  s.place (tableWord nbits w)

end Sys2Proof.Machine
end

