-- ==== Sys2Proof/Safety.lean ====
section
/-! DEFINITION. What the claims are stated in: the invariants of the block, the quiescent point (R117), and the view of a
state that leaves out every register R37 calls unspecified until it is written (R38). -/

namespace Sys2Proof.Machine

/-- An engine that has been started has buffers, a table and a negotiated maximum (R28 to R30, R223). -/
structure State.Built (s : State) : Prop where
  config   : configOk s.cfg = true
  maximum  : s.maxPayload = negotiatedMax s.cfg
  receive  : s.rxbuf.length = s.cfg.rxBufSize.toNat
  transmit : s.txbuf.length = s.cfg.txBufSize.toNat
  slots    : s.table.length = s.cfg.tableCapacity.toNat

/-- A slot the table may hold: "no in-use slot has `addr = 0`" (R136), and a free slot is `{0, 0, false}` (R30, R132). -/
abbrev Slot.legal (t : Slot) : Prop :=
  if t.used then t.addr ≠ 0 else t = Slot.free

/-- The bounds on the framer's registers in each of its states (R21, R22, R26, R27, R33). -/
def State.FramerBounds (s : State) : Prop :=
  match s.st with
  | .sync1 => True
  | .sync2 => True
  | .hdr => s.idx ≤ 5
  | .payload => s.idx < s.hdr.len.toNat ∧ s.hdr.len.toNat ≤ s.maxPayload.toNat
  | .csum => s.idx ≤ 1 ∧ s.hdr.len.toNat ≤ s.maxPayload.toNat
  | .drain => 0 < s.drain ∧ s.drain ≤ max32 + 2
  | .verify => s.hdr.len.toNat ≤ s.maxPayload.toNat
  | .dispatch => s.hdr.len.toNat ≤ s.maxPayload.toNat
  | .respond => s.tlen ≤ s.maxPayload.toNat ∧ (s.tflags = flagsOk ∨ s.tflags = flagsError)

/-- A command between two of its port transactions keeps a running block in `DISPATCH`, and is the command whose transactions
those are (R12, R154 to R156); the line size it has learnt is at least 1 (R180). -/
def State.ProgressOk (s : State) : Prop :=
  match s.phase with
  | .fresh => True
  | .release _ => s.run = .running ∧ s.st = .dispatch ∧
      (s.hdr.cmd = s.cfg.cmdIds.alloc ∨ s.hdr.cmd = s.cfg.cmdIds.free)
  | .written => s.run = .running ∧ s.st = .dispatch ∧ s.hdr.cmd = s.cfg.cmdIds.writeMem
  | .lineKnown S => s.run = .running ∧ s.st = .dispatch ∧ s.hdr.cmd = s.cfg.cmdIds.writeMem ∧ 1 ≤ S.toNat

/-- The invariant of the block. -/
structure State.Inv (s : State) : Prop where
  /-- Device memory is in its canonical form, within the 32-bit space (R50). -/
  memory   : s.mem.wf
  /-- The older contents are in their canonical form. -/
  older    : pastWf s.past
  /-- The addresses not synchronised are in their canonical form. -/
  unsynced : dirtyWf s.dirty
  /-- `s.run` is `FAULTED` exactly when the fault mark is set (R32, R35). -/
  mark     : s.run = .faulted ↔ s.why.isSome = true
  /-- The input queue never holds more than `RX_FIFO_DEPTH` bytes (R31). -/
  queue    : s.q.length ≤ s.cfg.rxFifoDepth
  /-- A started engine is built (R37). -/
  built    : s.run = .running ∨ s.run = .faulted → s.Built
  /-- An engine that is not started has its framer at rest. -/
  atRest   : s.run = .idle ∨ s.run = .failed → s.st = .sync1
  /-- Every slot is legal (R30, R136). -/
  slots    : ∀ t ∈ s.table, t.legal
  /-- A request to add at the lookup engine's port never names address 0 (R60, R136). -/
  request  : ∀ r, s.treq = some r → r.op = 0b00#2 → r.a ≠ 0
  /-- The framer's registers are in their bounds. -/
  framer   : s.FramerBounds
  /-- A callee that never returns keeps a running block in `DISPATCH` (R201). -/
  inCallee : s.hung.isSome = true → s.run = .running ∧ s.st = .dispatch
  /-- A command in progress is in `DISPATCH` (R12). -/
  progress : s.ProgressOk

/-- The header and payload bytes that the framer has taken into the sum so far (R24, R113). -/
def State.summed (s : State) : Bytes :=
  match s.st with
  | .hdr => s.hdr.toBytes.take s.idx
  | .payload => s.hdr.toBytes ++ s.rxbuf.take s.idx
  | .csum => s.hdr.toBytes ++ s.payload
  | .verify => s.hdr.toBytes ++ s.payload
  | .dispatch => s.hdr.toBytes ++ s.payload
  | .sync1 => []
  | .sync2 => []
  | .drain => []
  | .respond => []

/-- The accumulator is the sum of the covered bytes received so far (R24, R102, R113), and in `DISPATCH` it equals the
received checksum (R110). -/
def State.SumRight (s : State) : Prop :=
  match s.st with
  | .hdr => s.acc = csum (coveredBytes s.cfg s.summed)
  | .payload => s.acc = csum (coveredBytes s.cfg s.summed)
  | .csum => s.acc = csum (coveredBytes s.cfg s.summed)
  | .verify => s.acc = csum (coveredBytes s.cfg s.summed)
  | .dispatch => s.acc = csum (coveredBytes s.cfg s.summed) ∧ s.rcs = s.acc
  | .sync1 => True
  | .sync2 => True
  | .drain => True
  | .respond => True

/-- Whether a move brings a byte for the producer to deliver (R204). -/
def Turn.sends : Turn → Bool
  | .hostSend _ => true
  | .worker => false
  | .producer => false
  | .hostRecv => false
  | .start => false
  | .port _ _ => false
  | .powerOn _ => false

/-- The quiescent point of R117: no further byte to deliver, on the link or in a move to come, an empty queue, a
byte-consuming state. -/
def State.quiescent (s : State) : Bool :=
  s.link.isEmpty && !s.turns.any Turn.sends && s.q.isEmpty && s.st.consumes

/-- The framer is free to step (R100): the block runs, no fault is marked, no callee hangs, and no request stands at the
lookup engine's port. -/
structure State.Awake (s : State) : Prop where
  running : s.run = .running
  clear   : s.why = none
  free    : s.hung = none
  request : s.treq = none

/-- The worker moves next: no other move is given and no byte is on the link. -/
structure State.Alone (s : State) : Prop where
  turns : s.turns = []
  link  : s.link = []

/-- `k` steps of one command, one after another with no other agent's move between them. -/
def execFor : Nat → Instr → State → Host.Outcome State Fault Refusal
  | 0, _, s => .next s
  | k + 1, i, s =>
    match exec i s with
    | .next t => execFor k i t
    | .fault f => .fault f
    | .refused r => .refused r

/-- "nonzero power of two", as a number (R154). -/
def IsPowerOfTwo (v : Word) : Prop :=
  ∃ k, v.toNat = 2 ^ k

/-- A range that the Tracker accepts: it ends within `MAX32` and lies within one entry in use whose own range does not
overflow (R134). -/
def Tracked (T : List Slot) (a n : Nat) : Prop :=
  a + n ≤ max32 ∧ ∃ t ∈ T, t.used = true ∧ t.addr.toNat + t.size.toNat ≤ max32 ∧ t.addr.toNat ≤ a ∧
    a + n ≤ t.addr.toNat + t.size.toNat

/-- A start address that the Tracker holds (R133). -/
def TrackedStart (T : List Slot) (a : Word) : Prop :=
  ∃ t ∈ T, t.used = true ∧ t.addr = a

/-- The number of slots in use (R136). -/
def usedSlots (T : List Slot) : Nat :=
  T.countP Slot.used

/-! ## The specified part of a state (R37, R38) -/

/-- The latch with every byte from index `i` on blanked. -/
def Header.upTo (h : Header) (i : Nat) : Header where
  cmd   := if 0 < i then h.cmd else 0
  flags := if 1 < i then h.flags else 0
  len0  := if 2 < i then h.len0 else 0
  len1  := if 3 < i then h.len1 else 0
  len2  := if 4 < i then h.len2 else 0
  len3  := if 5 < i then h.len3 else 0

/-- A buffer with every byte from index `n` on blanked. -/
def blankFrom (n : Nat) (l : Bytes) : Bytes :=
  l.take n ++ List.replicate (l.length - n) 0

/-- The state with the framer's registers, the response register and both buffers blanked. -/
def State.unwritten (s : State) : State :=
  { s with
    idx := 0
    hdr := ⟨0, 0, 0, 0, 0, 0⟩
    acc := 0
    rcs := 0
    drain := 0
    tcmd := 0
    tflags := 0
    tlen := 0
    rxbuf := blankFrom 0 s.rxbuf
    txbuf := blankFrom 0 s.txbuf }

/-- The specified part of a state: a register that R37 leaves unspecified is kept only in the framer states in which a
rule has written it and a later step may read it; elsewhere it is blanked. -/
def State.specified (s : State) : State :=
  match s.st with
  | .sync1 => s.unwritten
  | .sync2 => s.unwritten
  | .hdr => { s.unwritten with idx := s.idx, acc := s.acc, hdr := s.hdr.upTo s.idx }
  | .payload =>
    { s.unwritten with idx := s.idx, acc := s.acc, hdr := s.hdr, rxbuf := blankFrom s.idx s.rxbuf }
  | .csum =>
    { s.unwritten with
      idx := s.idx
      acc := s.acc
      hdr := s.hdr
      rcs := if s.idx = 0 then 0 else half16 (s.rcs.extractLsb' 0 8) 0
      rxbuf := blankFrom s.hdr.len.toNat s.rxbuf }
  | .verify =>
    { s.unwritten with
      acc := s.acc
      hdr := s.hdr
      rcs := s.rcs
      rxbuf := blankFrom s.hdr.len.toNat s.rxbuf }
  | .dispatch => { s.unwritten with hdr := s.hdr, rxbuf := blankFrom s.hdr.len.toNat s.rxbuf }
  | .respond =>
    { s.unwritten with
      tcmd := s.tcmd
      tflags := s.tflags
      tlen := s.tlen
      txbuf := blankFrom s.tlen s.txbuf }
  | .drain => { s.unwritten with drain := s.drain }

/-- Two outcomes that cannot be told apart by their specified parts. -/
def sameOutcome : Host.Outcome State Fault Refusal → Host.Outcome State Fault Refusal → Prop
  | .next a, .next b => a.specified = b.specified
  | .fault a, .fault b => a = b
  | .refused a, .refused b => a = b
  | .next _, .fault _ => False
  | .next _, .refused _ => False
  | .fault _, .next _ => False
  | .fault _, .refused _ => False
  | .refused _, .next _ => False
  | .refused _, .fault _ => False

end Sys2Proof.Machine
end

