-- ==== Sys2Proof/Certificates/Slice0/Obligations.lean ====
section
/-! DEFINITION. The statements for the provers, in the order of the spec's files. -/

open Sys2Proof Sys2Proof.Machine

/-! ## Reset, start and power-on -/

/-- The state after power-on meets the invariants that every step keeps. The values it gives the registers that R37 leaves
unspecified are the model's (log entry 3). -/
def Obligations.ResetMeetsTheInvariants : Prop :=
  State.reset.Inv ∧ State.reset.SumRight ∧ State.reset.run = .idle ∧ State.reset.why = none

/-- Every step keeps the block's invariant: memory canonical, the queue within its depth, the fault mark and `s.run` in
agreement, the table of its size with legal slots, every framer register within its bounds. -/
def Obligations.StepKeepsTheInvariant : Prop :=
  ∀ s t : State, s.Inv → step s = .next t → t.Inv

/-- Every step keeps the accumulator equal to the sum of the covered bytes received so far, and what reaches `DISPATCH`
has a received checksum equal to that sum. -/
def Obligations.StepKeepsTheSumRight : Prop :=
  ∀ s t : State, s.Inv → s.SumRight → step s = .next t → t.SumRight

/-- Every register that R37 leaves unspecified is written before it is read: two states that agree but for such registers
make the same step, in what they stop with, in what they emit and in every specified register. -/
def Obligations.UnspecifiedRegistersAreNeverRead : Prop :=
  ∀ s t : State, s.specified = t.specified → sameOutcome (step s) (step t)

/-- The start procedure. From `IDLE` or `FAILED`: RX before TX, each from the large pool or else the small one; with both, the
block is running with its buffers, table and queue as R37 says, while the framer's and the response's registers, which R37
leaves unspecified, keep what they held (log entry 3); without, whichever was obtained is released and the status is `FAILED`,
in which the worker only waits. While running it changes no state of the block, and from `FAULTED` none either. The model's own
choices: the answers of a call (log entry 2), waiting as a step that changes nothing (log entry 5), what a start answers from
`FAULTED` (log entries 7 and 20), two draws for the buffers' contents and one `bufAlloc` after another in one step (log entries
16 and 18). -/
def Obligations.StartProcedure : Prop :=
  ∀ s : State, configOk s.cfg = true →
    (s.run = .idle ∨ s.run = .failed →
      let r := s.obtainBuffer s.cfg.rxBufSize
      let u := r.obtainBuffer s.cfg.txBufSize
      (s.bufferObtained s.cfg.rxBufSize = true → r.bufferObtained s.cfg.txBufSize = true →
        ∃ rx tx : Bytes, rx.length = s.cfg.rxBufSize.toNat ∧ tx.length = s.cfg.txBufSize.toNat ∧
          s.start = .next { u with
            maxPayload := negotiatedMax s.cfg, rxbuf := rx, txbuf := tx, draws := u.draws + 2,
            table := List.replicate s.cfg.tableCapacity.toNat ⟨0, 0, false⟩,
            q := [], st := .sync1, why := none, run := .running, startRes := .started }) ∧
      (¬(s.bufferObtained s.cfg.rxBufSize = true ∧ r.bufferObtained s.cfg.txBufSize = true) →
        s.start = .next { u with
          run := .failed, startRes := .startFailed,
          log := u.log
            ++ (if s.bufferObtained s.cfg.rxBufSize then [.bufRelease s.cfg.rxBufSize] else [])
            ++ (if r.bufferObtained s.cfg.txBufSize then [.bufRelease s.cfg.txBufSize] else []) })) ∧
    (∀ w : Word, s.obtainBuffer w =
      if s.bufferAnswer then { s with
          ans := { s.ans with buffers := s.ans.buffers.tail }, draws := s.draws + 1
          log := s.log ++ [.bufAlloc w .large true] }
      else { s with
          ans := { s.ans with buffers := s.ans.buffers.tail.tail }, draws := s.draws + 2
          log := s.log ++ [.bufAlloc w .large false, .bufAlloc w .small (s.bufferObtained w)] }) ∧
    (s.run = .failed → s.why = none → s.workerStep = .next s) ∧
    (s.run = .running → s.start = .next { s with startRes := .alreadyRunning }) ∧
    (s.run = .faulted → s.start = .next { s with startRes := .notPossible })

/-- The negotiated maximum is the least of the three sizes, is fixed by a start, does not change while the engine runs, and
a configuration that makes it less than 20 is refused. -/
def Obligations.NegotiatedMaximumIsFixed : Prop :=
  (∀ s t : State, (s.run = .idle ∨ s.run = .failed) → s.start = .next t → t.run = .running →
      t.maxPayload.toNat =
        min (min s.cfg.rxBufSize.toNat s.cfg.txBufSize.toNat) s.cfg.transportLimit.toNat ∧
      20 ≤ t.maxPayload.toNat) ∧
  (∀ s t : State, s.run = .running → step s = .next t → t.run = .running → t.maxPayload = s.maxPayload) ∧
  (∀ s : State, (s.run = .idle ∨ s.run = .failed) →
      min (min s.cfg.rxBufSize.toNat s.cfg.txBufSize.toNat) s.cfg.transportLimit.toNat < 20 →
      s.start = .refused .badConfiguration)

/-- Power-on from any state, a hung or faulted one or one within a command too: the status is `IDLE`, the mark clear, and every
register of the block is as after reset, at the model's values where R37 gives none (log entries 3 and 14); the next
successful start has an empty table. -/
def Obligations.PowerOnDiscardsTheBlock : Prop :=
  ∀ (s : State) (stores : List (Word × Byte)),
    ∃ t, s.move (.powerOn stores) = .next t ∧
      t.run = .idle ∧ t.why = none ∧ t.hung = none ∧ t.phase = .fresh ∧ t.table = [] ∧ t.q = [] ∧ t.treq = none ∧
      t = { State.reset with
            cfg := s.cfg, mem := t.mem, past := t.past, dirty := t.dirty, link := s.link, out := s.out
            turns := s.turns, ans := s.ans, draws := s.draws, log := s.log, ready := s.ready, lead := s.lead } ∧
      ∀ u, t.start = .next u → u.run = .running →
        usedSlots u.table = 0 ∧ u.table.length = s.cfg.tableCapacity.toNat

/-! ## Agents, queue and configuration -/

/-- A step is the move of one agent: the next one that `turns` names; with none named and no byte on the link, the worker;
with a byte on the link, the producer, or the worker where both can move. Once no move is named, a worker with an enabled
step takes it, after a number of the producer's moves that is fixed beforehand, and a producer with a byte offers it, after
steps of the worker only. How a move is picked is the model's (log entry 5). -/
def Obligations.StepIsOneAgentsMove : Prop :=
  (∀ (s : State) (m : Turn) (ms : List Turn), s.turns = m :: ms → step s = { s with turns := ms }.move m) ∧
  (∀ s : State, s.Alone → step s = s.workerStep) ∧
  (∀ s : State, s.turns = [] → s.link ≠ [] → s.workerReady = false → step s = .next s.produce) ∧
  (∀ s : State, s.turns = [] → s.link ≠ [] → s.workerReady = true →
      (∃ n, s.lead = n + 1 ∧ step s = .next { s with lead := n }.produce) ∨
      (s.lead = 0 ∧ ∃ n, step s = { s with lead := n, draws := s.draws + 1 }.workerStep)) ∧
  (∀ s : State, s.turns = [] → s.workerReady = true →
      ∃ k u, k ≤ s.lead ∧ runFor k s = .next u ∧ u.workerReady = true ∧
        u = { s with q := u.q, link := u.link, ans := u.ans, draws := u.draws, lead := u.lead } ∧
        ∃ n d, step u = { u with lead := n, draws := d }.workerStep) ∧
  (∀ s : State, s.turns = [] → s.link ≠ [] →
      ∃ k u, runFor k s = .next u ∧ u.link = s.link ∧ ∃ n, step u = .next { u with lead := n }.produce)

/-- No step writes the configuration, whatever the agent and whatever the instruction. -/
def Obligations.ConfigurationIsReadOnly : Prop :=
  ∀ s t : State, step s = .next t → t.cfg = s.cfg

/-- The input queue is a FIFO: the producer appends the link's next byte when there is room; with the queue full, or before a
start, when there is no queue (log entry 12), it drops the byte or keeps it for later as the draw says; every step leaves
the queue alone, appends the link's first byte, takes its oldest byte, or (a start, a power-on) empties it. -/
def Obligations.InputQueueIsAFifo : Prop :=
  (∀ (s : State) (b : Byte) (rest : Bytes), s.link = b :: rest →
      (s.run = .running ∨ s.run = .faulted) → s.q.length < s.cfg.rxFifoDepth →
      s.produce = { s with q := s.q ++ [b], link := rest }) ∧
  (∀ (s : State) (b : Byte) (rest : Bytes), s.link = b :: rest →
      (s.cfg.rxFifoDepth ≤ s.q.length ∨ s.run = .idle ∨ s.run = .failed) →
      s.produce = { s with
        link := if s.dropAnswer then rest else b :: rest
        ans := { s.ans with drops := s.ans.drops.tail }
        draws := s.draws + 1 }) ∧
  (∀ s t : State, step s = .next t →
      t.q = s.q ∨ (∃ b, s.link = b :: t.link ∧ t.q = s.q ++ [b]) ∨ (∃ b, s.q = b :: t.q) ∨
      (t.q = [] ∧ ∃ ts, s.turns = .start :: ts ∨ ∃ w, s.turns = .powerOn w :: ts))

/-- A response is emitted only from `RESPOND`, whole and once, and the framer is then in `SYNC1`; nothing but the host's
reading takes a byte from the output stream. -/
def Obligations.OnlyRespondEmits : Prop :=
  ∀ s t : State, step s = .next t → t.out ≠ s.out →
    (s.st = .respond ∧ t.st = .sync1 ∧ t.out = s.out ++ packetBytes s.cfg s.tcmd s.tflags s.tpay) ∨
    (∃ ts, s.turns = .hostRecv :: ts ∧ t.out = s.out.tail)

/-! ## The framer -/

/-- The framer has a step only while the block runs with the mark clear; a byte-consuming state takes exactly one byte, and
waits with the queue empty; `VERIFY`, `DISPATCH` and `RESPOND` take none. No state has a timeout: waiting
is a step that changes nothing (log entry 5), a command that waits for a port too (log entry 18), and with the mark set the
worker's step is a fault (log entry 7). -/
def Obligations.FramerStepsByBytes : Prop :=
  (∀ s : State, s.why = none → s.run ≠ .running → s.workerStep = .next s) ∧
  (∀ s : State, s.why ≠ none → ∀ t, s.workerStep ≠ .next t) ∧
  (∀ s : State, s.Awake → s.st.consumes = true → s.q = [] → s.workerStep = .next s) ∧
  (∀ (s : State) (b : Byte) (rest : Bytes), s.Awake → s.st.consumes = true → s.q = b :: rest →
      ∃ t, s.workerStep = .next t ∧ t.q = rest) ∧
  (∀ s : State, s.Awake → s.st.consumes = false → ∃ t, s.workerStep = .next t ∧ t.q = s.q)

/-- `SYNC1` looks for the first magic byte and discards every other byte. -/
def Obligations.Sync1HuntsForMagic : Prop :=
  ∀ (s : State) (b : Byte) (rest : Bytes), s.Awake → s.st = .sync1 → s.q = b :: rest →
    s.workerStep = .next { s with q := rest, st := if b = s.cfg.magic0 then .sync2 else .sync1 }

/-- `SYNC2` with the second magic byte opens a header: index 0, and the accumulator at 0, or at the sum of the magic bytes
when the checksum covers them. The match is tested first, so it holds with equal magic bytes too. Another byte is tested
as a first magic byte, in the same step. -/
def Obligations.Sync2MatchesOrRetests : Prop :=
  ∀ (s : State) (b : Byte) (rest : Bytes), s.Awake → s.st = .sync2 → s.q = b :: rest →
    (b = s.cfg.magic1 → s.workerStep = .next { s with
      q := rest, idx := 0, st := .hdr
      acc := if s.cfg.csumCoversMagic then
          BitVec.ofNat 16 (s.cfg.magic0.toNat + s.cfg.magic1.toNat) else 0 }) ∧
    (b ≠ s.cfg.magic1 →
      s.workerStep = .next { s with q := rest, st := if b = s.cfg.magic0 then .sync2 else .sync1 })

/-- `HDR` latches one byte and adds it to the sum; the sixth byte completes the header in the same step: an oversized length
goes to `DRAIN` with length + 2 bytes to discard, a zero length to `CSUM`, any other to `PAYLOAD`. -/
def Obligations.HeaderIsSixBytes : Prop :=
  ∀ (s : State) (b : Byte) (rest : Bytes), s.Awake → s.st = .hdr → s.q = b :: rest → s.idx ≤ 5 →
    let h := s.hdr.set s.idx b
    let t := { s with q := rest, hdr := h, acc := s.acc + b.setWidth 16 }
    h.toBytes = s.hdr.toBytes.set s.idx b ∧
    (s.idx < 5 → s.workerStep = .next { t with idx := s.idx + 1 }) ∧
    (s.idx = 5 → s.maxPayload.toNat < h.len.toNat →
      s.workerStep = .next { t with drain := h.len.toNat + 2, st := .drain }) ∧
    (s.idx = 5 → h.len.toNat ≤ s.maxPayload.toNat → h.len.toNat = 0 →
      s.workerStep = .next { t with idx := 0, st := .csum }) ∧
    (s.idx = 5 → h.len.toNat ≤ s.maxPayload.toNat → h.len.toNat ≠ 0 →
      s.workerStep = .next { t with idx := 0, st := .payload })

/-- `PAYLOAD` stores one byte at the index, adds it to the sum and goes to `CSUM` after the last. -/
def Obligations.PayloadByteIsStored : Prop :=
  ∀ (s : State) (b : Byte) (rest : Bytes), s.Awake → s.st = .payload → s.q = b :: rest →
    let t := { s with q := rest, rxbuf := s.rxbuf.set s.idx b, acc := s.acc + b.setWidth 16 }
    (s.idx + 1 = s.hdr.len.toNat → s.workerStep = .next { t with idx := 0, st := .csum }) ∧
    (s.idx + 1 ≠ s.hdr.len.toNat → s.workerStep = .next { t with idx := s.idx + 1 })

/-- `CSUM` takes the low byte and then the high byte of the received checksum, and adds neither to the sum. -/
def Obligations.ChecksumFieldIsLittleEndian : Prop :=
  (∀ (s : State) (b : Byte) (rest : Bytes), s.Awake → s.st = .csum → s.idx = 0 → s.q = b :: rest →
    ∃ r : Half, s.workerStep = .next { s with q := rest, rcs := r, idx := 1 } ∧
      r.extractLsb' 0 8 = b ∧ r.extractLsb' 8 8 = s.rcs.extractLsb' 8 8) ∧
  (∀ (s : State) (b : Byte) (rest : Bytes), s.Awake → s.st = .csum → s.idx = 1 → s.q = b :: rest →
    ∃ r : Half, s.workerStep = .next { s with q := rest, rcs := r, st := .verify } ∧
      r.extractLsb' 8 8 = b ∧ r.extractLsb' 0 8 = s.rcs.extractLsb' 0 8)

/-- `DRAIN` discards one byte and counts down; at zero the framer is back in `SYNC1`, with nothing emitted. -/
def Obligations.DrainCountsDown : Prop :=
  ∀ (s : State) (b : Byte) (rest : Bytes), s.Awake → s.st = .drain → s.q = b :: rest → 0 < s.drain →
    (s.drain = 1 → s.workerStep = .next { s with q := rest, drain := 0, st := .sync1 }) ∧
    (1 < s.drain → s.workerStep = .next { s with q := rest, drain := s.drain - 1 })

/-- `VERIFY` compares all 16 bits: equal sums go to `DISPATCH`; a mismatch is reported with the received command id, whatever
that id is, and the dispatcher is not invoked. -/
def Obligations.VerifyComparesTheSums : Prop :=
  ∀ s : State, s.Awake → s.st = .verify →
    (s.acc = s.rcs → s.workerStep = .next { s with st := .dispatch }) ∧
    (s.acc ≠ s.rcs →
      ∃ t, s.workerStep = .next t ∧ t.tcmd = s.hdr.cmd ∧ t.tflags = 0x01 ∧ t.tpay = le32 s.cfg.errCodes.checksum ∧
        t = { s with
              tcmd := s.hdr.cmd, tflags := 0x01, tlen := 4, st := .respond, phase := .fresh
              txbuf := le32 s.cfg.errCodes.checksum ++ s.txbuf.drop 4 })

/-- `RESPOND` emits the magic, command id, flags, length, payload and checksum, in order, in one step, and the framer is back
in `SYNC1`; nothing else changes. -/
def Obligations.RespondEmitsOnePacket : Prop :=
  ∀ s : State, s.Awake → s.st = .respond →
    let body := [s.tcmd, s.tflags] ++ le32 (BitVec.ofNat 32 s.tpay.length) ++ s.tpay
    let covered := if s.cfg.csumCoversMagic then [s.cfg.magic0, s.cfg.magic1] ++ body else body
    s.workerStep = .next { s with
      st := .sync1
      out := s.out ++ ([s.cfg.magic0, s.cfg.magic1] ++ body ++ le16 (csum covered)) }

/-- The checksum function is the byte-wise sum modulo 2^16: nothing for the empty string, each byte once, so the order of the
bytes does not matter. -/
def Obligations.ChecksumIsTheByteSum : Prop :=
  (∀ B : Bytes, (csum B).toNat = (B.map BitVec.toNat).sum % 2 ^ 16) ∧
  (∀ A B : Bytes, A.Perm B → csum A = csum B)

/-- A packet in the queue reaches the dispatcher as it was sent: from `SYNC1`, after one step per byte and one comparison, the
framer is in `DISPATCH` with the packet's command id and payload, has consumed exactly the packet, and has changed nothing
but its own registers; the next step runs the instruction that id and payload are, when its port can answer. -/
def Obligations.PacketReachesTheDispatcher : Prop :=
  ∀ (s : State) (c f : Byte) (P rest : Bytes), s.Awake → s.Alone → s.st = .sync1 →
    P.length ≤ s.maxPayload.toNat → P.length ≤ s.rxbuf.length →
    s.q = packetBytes s.cfg c f P ++ rest →
    ∃ t, runFor (P.length + 11) s = .next t ∧
      t.st = .dispatch ∧ t.q = rest ∧ t.hdr.cmd = c ∧ t.hdr.flags = f ∧ t.payload = P ∧
      t = { s with
            q := rest, st := .dispatch, idx := t.idx, hdr := t.hdr, acc := t.acc, rcs := t.rcs,
            rxbuf := t.rxbuf } ∧
      (∀ i, decodeCommand s.cfg.cmdIds c P = .ok i → t.enables i = true → step t = exec i t) ∧
      (∀ e, decodeCommand s.cfg.cmdIds c P = .error e →
        step t = .next (t.respondWith c 0x01 (le32 s.cfg.errCodes.unknownCmd)))

/-- An oversized packet is drained silently and exactly: `n + 2` bytes after its header are consumed, whatever they are, no
response is emitted, and the packet after it reaches the dispatcher. -/
def Obligations.OversizedPacketIsDrained : Prop :=
  ∀ (s : State) (c f : Byte) (n : Word) (D : Bytes) (c2 f2 : Byte) (P rest : Bytes),
    s.Awake → s.Alone → s.st = .sync1 → s.maxPayload.toNat < n.toNat → D.length = n.toNat + 2 →
    P.length ≤ s.maxPayload.toNat → P.length ≤ s.rxbuf.length →
    s.q = [s.cfg.magic0, s.cfg.magic1, c, f] ++ le32 n ++ D ++ (packetBytes s.cfg c2 f2 P ++ rest) →
    (∃ t, runFor (8 + D.length) s = .next t ∧ t.st = .sync1 ∧ t.q = packetBytes s.cfg c2 f2 P ++ rest ∧
      t = { s with
            q := packetBytes s.cfg c2 f2 P ++ rest, idx := t.idx, hdr := t.hdr, acc := t.acc, drain := t.drain }) ∧
    (∃ t, runFor (8 + D.length + (P.length + 11)) s = .next t ∧ t.st = .dispatch ∧ t.q = rest ∧
      t.hdr.cmd = c2 ∧ t.payload = P ∧ t.out = s.out)

/-- One payload bit flipped on the link is always reported as a checksum error with the packet's command id, and the
dispatcher is never invoked: the table, memory and the ports are as before. -/
def Obligations.FlippedPayloadBitIsReported : Prop :=
  ∀ (s : State) (c f : Byte) (P rest : Bytes) (i k : Nat), s.Awake → s.Alone → s.st = .sync1 →
    P.length ≤ s.maxPayload.toNat → P.length ≤ s.rxbuf.length → i < P.length → k < 8 →
    s.q = (packetBytes s.cfg c f P).set (8 + i) (P.getD i 0 ^^^ (1#8 <<< k)) ++ rest →
    ∃ t, runFor (P.length + 11) s = .next t ∧
      t.st = .respond ∧ t.tcmd = c ∧ t.tflags = 0x01 ∧ t.tpay = le32 s.cfg.errCodes.checksum ∧ t.q = rest ∧
      t.table = s.table ∧ t.mem = s.mem ∧ t.log = s.log ∧ t.out = s.out

/-! ## Encoding -/

/-- Decoding what the encoder writes gives the instruction back, for every well-formed instruction with every operand, under
every table of eight different command ids. -/
def Obligations.DecodeInvertsEncode : Prop :=
  ∀ (ids : CmdIds) (i : Instr), ids.distinct = true → i.wf = true → decode ids (encode ids i) = .ok i

/-- A command's packet on the wire decodes to that command and leaves the bytes after it, under every configuration with eight
different command ids. -/
def Obligations.PacketDecodesToItsCommand : Prop :=
  ∀ (cfg : Config) (m : Nat) (i : Instr) (B rest : Bytes), cfg.cmdIds.distinct = true → i.fits m = true →
    encodeBytes cfg i = some B → decodeBytes cfg m (B ++ rest) = .ok (i, rest)

/-- The tables of ids and codes: the eight ids that R73 decides select their commands, every other id is illegal and rejected
by name, and under any table of eight different ids an id selects a command exactly when it is that command's; the codes are
those R76 decides, and success is 0 under every table. The engine is reset with both decided tables. -/
def Obligations.CommandIdsAreExact : Prop :=
  cmdOf .decided 0x01 = some .ping ∧ cmdOf .decided 0x02 = some .getInfo ∧ cmdOf .decided 0x03 = some .alloc ∧
  cmdOf .decided 0x04 = some .free ∧ cmdOf .decided 0x05 = some .writeMem ∧ cmdOf .decided 0x06 = some .readMem ∧
  cmdOf .decided 0x07 = some .exec ∧ cmdOf .decided 0x08 = some .heapInfo ∧
  (∀ (c : Byte) (P : Bytes), (c.toNat = 0 ∨ 9 ≤ c.toNat) →
    decodeCommand .decided c P = .error (.unknownCommand c)) ∧
  (∀ (ids : CmdIds) (c : Byte) (k : Cmd), ids.distinct = true → (cmdOf ids c = some k ↔ cmdId ids k = c)) ∧
  (∀ (ids : CmdIds) (c : Byte) (P : Bytes), (∀ k, cmdId ids k ≠ c) →
    decodeCommand ids c P = .error (.unknownCommand c)) ∧
  ErrCodes.decided = ⟨1, 2, 3, 4, 5, 6⟩ ∧ (∀ err : ErrCodes, ErrCode.ok.code err = 0) ∧
  State.reset.cfg.cmdIds = .decided ∧ State.reset.cfg.errCodes = .decided

/-- Every operand form parses to its fields, little-endian and in the order of the request tables; a payload shorter than the
fixed part is the short form, and bytes after it are kept apart. -/
def Obligations.OperandFieldsStandWhereTheTablesSay : Prop :=
  (∀ P : Bytes, P.length < 12 → allocForm P = .short P ∧ readForm P = .short P) ∧
  (∀ P : Bytes, P.length < 8 → writeForm P = .short P) ∧
  (∀ P : Bytes, P.length < 4 → freeForm P = .short P ∧ execForm P = .short P) ∧
  (∀ (u v w : Word) (rest : Bytes), allocForm (le32 u ++ le32 v ++ le32 w ++ rest) = .full ⟨u, v, w⟩ rest) ∧
  (∀ (u : Word) (rest : Bytes), freeForm (le32 u ++ rest) = .full ⟨u⟩ rest) ∧
  (∀ (u : Word) (m p0 p1 p2 : Byte) (rest : Bytes),
    writeForm (le32 u ++ [m, p0, p1, p2] ++ rest) = .full ⟨u, m, p0, p1, p2⟩ rest) ∧
  (∀ (u v : Word) (m p0 p1 p2 : Byte) (rest : Bytes),
    readForm (le32 u ++ le32 v ++ [m, p0, p1, p2] ++ rest) = .full ⟨u, v, m, p0, p1, p2⟩ rest) ∧
  (∀ u : Word, execForm (le32 u) = .bare u) ∧
  (∀ (u : Word) (m : Byte) (rest : Bytes), execForm (le32 u ++ [m] ++ rest) = .flagged u m rest)

/-- The reserved bits 7..1 of `mflags` and the padding bytes change nothing that WRITEMEM, READMEM and EXEC do. -/
def Obligations.ReservedBitsAreIgnored : Prop :=
  (∀ (f g : WriteFields) (D : Bytes) (s : State), f.address = g.address → f.mflags.getLsbD 0 = g.mflags.getLsbD 0 →
    exec (.writeMem (.full f D)) s = exec (.writeMem (.full g D)) s) ∧
  (∀ (f g : ReadFields) (r : Bytes) (s : State), f.address = g.address → f.size = g.size →
    f.mflags.getLsbD 0 = g.mflags.getLsbD 0 →
    exec (.readMem (.full f r)) s = exec (.readMem (.full g r)) s) ∧
  (∀ (a : Word) (m n : Byte) (r : Bytes) (s : State), m.getLsbD 0 = n.getLsbD 0 →
    exec (.exec (.flagged a m r)) s = exec (.exec (.flagged a n r)) s)

/-- The header flags byte of a request has no meaning: once the latch has taken it, in every state of the framer, another value
of it changes nothing that the worker does, now or in any later step of the packet, but its own latch. -/
def Obligations.RequestFlagsAreIgnored : Prop :=
  ∀ (s : State) (f : Byte), s.Awake → (s.st = .hdr → 2 ≤ s.idx) →
    ∃ t, s.workerStep = .next t ∧
      { s with hdr := { s.hdr with flags := f } }.workerStep = .next { t with hdr := { t.hdr with flags := f } }

/-- A few packets written out from the spec's encoding tables decode to the instructions they stand for. -/
def Obligations.WrittenOutPacketsDecode : Prop :=
  decodeBytes standardConfig 128 [0xA5, 0x5A, 0x01, 0x00, 0x02, 0x00, 0x00, 0x00, 0x68, 0x69, 0xD4, 0x00]
    = .ok (.ping [0x68, 0x69], []) ∧
  decodeBytes standardConfig 128 [0xA5, 0x5A, 0x04, 0x00, 0x04, 0x00, 0x00, 0x00, 0x00, 0x00, 0xF0, 0x4F, 0x47, 0x01]
    = .ok (.free (.full ⟨0x4FF00000⟩ []), []) ∧
  decodeBytes standardConfig 128
      [0xA5, 0x5A, 0x07, 0x00, 0x05, 0x00, 0x00, 0x00, 0x00, 0x00, 0x00, 0x50, 0x01, 0x5D, 0x00]
    = .ok (.exec (.flagged 0x50000000 0x01 []), []) ∧
  decode .decided (.request ⟨0b01#2, 0x4FF00000, 0⟩) = .ok (.trackerRemove 0x4FF00000)

/-! ## The lookup engine -/

/-- TRACKER.ADD: the lowest free slot takes the entry as given; with every slot in use the table is unchanged. Nothing but
the table and the answer changes. -/
def Obligations.TrackerAddTakesTheLowestFreeSlot : Prop :=
  ∀ (s : State) (a sz : Word),
    (∀ (pre post : List Slot) (t : Slot), s.table = pre ++ t :: post → (∀ u ∈ pre, u.used = true) → t.used = false →
      exec (.trackerAdd a sz) s = .next { s with table := pre ++ ⟨a, sz, true⟩ :: post, tres := .ok }) ∧
    ((∀ t ∈ s.table, t.used = true) → exec (.trackerAdd a sz) s = .next { s with tres := .tableFull })

/-- TRACKER.REMOVE: the lowest slot in use that starts at the address is freed; with none the table is unchanged. -/
def Obligations.TrackerRemoveFreesTheLowestMatch : Prop :=
  ∀ (s : State) (a : Word),
    (∀ (pre post : List Slot) (t : Slot), s.table = pre ++ t :: post → (∀ u ∈ pre, ¬(u.used = true ∧ u.addr = a)) →
      t.used = true → t.addr = a →
      exec (.trackerRemove a) s = .next { s with table := pre ++ ⟨0, 0, false⟩ :: post, tres := .found }) ∧
    (¬TrackedStart s.table a → exec (.trackerRemove a) s = .next { s with tres := .notFound })

/-- TRACKER.CONTAINS answers whether a slot in use starts exactly at the address, and changes no slot; address 0 is never
contained in a legal table. -/
def Obligations.TrackerContainsIsExact : Prop :=
  ∀ (s : State) (a : Word),
    (TrackedStart s.table a → exec (.trackerContains a) s = .next { s with tres := .bit true }) ∧
    (¬TrackedStart s.table a → exec (.trackerContains a) s = .next { s with tres := .bit false }) ∧
    ((∀ t ∈ s.table, t.legal) → exec (.trackerContains 0) s = .next { s with tres := .bit false })

/-- TRACKER.VALIDATE answers whether the range ends within `MAX32` and lies within one entry in use whose own range does not
overflow, and changes no slot. -/
def Obligations.TrackerValidateIsArithmetic : Prop :=
  ∀ (s : State) (a sz : Word),
    (Tracked s.table a.toNat sz.toNat → exec (.trackerValidate a sz) s = .next { s with tres := .bit true }) ∧
    (¬Tracked s.table a.toNat sz.toNat → exec (.trackerValidate a sz) s = .next { s with tres := .bit false })

/-- The number of slots in use rises by one exactly on an `add` that answers `ok`, falls by one exactly on a `remove` that
answers `found`, and never exceeds the number of slots; a full table answers `table_full`. -/
def Obligations.UsedSlotsCountAllocations : Prop :=
  ∀ (s t : State) (a sz : Word),
    (exec (.trackerAdd a sz) s = .next t →
      (t.tres = .ok ∧ usedSlots t.table = usedSlots s.table + 1) ∨
      (t.tres = .tableFull ∧ usedSlots t.table = usedSlots s.table ∧ usedSlots s.table = s.table.length)) ∧
    (exec (.trackerRemove a) s = .next t →
      (t.tres = .found ∧ usedSlots t.table + 1 = usedSlots s.table) ∨
      (t.tres = .notFound ∧ usedSlots t.table = usedSlots s.table)) ∧
    usedSlots s.table ≤ s.table.length

/-! ## The dispatcher -/

/-- A step runs the decoded instruction: in `DISPATCH`, when the command id and the payload decode to an instruction whose port
can answer, the worker's step is `exec` of it and nothing else, and while the port cannot answer the worker waits (log
entries 5 and 18); a request at the lookup engine's port is taken off the port and executed before the framer steps, which is
the model's choice for R93's port (log entry 6). -/
def Obligations.StepRunsTheDecodedInstruction : Prop :=
  (∀ (s : State) (i : Instr), s.Awake → s.Alone → s.st = .dispatch →
    decodeCommand s.cfg.cmdIds s.hdr.cmd s.payload = .ok i →
    (s.enables i = true → step s = exec i s) ∧ (s.enables i = false → step s = .next s)) ∧
  (∀ (s : State) (i : Instr) (ts : List Turn), s.Awake → s.turns = .worker :: ts → s.st = .dispatch →
    decodeCommand s.cfg.cmdIds s.hdr.cmd s.payload = .ok i →
    (s.enables i = true → step s = exec i { s with turns := ts }) ∧
    (s.enables i = false → step s = .next { s with turns := ts })) ∧
  (∀ (s : State) (r : TrackerRequest), s.run = .running → s.why = none → s.hung = none → s.Alone →
    s.treq = some r → step s = exec (decodeRequest r) { s with treq := none })

/-- An unknown command id, which is none of the table's and so, with the ids of R73, 0 or 9 and above, is reported as
`ERR_UNKNOWN_CMD` with the id as received, its payload not examined, and nothing else changes. -/
def Obligations.UnknownCommandIsReported : Prop :=
  ∀ s : State, s.Awake → s.st = .dispatch →
    ((∀ k, cmdId s.cfg.cmdIds k ≠ s.hdr.cmd) ∨
      (s.cfg.cmdIds = .decided ∧ (s.hdr.cmd.toNat = 0 ∨ 9 ≤ s.hdr.cmd.toNat))) →
    s.workerStep = .next { s with
      tcmd := s.hdr.cmd, tflags := 0x01, tlen := 4, st := .respond, phase := .fresh
      txbuf := le32 s.cfg.errCodes.unknownCmd ++ s.txbuf.drop 4 }

/-- Reporting an error writes the response register and sends the framer to `RESPOND`, and is precise: the step that reports an
error leaves the table and device memory as they were and uses no port, but for ALLOC, which may have asked the allocator: for
nothing, or, with the table full, for memory that it then releases, the table unchanged in both steps (log entry 18). A WRITEMEM
that has copied its bytes and a FREE that has removed its entry report no error. -/
def Obligations.ErrorReportsArePrecise : Prop :=
  (∀ (s : State) (c : Byte) (e : ErrCode),
    s.reportError c e = { s with
      tcmd := c, tflags := 0x01, tlen := 4, st := .respond, phase := .fresh
      txbuf := le32 (e.code s.cfg.errCodes) ++ s.txbuf.drop 4 } ∧
    (s.reportError c e).tpay = le32 (e.code s.cfg.errCodes)) ∧
  (∀ (i : Instr) (s t : State), s.st = .dispatch → exec i s = .next t → t.st = .respond → t.tflags = 0x01 →
    t.table = s.table ∧ t.mem = s.mem ∧ t.past = s.past ∧ t.dirty = s.dirty ∧
    (∃ e : ErrCode, t.tpay = le32 (e.code s.cfg.errCodes) ∧ e ≠ .ok ∧ e ≠ .cacheSync) ∧
    (t.log = s.log ∨
      ∃ (f : AllocFields) (x : Bytes), i = .alloc (.full f x) ∧
        (t.log = s.log ++ [.alloc f.size f.caps f.alignment 0] ∨
         ∃ a, s.phase = .release a ∧ t.log = s.log ++ [.free a]))) ∧
  (∀ (f : AllocFields) (x : Bytes) (s t : State), s.st = .dispatch → exec (.alloc (.full f x)) s = .next t →
    t.st = .dispatch →
    ∃ a, t.phase = .release a ∧ t.log = s.log ++ [.alloc f.size f.caps f.alignment a] ∧
      (∀ v ∈ s.table, v.used = true) ∧ t.table = s.table ∧ t.mem = s.mem ∧ t.past = s.past ∧ t.dirty = s.dirty) ∧
  (∀ (f : WriteFields) (D : Bytes) (s t : State), s.st = .dispatch →
    (s.phase = .written ∨ ∃ S, s.phase = .lineKnown S) → exec (.writeMem (.full f D)) s = .next t →
    ¬(t.st = .respond ∧ t.tflags = 0x01)) ∧
  (∀ (f : FreeFields) (x : Bytes) (a : Word) (s t : State), s.phase = .release a →
    exec (.free (.full f x)) s = .next t → t.st = .respond ∧ t.tflags = 0x00)

/-- No command outcome stops the worker: with every port able to answer, a dispatched packet ends, after at most three steps
(log entry 18), in `RESPOND` with the block still running, and then in `SYNC1`, but for a port fault (WRITEMEM, READMEM) and a
callee that never returns (EXEC). -/
def Obligations.CommandsNeverStopTheWorker : Prop :=
  ∀ s : State, s.Awake → s.Alone → s.ready = .all → s.st = .dispatch →
    ∃ k t, k ≤ 3 ∧ runFor k s = .next t ∧
      ((t.st = .respond ∧ t.Awake ∧ t.tcmd = s.hdr.cmd ∧ (t.tflags = 0x00 ∨ t.tflags = 0x01) ∧
          ∃ u, step t = .next u ∧ u.st = .sync1 ∧ u.Awake) ∨
       (t.st = .dispatch ∧ t.run = .faulted ∧ t.why.isSome = true ∧
          (s.hdr.cmd = s.cfg.cmdIds.writeMem ∨ s.hdr.cmd = s.cfg.cmdIds.readMem)) ∨
       (t.st = .dispatch ∧ t.run = .running ∧ t.hung.isSome = true ∧ s.hdr.cmd = s.cfg.cmdIds.exec))

/-! ## The commands -/

/-- PING echoes its payload verbatim with flags 0x00 and changes nothing else; the packet that goes out is the request packet
whose flags byte is 0x00. -/
def Obligations.PingEchoes : Prop :=
  ∀ (s : State) (data : Bytes),
    ∃ t, exec (.ping data) s = .next t ∧
      t = { s with
            tcmd := s.cfg.cmdIds.ping, tflags := 0x00, tlen := data.length, st := .respond, phase := .fresh
            txbuf := data ++ s.txbuf.drop data.length } ∧
      t.tpay = data ∧
      t.finishResponse.out = s.out ++ packetBytes s.cfg s.cfg.cmdIds.ping 0x00 data

/-- GETINFO answers five words after one fresh line-size query, whatever its payload; the line is the default when the query
answers nothing or 0. -/
def Obligations.GetInfoAnswersFiveWords : Prop :=
  ∀ (s : State) (body : Bytes) (line : Word),
    (∀ w, s.lineAnswer = some w → w.toNat ≠ 0 → line = w) →
    (s.lineAnswer = none ∨ s.lineAnswer = some 0 → line = s.cfg.cacheLineDefault) →
    exec (.getInfo body) s = .next
      ({ s with
          ans := { s.ans with lines := s.ans.lines.tail }, draws := s.draws + 1
          log := s.log ++ [PortTxn.lineSize s.lineAnswer] }.respondWith s.cfg.cmdIds.getInfo 0x00
        (le32 s.cfg.protocolVersion ++ le32 s.maxPayload ++ le32 line ++ le32 s.cfg.tableCapacity
          ++ le32 s.cfg.firmwareVersion))

/-- HEAPINFO answers the four counters of one heap query, unchecked, whatever its payload. -/
def Obligations.HeapInfoAnswersFourCounters : Prop :=
  ∀ (s : State) (body : Bytes),
    exec (.heapInfo body) s = .next
      ({ s with
          ans := { s.ans with heaps := s.ans.heaps.tail }, draws := s.draws + 1
          log := s.log ++ [PortTxn.heapInfo s.heapAnswer] }.respondWith s.cfg.cmdIds.heapInfo 0x00
        (le32 s.heapAnswer.free0 ++ le32 s.heapAnswer.total0 ++ le32 s.heapAnswer.free1
          ++ le32 s.heapAnswer.total1))

/-- ALLOC, every outcome: a short payload; an alignment that is no power of two (the allocator not asked); an allocator
failure; a free slot that records the requested size; a full table, where the next step releases the memory and fails. Where
the command's two transactions part it into steps is log entry 18. -/
def Obligations.AllocOutcomes : Prop :=
  (∀ (s : State) (raw : Bytes), exec (.alloc (.short raw)) s =
    .next (s.respondWith s.cfg.cmdIds.alloc 0x01 (le32 s.cfg.errCodes.malformed))) ∧
  (∀ (s : State) (f : AllocFields) (x : Bytes), s.phase = .fresh → ¬IsPowerOfTwo f.alignment →
    exec (.alloc (.full f x)) s = .next (s.respondWith s.cfg.cmdIds.alloc 0x01 (le32 s.cfg.errCodes.alloc))) ∧
  (∀ (s : State) (f : AllocFields) (x : Bytes), s.phase = .fresh → IsPowerOfTwo f.alignment →
    let a := s.allocAnswer
    let t := { s with
      ans := { s.ans with allocs := s.ans.allocs.tail }, draws := s.draws + 1
      log := s.log ++ [PortTxn.alloc f.size f.caps f.alignment a] }
    let w := { t with tres := .tableFull, phase := .release a }
    (a = 0 → exec (.alloc (.full f x)) s =
      .next (t.respondWith s.cfg.cmdIds.alloc 0x01 (le32 s.cfg.errCodes.alloc))) ∧
    (∀ (pre post : List Slot) (u : Slot), a ≠ 0 → s.table = pre ++ u :: post → (∀ v ∈ pre, v.used = true) →
      u.used = false →
      exec (.alloc (.full f x)) s = .next
        ({ t with table := pre ++ Slot.mk a f.size true :: post, tres := .ok }.respondWith s.cfg.cmdIds.alloc 0x00
          (le32 a ++ [0, 0, 0, 0]))) ∧
    (a ≠ 0 → (∀ v ∈ s.table, v.used = true) →
      exec (.alloc (.full f x)) s = .next w ∧
      exec (.alloc (.full f x)) w = .next
        ({ w with log := w.log ++ [PortTxn.free a] }.respondWith s.cfg.cmdIds.alloc 0x01
          (le32 s.cfg.errCodes.alloc))))

/-- FREE, every outcome: a short payload; an address that no entry starts at (the allocator not told), address 0 always with a
legal table; an entry, which one step removes, and which the allocator is told of in the next, with the table entry gone (that
these are two steps: log entry 18). -/
def Obligations.FreeOutcomes : Prop :=
  (∀ (s : State) (raw : Bytes), exec (.free (.short raw)) s =
    .next (s.respondWith s.cfg.cmdIds.free 0x01 (le32 s.cfg.errCodes.malformed))) ∧
  (∀ (s : State) (f : FreeFields) (x : Bytes), s.phase = .fresh → ¬TrackedStart s.table f.address →
    exec (.free (.full f x)) s = .next
      ({ s with tres := .bit false }.respondWith s.cfg.cmdIds.free 0x01 (le32 s.cfg.errCodes.invalidAddr))) ∧
  (∀ (s : State) (x : Bytes), s.phase = .fresh → (∀ t ∈ s.table, t.legal) →
    exec (.free (.full ⟨0⟩ x)) s = .next
      ({ s with tres := .bit false }.respondWith s.cfg.cmdIds.free 0x01 (le32 s.cfg.errCodes.invalidAddr))) ∧
  (∀ (s : State) (f : FreeFields) (x : Bytes) (pre post : List Slot) (u : Slot), s.phase = .fresh →
    s.table = pre ++ u :: post → (∀ v ∈ pre, ¬(v.used = true ∧ v.addr = f.address)) → u.used = true →
    u.addr = f.address →
    let w := { s with
      table := pre ++ Slot.mk 0 0 false :: post, tres := .found, phase := .release f.address }
    exec (.free (.full f x)) s = .next w ∧
    exec (.free (.full f x)) w = .next
      ({ w with log := s.log ++ [PortTxn.free f.address] }.respondWith s.cfg.cmdIds.free 0x00 [0, 0, 0, 0]))

/-- A second FREE of the same address fails unless another entry starts there: "no double-free success". The first one takes two
steps (log entry 18). -/
def Obligations.SecondFreeIsRejected : Prop :=
  ∀ (s t u : State) (f : FreeFields) (x y : Bytes), s.phase = .fresh →
    s.table.countP (fun v => v.used && v.addr == f.address) = 1 →
    execFor 2 (.free (.full f x)) s = .next t → u.table = t.table → u.phase = .fresh →
    t.st = .respond ∧ t.tpay = [0, 0, 0, 0] ∧ t.tflags = 0x00 ∧
    ∃ v, exec (.free (.full f y)) u = .next v ∧ v.st = .respond ∧ v.tflags = 0x01 ∧
      v.tpay = le32 u.cfg.errCodes.invalidAddr ∧ v.table = u.table ∧ v.log = u.log

/-- WRITEMEM, every outcome: a short payload; a range not tracked without skip-bounds (no port transaction); a transfer that
faults, at the top of the address space or where the platform maps no memory (log entry 8); and a transfer that is served,
followed by one line-size query and one sync over the aligned range, in a step each (log entry 18), answered with the length
written and the sync's status. What the copy and a good sync do to the instruction-fetch view is log entry 11. -/
def Obligations.WriteMemOutcomes : Prop :=
  (∀ (s : State) (raw : Bytes), exec (.writeMem (.short raw)) s =
    .next (s.respondWith s.cfg.cmdIds.writeMem 0x01 (le32 s.cfg.errCodes.malformed))) ∧
  (∀ (s : State) (f : WriteFields) (D : Bytes), s.phase = .fresh →
    let a := f.address.toNat
    let L := D.length
    let t := if f.mflags.getLsbD 0 then s else { s with tres := .bit (tableValidate s.table a L) }
    let served := { s.ans with served := s.ans.served.tail }
    (f.mflags.getLsbD 0 = false → ¬Tracked s.table a L →
      exec (.writeMem (.full f D)) s =
        .next (t.respondWith s.cfg.cmdIds.writeMem 0x01 (le32 s.cfg.errCodes.invalidAddr))) ∧
    ((f.mflags.getLsbD 0 = true ∨ Tracked s.table a L) →
      (L ≠ 0 ∧ (2 ^ 32 < a + L ∨ s.servedAnswer = false) →
        exec (.writeMem (.full f D)) s = .next { t with
          ans := served, draws := s.draws + 1, log := s.log ++ [PortTxn.memFault f.address .write L]
          run := .faulted, why := some ⟨f.address, .write⟩ }) ∧
      (¬(L ≠ 0 ∧ (2 ^ 32 < a + L ∨ s.servedAnswer = false)) →
        let w := { t with
          ans := served, draws := s.draws + 1, log := s.log ++ [PortTxn.memWrite f.address D]
          mem := s.mem.storeAll (addressed a D), past := pastAll s.mem s.past (addressed a D)
          dirty := dirtyAll s.dirty (addressed a D), phase := .written }
        exec (.writeMem (.full f D)) s = .next w ∧
        ∀ line : Word, (∀ S, w.lineAnswer = some S → S.toNat ≠ 0 → line = S) →
          (w.lineAnswer = none ∨ w.lineAnswer = some 0 → line = s.cfg.cacheLineDefault) →
          let start := (alignedRange a L line.toNat).1
          let len := (alignedRange a L line.toNat).2
          let x := { w with
            ans := { w.ans with lines := s.ans.lines.tail }, draws := s.draws + 2
            log := w.log ++ [PortTxn.lineSize w.lineAnswer], phase := .lineKnown line }
          exec (.writeMem (.full f D)) w = .next x ∧
          exec (.writeMem (.full f D)) x = .next
            ({ x with
                ans := { x.ans with syncs := s.ans.syncs.tail }, draws := s.draws + 3
                log := x.log ++ [PortTxn.sync start len x.syncAnswer]
                dirty := if x.syncAnswer then dirtyDrop start len x.dirty else x.dirty }.respondWith
              s.cfg.cmdIds.writeMem 0x00
              (le32 (BitVec.ofNat 32 L) ++ (if x.syncAnswer then [0, 0, 0, 0] else le32 s.cfg.errCodes.cacheSync))))))

/-- WRITEMEM's frame, in each of its steps (log entry 18): every byte outside `[address, address + L)` reads as before; the step
that copies goes on to the sync, and byte `i` of the data then reads at `address + i`; every other step, one that reports an
error or that faults too, leaves memory as it was (a faulted transfer writes no byte: log entry 8); a success response comes
after the copy only. -/
def Obligations.WriteMemWritesItsRangeOnly : Prop :=
  ∀ (s t : State) (f : WriteFields) (D : Bytes), s.mem.wf → s.st = .dispatch →
    exec (.writeMem (.full f D)) s = .next t →
    (∀ x, x < f.address.toNat ∨ f.address.toNat + D.length ≤ x → t.mem.read x = s.mem.read x) ∧
    (t.phase = .written → ∀ i, i < D.length → t.mem.read (f.address.toNat + i) = D.getD i 0) ∧
    (t.phase ≠ .written → t.mem = s.mem) ∧
    (t.st = .respond → t.tflags = 0x00 → ∃ S, s.phase = .lineKnown S) ∧
    t.table = s.table ∧ t.cfg = s.cfg ∧ t.q = s.q ∧ t.out = s.out ∧ t.hdr = s.hdr ∧ t.rxbuf = s.rxbuf

/-- READMEM, every outcome: a short payload; a size above the maximum, skip-bounds or not; a range not tracked; a transfer that
faults (log entry 8); and a transfer that is served, answered with the bytes read and no status. Memory is unchanged in all. -/
def Obligations.ReadMemOutcomes : Prop :=
  (∀ (s : State) (raw : Bytes), exec (.readMem (.short raw)) s =
    .next (s.respondWith s.cfg.cmdIds.readMem 0x01 (le32 s.cfg.errCodes.malformed))) ∧
  (∀ (s : State) (f : ReadFields) (x : Bytes),
    let a := f.address.toNat
    let n := f.size.toNat
    let t := if f.mflags.getLsbD 0 then s else { s with tres := .bit (tableValidate s.table a n) }
    let served := { s.ans with served := s.ans.served.tail }
    (s.maxPayload.toNat < n →
      exec (.readMem (.full f x)) s =
        .next (s.respondWith s.cfg.cmdIds.readMem 0x01 (le32 s.cfg.errCodes.malformed))) ∧
    (n ≤ s.maxPayload.toNat → f.mflags.getLsbD 0 = false → ¬Tracked s.table a n →
      exec (.readMem (.full f x)) s =
        .next (t.respondWith s.cfg.cmdIds.readMem 0x01 (le32 s.cfg.errCodes.invalidAddr))) ∧
    (n ≤ s.maxPayload.toNat → (f.mflags.getLsbD 0 = true ∨ Tracked s.table a n) →
      (n ≠ 0 ∧ (2 ^ 32 < a + n ∨ s.servedAnswer = false) →
        exec (.readMem (.full f x)) s = .next { t with
          ans := served, draws := s.draws + 1, log := s.log ++ [PortTxn.memFault f.address .read n]
          run := .faulted, why := some ⟨f.address, .read⟩, phase := .fresh }) ∧
      (¬(n ≠ 0 ∧ (2 ^ 32 < a + n ∨ s.servedAnswer = false)) →
        ∃ D : Bytes, D.length = n ∧ (∀ i, i < n → D.getD i 0 = s.mem.read (a + i)) ∧
        exec (.readMem (.full f x)) s = .next
          ({ t with
              ans := served, draws := s.draws + 1, log := s.log ++ [PortTxn.memRead f.address D] }.respondWith
            s.cfg.cmdIds.readMem 0x00 D))))

/-- EXEC, every outcome: a short payload; an entry address that fails its check without skip-bounds; a callee that returns,
answered with its value, any value; and one that never returns, which leaves the block in the call. The 4-byte form is the form
with a clear flags byte. What a callee does to device memory is a list of byte stores (log entry 10), which join the
instruction-fetch view (log entry 11); a callee that never returns is log entry 9. -/
def Obligations.ExecOutcomes : Prop :=
  (∀ (s : State) (raw : Bytes), exec (.exec (.short raw)) s =
    .next (s.respondWith s.cfg.cmdIds.exec 0x01 (le32 s.cfg.errCodes.malformed))) ∧
  (∀ (s : State) (a : Word) (x : Bytes), exec (.exec (.bare a)) s = exec (.exec (.flagged a 0 x)) s) ∧
  (∀ (s : State) (a : Word) (mf : Byte) (x : Bytes),
    let bounds := Tracked s.table a.toNat 1 ∧ (s.cfg.execRequireStart = true → TrackedStart s.table a)
    let t := if mf.getLsbD 0 then s else { s with
      tres := if s.cfg.execRequireStart then .bit (tableContains s.table a)
        else .bit (tableValidate s.table a.toNat 1) }
    let called := { s.ans with execs := s.ans.execs.tail }
    (mf.getLsbD 0 = false → ¬bounds →
      exec (.exec (.flagged a mf x)) s =
        .next (t.respondWith s.cfg.cmdIds.exec 0x01 (le32 s.cfg.errCodes.invalidAddr))) ∧
    (mf.getLsbD 0 = true ∨ bounds →
      (∀ r stores, s.execAnswer = .returns r stores →
        exec (.exec (.flagged a mf x)) s = .next
          ({ t with
              ans := called, draws := s.draws + 1, log := s.log ++ [PortTxn.execCall a (some r)]
              mem := s.mem.storeAll (calleeCells stores)
              past := pastAll s.mem s.past (calleeCells stores)
              dirty := dirtyAll s.dirty (calleeCells stores) }.respondWith s.cfg.cmdIds.exec 0x00 (le32 r))) ∧
      (s.execAnswer = .never →
        exec (.exec (.flagged a mf x)) s = .next { t with
          ans := called, draws := s.draws + 1, log := s.log ++ [PortTxn.execCall a none], hung := some a })))

/-- A request without skip-bounds whose range lies within no entry is answered `ERR_INVALID_ADDR` and makes no port
transaction; with skip-bounds the Tracker never rejects it. -/
def Obligations.UntrackedRangesAreRejected : Prop :=
  (∀ (s t : State) (f : WriteFields) (D : Bytes), exec (.writeMem (.full f D)) s = .next t → s.st = .dispatch →
    s.phase = .fresh →
    (f.mflags.getLsbD 0 = false → ¬Tracked s.table f.address.toNat D.length →
      t.tflags = 0x01 ∧ t.tpay = le32 s.cfg.errCodes.invalidAddr ∧ t.log = s.log ∧ t.mem = s.mem) ∧
    (f.mflags.getLsbD 0 = true → ¬(t.st = .respond ∧ t.tflags = 0x01))) ∧
  (∀ (s t : State) (f : ReadFields) (x : Bytes), exec (.readMem (.full f x)) s = .next t → s.st = .dispatch →
    f.size.toNat ≤ s.maxPayload.toNat →
    (f.mflags.getLsbD 0 = false → ¬Tracked s.table f.address.toNat f.size.toNat →
      t.tflags = 0x01 ∧ t.tpay = le32 s.cfg.errCodes.invalidAddr ∧ t.log = s.log ∧ t.mem = s.mem) ∧
    (f.mflags.getLsbD 0 = true → ¬(t.st = .respond ∧ t.tflags = 0x01))) ∧
  (∀ (s t : State) (a : Word) (mf : Byte) (x : Bytes), exec (.exec (.flagged a mf x)) s = .next t →
    s.st = .dispatch →
    (mf.getLsbD 0 = false → ¬Tracked s.table a.toNat 1 →
      t.tflags = 0x01 ∧ t.tpay = le32 s.cfg.errCodes.invalidAddr ∧ t.log = s.log ∧ t.mem = s.mem) ∧
    (mf.getLsbD 0 = true → ¬(t.st = .respond ∧ t.tflags = 0x01)))

/-! ## Memory, cache and ports -/

/-- A READMEM of the bytes that a WRITEMEM wrote, with the same memory, answers those bytes, whatever the sync answered. The
WRITEMEM takes three steps (log entry 18). -/
def Obligations.ReadAfterWriteAnswersTheData : Prop :=
  ∀ (s t u v : State) (f : WriteFields) (g : ReadFields) (D x : Bytes), s.mem.wf →
    s.st = .dispatch → s.phase = .fresh → execFor 3 (.writeMem (.full f D)) s = .next t →
    t.st = .respond → t.tflags = 0x00 →
    u.mem = t.mem → u.st = .dispatch → g.address = f.address → g.size.toNat = D.length →
    exec (.readMem (.full g x)) u = .next v → v.st = .respond → v.tflags = 0x00 →
    v.tpay = D

/-- After a WRITEMEM whose status is `ERR_OK` an instruction fetch of its range can see nothing but the bytes written; after
one whose status is `ERR_CACHE_SYNC` it may see the written byte or any older contents of the address, those from before an
earlier sync too, and nothing else (the view is log entry 11, the WRITEMEM's three steps are log entry 18). -/
def Obligations.FetchCoherenceFollowsTheSync : Prop :=
  ∀ (s t : State) (f : WriteFields) (D : Bytes), s.mem.wf → 1 ≤ s.cfg.cacheLineDefault.toNat →
    s.cfg.errCodes.cacheSync ≠ 0 → s.st = .dispatch → s.phase = .fresh →
    execFor 3 (.writeMem (.full f D)) s = .next t → t.st = .respond → t.tflags = 0x00 →
    ∀ x b, f.address.toNat ≤ x → x < f.address.toNat + D.length →
      (t.tpay.drop 4 = [0, 0, 0, 0] → (t.fetchMaySee x b = true ↔ b = D.getD (x - f.address.toNat) 0)) ∧
      (t.tpay.drop 4 = le32 s.cfg.errCodes.cacheSync →
        (t.fetchMaySee x b = true ↔
          b = D.getD (x - f.address.toNat) 0 ∨ b = s.mem.read x ∨ (x, b) ∈ s.past))

/-- The coherency operation of a write, after its copy: one step is one line-size query, whose answer is the line size unless
it is none or 0, which fall back to the default; the next is one sync over the aligned range, which answers the status. The
block itself is unchanged but for the response; what a good sync does to the instruction-fetch view is log entry 11, and the
step for each transaction log entry 18. -/
def Obligations.CacheSyncIsOneQueryAndOneSync : Prop :=
  ∀ (s : State) (f : WriteFields) (D : Bytes),
    (∀ line : Word, s.phase = .written →
      (∀ w, s.lineAnswer = some w → w.toNat ≠ 0 → line = w) →
      (s.lineAnswer = none ∨ s.lineAnswer = some 0 → line = s.cfg.cacheLineDefault) →
      exec (.writeMem (.full f D)) s = .next { s with
        ans := { s.ans with lines := s.ans.lines.tail }, draws := s.draws + 1
        log := s.log ++ [PortTxn.lineSize s.lineAnswer], phase := .lineKnown line } ∧
      (1 ≤ s.cfg.cacheLineDefault.toNat → 1 ≤ line.toNat)) ∧
    (∀ S : Word, s.phase = .lineKnown S →
      let start := (alignedRange f.address.toNat D.length S.toNat).1
      let len := (alignedRange f.address.toNat D.length S.toNat).2
      let ok := s.syncAnswer
      exec (.writeMem (.full f D)) s = .next
        ({ s with
            ans := { s.ans with syncs := s.ans.syncs.tail }, draws := s.draws + 1
            log := s.log ++ [PortTxn.sync start len ok]
            dirty := if ok then dirtyDrop start len s.dirty else s.dirty }.respondWith s.cfg.cmdIds.writeMem 0x00
          (le32 (BitVec.ofNat 32 D.length) ++ (if ok then [0, 0, 0, 0] else le32 s.cfg.errCodes.cacheSync))))

/-- The aligned range: its start is the greatest multiple of the line size at or below the address, its end the least multiple
at or above the end of the write. -/
def Obligations.AlignedRangeIsTheLeastCover : Prop :=
  ∀ a L S : Nat, 1 ≤ S →
    let start := (alignedRange a L S).1
    let stop := start + (alignedRange a L S).2
    S ∣ start ∧ start ≤ a ∧ a < start + S ∧ S ∣ stop ∧ a + L ≤ stop ∧ stop < a + L + S

/-- Which ports a command uses: a step makes one transaction, on the port that it waits for, or none; only WRITEMEM writes
memory and syncs the cache, after the write and the line-size query and once; only READMEM reads memory; only WRITEMEM and
GETINFO query the line size; only ALLOC asks the allocator and only ALLOC and FREE tell it to free; only EXEC calls; only
HEAPINFO queries the heap; no command allocates or releases a buffer; the
log only grows. How the transactions part a command into steps is log entry 18. -/
def Obligations.EachCommandUsesItsOwnPorts : Prop :=
  ∀ (i : Instr) (s t : State), exec i s = .next t →
    ∃ l, t.log = s.log ++ l ∧
      (nextPort i s = none → l = []) ∧
      (∀ p, nextPort i s = some p → ∃ x, l = [x] ∧ x.port = some p) ∧
      (∀ x ∈ l, ∀ a D, x = .memWrite a D → (∃ o, i = .writeMem o) ∧ t.phase = .written) ∧
      (∀ x ∈ l, ∀ a n, x = .memFault a .write n → ∃ o, i = .writeMem o) ∧
      (∀ x ∈ l, ∀ a D, x = .memRead a D → ∃ o, i = .readMem o) ∧
      (∀ x ∈ l, ∀ a n, x = .memFault a .read n → ∃ o, i = .readMem o) ∧
      (∀ x ∈ l, ∀ q, x = .lineSize q → (∃ b, i = .getInfo b) ∨ ((∃ o, i = .writeMem o) ∧ s.phase = .written)) ∧
      (∀ x ∈ l, ∀ a n ok, x = .sync a n ok → (∃ o, i = .writeMem o) ∧ ∃ S, s.phase = .lineKnown S) ∧
      (∀ x ∈ l, ∀ n c m a, x = .alloc n c m a → ∃ o, i = .alloc o) ∧
      (∀ x ∈ l, ∀ a, x = .free a → (∃ o, i = .alloc o) ∨ ∃ o, i = .free o) ∧
      (∀ x ∈ l, ∀ a r, x = .execCall a r → ∃ o, i = .exec o) ∧
      (∀ x ∈ l, ∀ h, x = .heapInfo h → ∃ b, i = .heapInfo b) ∧
      (∀ x ∈ l, ∀ n p ok, x ≠ .bufAlloc n p ok ∧ x ≠ .bufRelease n) ∧
      (∀ o, i = .writeMem o → s.st = .dispatch → t.st = .respond → t.tflags = 0x00 → ∃ n m ok, l = [.sync n m ok])

/-- The table changes only by ALLOC and FREE, by a request at the lookup engine's own port (log entry 6), and by a start or a
power-on; device memory only by WRITEMEM, an EXEC callee, or what a power-on leaves there. -/
def Obligations.TableAndMemoryChangeOnlyByTheirCommands : Prop :=
  ∀ s t : State, step s = .next t →
    (t.table ≠ s.table →
      (s.st = .dispatch ∧ (s.hdr.cmd = s.cfg.cmdIds.alloc ∨ s.hdr.cmd = s.cfg.cmdIds.free)) ∨ s.treq ≠ none ∨
      ∃ ts, s.turns = .start :: ts ∨ ∃ w, s.turns = .powerOn w :: ts) ∧
    (t.mem ≠ s.mem →
      (s.st = .dispatch ∧ (s.hdr.cmd = s.cfg.cmdIds.writeMem ∨ s.hdr.cmd = s.cfg.cmdIds.exec)) ∨
        ∃ ts w, s.turns = .powerOn w :: ts)

/-! ## Fault and stuck -/

/-- A set fault mark stops the block for good: the worker answers with the fault, and every step but a power-on keeps the
mark, the status, the table and the framer's state, and emits nothing. Which agents still move is log entry 7. -/
def Obligations.FaultMarkIsNeverCleared : Prop :=
  ∀ (s : State) (f : MemFault), s.Inv → s.why = some f →
    s.workerStep = .fault (.memFault f.addr f.dir) ∧
    ∀ t, step s = .next t →
      (t.why = some f ∧ t.run = .faulted ∧ t.table = s.table ∧ t.st = s.st ∧ t.mem = s.mem ∧
        (t.out = s.out ∨ t.out = s.out.tail)) ∨
      ∃ ts w, s.turns = .powerOn w :: ts

/-- A callee that never returns keeps the block in `DISPATCH` for ever: the worker has no step, and every step but a power-on
keeps the call, emits nothing and changes neither the table nor memory; bytes only queue or drop (log entry 9). -/
def Obligations.HungCalleeKeepsTheBlock : Prop :=
  ∀ (s : State) (a : Word), s.Inv → s.hung = some a →
    s.workerStep = .next s ∧
    ∀ t, step s = .next t →
      (t.hung = some a ∧ t.st = .dispatch ∧ t.run = .running ∧ t.table = s.table ∧ t.mem = s.mem ∧
        (t.out = s.out ∨ t.out = s.out.tail)) ∨
      ∃ ts w, s.turns = .powerOn w :: ts

/-- At the quiescent point neither the framer nor the producer has a step: the worker and the producer each wait, which is a
step that changes nothing (log entry 5), and so does the machine when no move is given. -/
def Obligations.QuiescentPointWaits : Prop :=
  ∀ s : State, s.Awake → s.quiescent = true →
    s.workerStep = .next s ∧ s.produce = s ∧ (s.turns = [] → step s = .next s) ∧
    ∀ ts, (s.turns = .worker :: ts ∨ s.turns = .producer :: ts) →
      step s = .next { s with turns := ts } ∧ { s with turns := ts }.quiescent = true
end

