-- ==== Sys2Proof/Laws/Codec.lean ====
section
/-! SUPPORT. The laws of the encodings: little-endian fields read back, the checksum is additive, and the command ids are
one to one. -/

namespace Sys2Proof

@[simp] theorem length_le32 (v : Word) : (le32 v).length = 4 := rfl
@[simp] theorem length_le16 (v : Half) : (le16 v).length = 2 := rfl

/-- The four bytes of a word make the word again. -/
theorem word32_extract (v : Word) :
    word32 (v.extractLsb' 0 8) (v.extractLsb' 8 8) (v.extractLsb' 16 8) (v.extractLsb' 24 8) = v := by
  apply BitVec.eq_of_getLsbD_eq
  intro i hi
  unfold word32
  simp only [BitVec.getLsbD_or, BitVec.getLsbD_setWidth, BitVec.getLsbD_shiftLeft, BitVec.getLsbD_extractLsb', hi,
    decide_true, Bool.true_and]
  rcases (by omega : i < 8 ∨ (8 ≤ i ∧ i < 16) ∨ (16 ≤ i ∧ i < 24) ∨ 24 ≤ i) with h | h | h | h
  all_goals grind

/-- The two bytes of a sum make the sum again. -/
theorem half16_extract (v : Half) : half16 (v.extractLsb' 0 8) (v.extractLsb' 8 8) = v := by
  apply BitVec.eq_of_getLsbD_eq
  intro i hi
  unfold half16
  simp only [BitVec.getLsbD_or, BitVec.getLsbD_setWidth, BitVec.getLsbD_shiftLeft, BitVec.getLsbD_extractLsb', hi,
    decide_true, Bool.true_and]
  grind

/-- The low byte of two bytes is the first. -/
theorem extract_low_half16 (a b : Byte) : (half16 a b).extractLsb' 0 8 = a := by
  apply BitVec.eq_of_getLsbD_eq
  intro i hi
  simp only [half16, BitVec.getLsbD_or, BitVec.getLsbD_setWidth, BitVec.getLsbD_shiftLeft,
    BitVec.getLsbD_extractLsb', hi, decide_true, Bool.true_and]
  grind

/-- The high byte of two bytes is the second. -/
theorem extract_high_half16 (a b : Byte) : (half16 a b).extractLsb' 8 8 = b := by
  apply BitVec.eq_of_getLsbD_eq
  intro i hi
  simp only [half16, BitVec.getLsbD_or, BitVec.getLsbD_setWidth, BitVec.getLsbD_shiftLeft,
    BitVec.getLsbD_extractLsb', hi, decide_true, Bool.true_and]
  grind

/-- A word's bytes read back where the word stands, whatever stands around it. -/
theorem rdLE32_at (pre : Bytes) (v : Word) (rest : Bytes) :
    rdLE32 (pre ++ (le32 v ++ rest)) pre.length = v := by
  simp only [rdLE32, List.getD_append_right _ _ _ _ (Nat.le_add_right _ _), Nat.add_sub_cancel_left,
    List.getD_append_right _ _ _ _ (le_refl pre.length), Nat.sub_self]
  exact word32_extract v

/-- A word's bytes read back at offset 0. -/
theorem rdLE32_le32 (v : Word) (rest : Bytes) : rdLE32 (le32 v ++ rest) 0 = v :=
  rdLE32_at [] v rest

theorem csum_nil : csum [] = 0 := rfl

/-- The checksum is additive, whatever the order (R113, R114). -/
theorem csum_append (A B : Bytes) : csum (A ++ B) = csum A + csum B := by
  simp [csum, BitVec.ofNat_add]

/-- One more byte adds its value. -/
theorem csum_snoc (A : Bytes) (b : Byte) : csum (A ++ [b]) = csum A + b.setWidth 16 := by
  rw [csum_append]
  congr 1
  apply BitVec.eq_of_toNat_eq
  simp [csum]

/-- The command that an id selects has that id. -/
theorem cmdId_of_cmdOf {ids : CmdIds} {c : Byte} {k : Cmd} (h : cmdOf ids c = some k) : cmdId ids k = c := by
  simp only [cmdOf, Option.map_eq_some_iff] at h
  obtain ⟨r, hr, rfl⟩ := h
  have hm := List.mem_of_find?_eq_some hr
  have ha := List.find?_some hr
  simp only [CmdRow.accepts, beq_iff_eq] at ha
  simp only [cmdTable, List.mem_cons, List.not_mem_nil, or_false] at hm
  have full : c &&& 0xFF#8 = c := BitVec.and_allOnes (w := 8)
  rcases hm with rfl | rfl | rfl | rfl | rfl | rfl | rfl | rfl
  all_goals simpa [cmdId, full] using ha.symm

/-- Eight different ids are one to one. -/
theorem cmdId_inj {ids : CmdIds} (h : ids.distinct = true) {k l : Cmd} (e : cmdId ids k = cmdId ids l) : k = l := by
  simp only [CmdIds.distinct, cmdTable, List.map, decide_eq_true_eq, List.nodup_cons, List.mem_cons, List.not_mem_nil,
    not_or, or_false, not_false_eq_true, List.nodup_nil, and_true] at h
  cases k <;> cases l <;> first | rfl | (simp only [cmdId] at e; rw [e] at h; simp at h)

/-- Under eight different ids, the id of a command selects that command. -/
theorem cmdOf_cmdId {ids : CmdIds} (h : ids.distinct = true) (k : Cmd) : cmdOf ids (cmdId ids k) = some k := by
  cases hc : cmdOf ids (cmdId ids k) with
  | some l => rw [cmdId_inj h (cmdId_of_cmdOf hc)]
  | none =>
    have full : ∀ c : Byte, c &&& 0xFF#8 = c := fun c => BitVec.and_allOnes (w := 8)
    simp only [cmdOf, Option.map_eq_none_iff, List.find?_eq_none] at hc
    cases k <;> simp [cmdTable, CmdRow.accepts, cmdId, full] at hc

theorem decodeCommand_cmdId {ids : CmdIds} (h : ids.distinct = true) (k : Cmd) (P : Bytes) :
    decodeCommand ids (cmdId ids k) P = .ok (commandInstr k P) := by
  simp [decodeCommand, cmdOf_cmdId h]

/-- The decoder gives an instruction for the eight ids only. -/
theorem decodeCommand_ok {ids : CmdIds} {c : Byte} {P : Bytes} {i : Instr} (h : decodeCommand ids c P = .ok i) :
    ∃ k, cmdId ids k = c ∧ i = commandInstr k P := by
  simp only [decodeCommand] at h
  split at h
  · next k hk => exact ⟨k, cmdId_of_cmdOf hk, by simpa using h.symm⟩
  · cases h

end Sys2Proof
end

