-- ==== Sys2Proof/Laws/State.lean ====
section
/-! SUPPORT. One lemma per field per update of `State`, each true by unfolding, so that no proof unfolds an update. -/

namespace Sys2Proof.Machine

section
variable (s : State)

/-! ### transact -/

@[simp] theorem State.transact_cfg (an : Answers) (t : PortTxn) : (s.transact an t).cfg = s.cfg := rfl
@[simp] theorem State.transact_run (an : Answers) (t : PortTxn) : (s.transact an t).run = s.run := rfl
@[simp] theorem State.transact_why (an : Answers) (t : PortTxn) : (s.transact an t).why = s.why := rfl
@[simp] theorem State.transact_maxPayload (an : Answers) (t : PortTxn) :
    (s.transact an t).maxPayload = s.maxPayload := rfl
@[simp] theorem State.transact_st (an : Answers) (t : PortTxn) : (s.transact an t).st = s.st := rfl
@[simp] theorem State.transact_idx (an : Answers) (t : PortTxn) : (s.transact an t).idx = s.idx := rfl
@[simp] theorem State.transact_hdr (an : Answers) (t : PortTxn) : (s.transact an t).hdr = s.hdr := rfl
@[simp] theorem State.transact_acc (an : Answers) (t : PortTxn) : (s.transact an t).acc = s.acc := rfl
@[simp] theorem State.transact_rcs (an : Answers) (t : PortTxn) : (s.transact an t).rcs = s.rcs := rfl
@[simp] theorem State.transact_drain (an : Answers) (t : PortTxn) : (s.transact an t).drain = s.drain := rfl
@[simp] theorem State.transact_tcmd (an : Answers) (t : PortTxn) : (s.transact an t).tcmd = s.tcmd := rfl
@[simp] theorem State.transact_tflags (an : Answers) (t : PortTxn) : (s.transact an t).tflags = s.tflags := rfl
@[simp] theorem State.transact_tlen (an : Answers) (t : PortTxn) : (s.transact an t).tlen = s.tlen := rfl
@[simp] theorem State.transact_rxbuf (an : Answers) (t : PortTxn) : (s.transact an t).rxbuf = s.rxbuf := rfl
@[simp] theorem State.transact_txbuf (an : Answers) (t : PortTxn) : (s.transact an t).txbuf = s.txbuf := rfl
@[simp] theorem State.transact_table (an : Answers) (t : PortTxn) : (s.transact an t).table = s.table := rfl
@[simp] theorem State.transact_q (an : Answers) (t : PortTxn) : (s.transact an t).q = s.q := rfl
@[simp] theorem State.transact_hung (an : Answers) (t : PortTxn) : (s.transact an t).hung = s.hung := rfl
@[simp] theorem State.transact_phase (an : Answers) (t : PortTxn) : (s.transact an t).phase = s.phase := rfl
@[simp] theorem State.transact_mem (an : Answers) (t : PortTxn) : (s.transact an t).mem = s.mem := rfl
@[simp] theorem State.transact_past (an : Answers) (t : PortTxn) : (s.transact an t).past = s.past := rfl
@[simp] theorem State.transact_dirty (an : Answers) (t : PortTxn) : (s.transact an t).dirty = s.dirty := rfl
@[simp] theorem State.transact_treq (an : Answers) (t : PortTxn) : (s.transact an t).treq = s.treq := rfl
@[simp] theorem State.transact_tres (an : Answers) (t : PortTxn) : (s.transact an t).tres = s.tres := rfl
@[simp] theorem State.transact_startRes (an : Answers) (t : PortTxn) : (s.transact an t).startRes = s.startRes := rfl
@[simp] theorem State.transact_link (an : Answers) (t : PortTxn) : (s.transact an t).link = s.link := rfl
@[simp] theorem State.transact_out (an : Answers) (t : PortTxn) : (s.transact an t).out = s.out := rfl
@[simp] theorem State.transact_turns (an : Answers) (t : PortTxn) : (s.transact an t).turns = s.turns := rfl
@[simp] theorem State.transact_ans (an : Answers) (t : PortTxn) : (s.transact an t).ans = an := rfl
@[simp] theorem State.transact_draws (an : Answers) (t : PortTxn) : (s.transact an t).draws = s.draws + 1 := rfl
@[simp] theorem State.transact_log (an : Answers) (t : PortTxn) : (s.transact an t).log = s.log ++ [t] := rfl
@[simp] theorem State.transact_ready (an : Answers) (t : PortTxn) : (s.transact an t).ready = s.ready := rfl
@[simp] theorem State.transact_lead (an : Answers) (t : PortTxn) : (s.transact an t).lead = s.lead := rfl

/-! ### goOn -/

@[simp] theorem State.goOn_cfg (p : Progress) : (s.goOn p).cfg = s.cfg := rfl
@[simp] theorem State.goOn_run (p : Progress) : (s.goOn p).run = s.run := rfl
@[simp] theorem State.goOn_why (p : Progress) : (s.goOn p).why = s.why := rfl
@[simp] theorem State.goOn_maxPayload (p : Progress) : (s.goOn p).maxPayload = s.maxPayload := rfl
@[simp] theorem State.goOn_st (p : Progress) : (s.goOn p).st = s.st := rfl
@[simp] theorem State.goOn_idx (p : Progress) : (s.goOn p).idx = s.idx := rfl
@[simp] theorem State.goOn_hdr (p : Progress) : (s.goOn p).hdr = s.hdr := rfl
@[simp] theorem State.goOn_acc (p : Progress) : (s.goOn p).acc = s.acc := rfl
@[simp] theorem State.goOn_rcs (p : Progress) : (s.goOn p).rcs = s.rcs := rfl
@[simp] theorem State.goOn_drain (p : Progress) : (s.goOn p).drain = s.drain := rfl
@[simp] theorem State.goOn_tcmd (p : Progress) : (s.goOn p).tcmd = s.tcmd := rfl
@[simp] theorem State.goOn_tflags (p : Progress) : (s.goOn p).tflags = s.tflags := rfl
@[simp] theorem State.goOn_tlen (p : Progress) : (s.goOn p).tlen = s.tlen := rfl
@[simp] theorem State.goOn_rxbuf (p : Progress) : (s.goOn p).rxbuf = s.rxbuf := rfl
@[simp] theorem State.goOn_txbuf (p : Progress) : (s.goOn p).txbuf = s.txbuf := rfl
@[simp] theorem State.goOn_table (p : Progress) : (s.goOn p).table = s.table := rfl
@[simp] theorem State.goOn_q (p : Progress) : (s.goOn p).q = s.q := rfl
@[simp] theorem State.goOn_hung (p : Progress) : (s.goOn p).hung = s.hung := rfl
@[simp] theorem State.goOn_phase (p : Progress) : (s.goOn p).phase = p := rfl
@[simp] theorem State.goOn_mem (p : Progress) : (s.goOn p).mem = s.mem := rfl
@[simp] theorem State.goOn_past (p : Progress) : (s.goOn p).past = s.past := rfl
@[simp] theorem State.goOn_dirty (p : Progress) : (s.goOn p).dirty = s.dirty := rfl
@[simp] theorem State.goOn_treq (p : Progress) : (s.goOn p).treq = s.treq := rfl
@[simp] theorem State.goOn_tres (p : Progress) : (s.goOn p).tres = s.tres := rfl
@[simp] theorem State.goOn_startRes (p : Progress) : (s.goOn p).startRes = s.startRes := rfl
@[simp] theorem State.goOn_link (p : Progress) : (s.goOn p).link = s.link := rfl
@[simp] theorem State.goOn_out (p : Progress) : (s.goOn p).out = s.out := rfl
@[simp] theorem State.goOn_turns (p : Progress) : (s.goOn p).turns = s.turns := rfl
@[simp] theorem State.goOn_ans (p : Progress) : (s.goOn p).ans = s.ans := rfl
@[simp] theorem State.goOn_draws (p : Progress) : (s.goOn p).draws = s.draws := rfl
@[simp] theorem State.goOn_log (p : Progress) : (s.goOn p).log = s.log := rfl
@[simp] theorem State.goOn_ready (p : Progress) : (s.goOn p).ready = s.ready := rfl
@[simp] theorem State.goOn_lead (p : Progress) : (s.goOn p).lead = s.lead := rfl

/-! ### storeCells -/

@[simp] theorem State.storeCells_cfg (cs : List Host.Cell) : (s.storeCells cs).cfg = s.cfg := rfl
@[simp] theorem State.storeCells_run (cs : List Host.Cell) : (s.storeCells cs).run = s.run := rfl
@[simp] theorem State.storeCells_why (cs : List Host.Cell) : (s.storeCells cs).why = s.why := rfl
@[simp] theorem State.storeCells_maxPayload (cs : List Host.Cell) : (s.storeCells cs).maxPayload = s.maxPayload := rfl
@[simp] theorem State.storeCells_st (cs : List Host.Cell) : (s.storeCells cs).st = s.st := rfl
@[simp] theorem State.storeCells_idx (cs : List Host.Cell) : (s.storeCells cs).idx = s.idx := rfl
@[simp] theorem State.storeCells_hdr (cs : List Host.Cell) : (s.storeCells cs).hdr = s.hdr := rfl
@[simp] theorem State.storeCells_acc (cs : List Host.Cell) : (s.storeCells cs).acc = s.acc := rfl
@[simp] theorem State.storeCells_rcs (cs : List Host.Cell) : (s.storeCells cs).rcs = s.rcs := rfl
@[simp] theorem State.storeCells_drain (cs : List Host.Cell) : (s.storeCells cs).drain = s.drain := rfl
@[simp] theorem State.storeCells_tcmd (cs : List Host.Cell) : (s.storeCells cs).tcmd = s.tcmd := rfl
@[simp] theorem State.storeCells_tflags (cs : List Host.Cell) : (s.storeCells cs).tflags = s.tflags := rfl
@[simp] theorem State.storeCells_tlen (cs : List Host.Cell) : (s.storeCells cs).tlen = s.tlen := rfl
@[simp] theorem State.storeCells_rxbuf (cs : List Host.Cell) : (s.storeCells cs).rxbuf = s.rxbuf := rfl
@[simp] theorem State.storeCells_txbuf (cs : List Host.Cell) : (s.storeCells cs).txbuf = s.txbuf := rfl
@[simp] theorem State.storeCells_table (cs : List Host.Cell) : (s.storeCells cs).table = s.table := rfl
@[simp] theorem State.storeCells_q (cs : List Host.Cell) : (s.storeCells cs).q = s.q := rfl
@[simp] theorem State.storeCells_hung (cs : List Host.Cell) : (s.storeCells cs).hung = s.hung := rfl
@[simp] theorem State.storeCells_phase (cs : List Host.Cell) : (s.storeCells cs).phase = s.phase := rfl
@[simp] theorem State.storeCells_mem (cs : List Host.Cell) : (s.storeCells cs).mem = s.mem.storeAll cs := rfl
@[simp] theorem State.storeCells_past (cs : List Host.Cell) : (s.storeCells cs).past = pastAll s.mem s.past cs := rfl
@[simp] theorem State.storeCells_dirty (cs : List Host.Cell) : (s.storeCells cs).dirty = dirtyAll s.dirty cs := rfl
@[simp] theorem State.storeCells_treq (cs : List Host.Cell) : (s.storeCells cs).treq = s.treq := rfl
@[simp] theorem State.storeCells_tres (cs : List Host.Cell) : (s.storeCells cs).tres = s.tres := rfl
@[simp] theorem State.storeCells_startRes (cs : List Host.Cell) : (s.storeCells cs).startRes = s.startRes := rfl
@[simp] theorem State.storeCells_link (cs : List Host.Cell) : (s.storeCells cs).link = s.link := rfl
@[simp] theorem State.storeCells_out (cs : List Host.Cell) : (s.storeCells cs).out = s.out := rfl
@[simp] theorem State.storeCells_turns (cs : List Host.Cell) : (s.storeCells cs).turns = s.turns := rfl
@[simp] theorem State.storeCells_ans (cs : List Host.Cell) : (s.storeCells cs).ans = s.ans := rfl
@[simp] theorem State.storeCells_draws (cs : List Host.Cell) : (s.storeCells cs).draws = s.draws := rfl
@[simp] theorem State.storeCells_log (cs : List Host.Cell) : (s.storeCells cs).log = s.log := rfl
@[simp] theorem State.storeCells_ready (cs : List Host.Cell) : (s.storeCells cs).ready = s.ready := rfl
@[simp] theorem State.storeCells_lead (cs : List Host.Cell) : (s.storeCells cs).lead = s.lead := rfl

/-! ### callFree -/

@[simp] theorem State.callFree_cfg (a : Word) : (s.callFree a).cfg = s.cfg := rfl
@[simp] theorem State.callFree_run (a : Word) : (s.callFree a).run = s.run := rfl
@[simp] theorem State.callFree_why (a : Word) : (s.callFree a).why = s.why := rfl
@[simp] theorem State.callFree_maxPayload (a : Word) : (s.callFree a).maxPayload = s.maxPayload := rfl
@[simp] theorem State.callFree_st (a : Word) : (s.callFree a).st = s.st := rfl
@[simp] theorem State.callFree_idx (a : Word) : (s.callFree a).idx = s.idx := rfl
@[simp] theorem State.callFree_hdr (a : Word) : (s.callFree a).hdr = s.hdr := rfl
@[simp] theorem State.callFree_acc (a : Word) : (s.callFree a).acc = s.acc := rfl
@[simp] theorem State.callFree_rcs (a : Word) : (s.callFree a).rcs = s.rcs := rfl
@[simp] theorem State.callFree_drain (a : Word) : (s.callFree a).drain = s.drain := rfl
@[simp] theorem State.callFree_tcmd (a : Word) : (s.callFree a).tcmd = s.tcmd := rfl
@[simp] theorem State.callFree_tflags (a : Word) : (s.callFree a).tflags = s.tflags := rfl
@[simp] theorem State.callFree_tlen (a : Word) : (s.callFree a).tlen = s.tlen := rfl
@[simp] theorem State.callFree_rxbuf (a : Word) : (s.callFree a).rxbuf = s.rxbuf := rfl
@[simp] theorem State.callFree_txbuf (a : Word) : (s.callFree a).txbuf = s.txbuf := rfl
@[simp] theorem State.callFree_table (a : Word) : (s.callFree a).table = s.table := rfl
@[simp] theorem State.callFree_q (a : Word) : (s.callFree a).q = s.q := rfl
@[simp] theorem State.callFree_hung (a : Word) : (s.callFree a).hung = s.hung := rfl
@[simp] theorem State.callFree_phase (a : Word) : (s.callFree a).phase = s.phase := rfl
@[simp] theorem State.callFree_mem (a : Word) : (s.callFree a).mem = s.mem := rfl
@[simp] theorem State.callFree_past (a : Word) : (s.callFree a).past = s.past := rfl
@[simp] theorem State.callFree_dirty (a : Word) : (s.callFree a).dirty = s.dirty := rfl
@[simp] theorem State.callFree_treq (a : Word) : (s.callFree a).treq = s.treq := rfl
@[simp] theorem State.callFree_tres (a : Word) : (s.callFree a).tres = s.tres := rfl
@[simp] theorem State.callFree_startRes (a : Word) : (s.callFree a).startRes = s.startRes := rfl
@[simp] theorem State.callFree_link (a : Word) : (s.callFree a).link = s.link := rfl
@[simp] theorem State.callFree_out (a : Word) : (s.callFree a).out = s.out := rfl
@[simp] theorem State.callFree_turns (a : Word) : (s.callFree a).turns = s.turns := rfl
@[simp] theorem State.callFree_ans (a : Word) : (s.callFree a).ans = s.ans := rfl
@[simp] theorem State.callFree_draws (a : Word) : (s.callFree a).draws = s.draws := rfl
@[simp] theorem State.callFree_log (a : Word) : (s.callFree a).log = s.log ++ [.free a] := rfl
@[simp] theorem State.callFree_ready (a : Word) : (s.callFree a).ready = s.ready := rfl
@[simp] theorem State.callFree_lead (a : Word) : (s.callFree a).lead = s.lead := rfl

/-! ### lookupAdd -/

@[simp] theorem State.lookupAdd_cfg (a sz : Word) : (s.lookupAdd a sz).cfg = s.cfg := rfl
@[simp] theorem State.lookupAdd_run (a sz : Word) : (s.lookupAdd a sz).run = s.run := rfl
@[simp] theorem State.lookupAdd_why (a sz : Word) : (s.lookupAdd a sz).why = s.why := rfl
@[simp] theorem State.lookupAdd_maxPayload (a sz : Word) : (s.lookupAdd a sz).maxPayload = s.maxPayload := rfl
@[simp] theorem State.lookupAdd_st (a sz : Word) : (s.lookupAdd a sz).st = s.st := rfl
@[simp] theorem State.lookupAdd_idx (a sz : Word) : (s.lookupAdd a sz).idx = s.idx := rfl
@[simp] theorem State.lookupAdd_hdr (a sz : Word) : (s.lookupAdd a sz).hdr = s.hdr := rfl
@[simp] theorem State.lookupAdd_acc (a sz : Word) : (s.lookupAdd a sz).acc = s.acc := rfl
@[simp] theorem State.lookupAdd_rcs (a sz : Word) : (s.lookupAdd a sz).rcs = s.rcs := rfl
@[simp] theorem State.lookupAdd_drain (a sz : Word) : (s.lookupAdd a sz).drain = s.drain := rfl
@[simp] theorem State.lookupAdd_tcmd (a sz : Word) : (s.lookupAdd a sz).tcmd = s.tcmd := rfl
@[simp] theorem State.lookupAdd_tflags (a sz : Word) : (s.lookupAdd a sz).tflags = s.tflags := rfl
@[simp] theorem State.lookupAdd_tlen (a sz : Word) : (s.lookupAdd a sz).tlen = s.tlen := rfl
@[simp] theorem State.lookupAdd_rxbuf (a sz : Word) : (s.lookupAdd a sz).rxbuf = s.rxbuf := rfl
@[simp] theorem State.lookupAdd_txbuf (a sz : Word) : (s.lookupAdd a sz).txbuf = s.txbuf := rfl
@[simp] theorem State.lookupAdd_table (a sz : Word) :
    (s.lookupAdd a sz).table = (tableAdd s.table a sz).getD s.table := rfl
@[simp] theorem State.lookupAdd_q (a sz : Word) : (s.lookupAdd a sz).q = s.q := rfl
@[simp] theorem State.lookupAdd_hung (a sz : Word) : (s.lookupAdd a sz).hung = s.hung := rfl
@[simp] theorem State.lookupAdd_phase (a sz : Word) : (s.lookupAdd a sz).phase = s.phase := rfl
@[simp] theorem State.lookupAdd_mem (a sz : Word) : (s.lookupAdd a sz).mem = s.mem := rfl
@[simp] theorem State.lookupAdd_past (a sz : Word) : (s.lookupAdd a sz).past = s.past := rfl
@[simp] theorem State.lookupAdd_dirty (a sz : Word) : (s.lookupAdd a sz).dirty = s.dirty := rfl
@[simp] theorem State.lookupAdd_treq (a sz : Word) : (s.lookupAdd a sz).treq = s.treq := rfl
@[simp] theorem State.lookupAdd_tres (a sz : Word) :
    (s.lookupAdd a sz).tres = if (tableAdd s.table a sz).isSome then .ok else .tableFull := rfl
@[simp] theorem State.lookupAdd_startRes (a sz : Word) : (s.lookupAdd a sz).startRes = s.startRes := rfl
@[simp] theorem State.lookupAdd_link (a sz : Word) : (s.lookupAdd a sz).link = s.link := rfl
@[simp] theorem State.lookupAdd_out (a sz : Word) : (s.lookupAdd a sz).out = s.out := rfl
@[simp] theorem State.lookupAdd_turns (a sz : Word) : (s.lookupAdd a sz).turns = s.turns := rfl
@[simp] theorem State.lookupAdd_ans (a sz : Word) : (s.lookupAdd a sz).ans = s.ans := rfl
@[simp] theorem State.lookupAdd_draws (a sz : Word) : (s.lookupAdd a sz).draws = s.draws := rfl
@[simp] theorem State.lookupAdd_log (a sz : Word) : (s.lookupAdd a sz).log = s.log := rfl
@[simp] theorem State.lookupAdd_ready (a sz : Word) : (s.lookupAdd a sz).ready = s.ready := rfl
@[simp] theorem State.lookupAdd_lead (a sz : Word) : (s.lookupAdd a sz).lead = s.lead := rfl

/-! ### lookupRemove -/

@[simp] theorem State.lookupRemove_cfg (a : Word) : (s.lookupRemove a).cfg = s.cfg := rfl
@[simp] theorem State.lookupRemove_run (a : Word) : (s.lookupRemove a).run = s.run := rfl
@[simp] theorem State.lookupRemove_why (a : Word) : (s.lookupRemove a).why = s.why := rfl
@[simp] theorem State.lookupRemove_maxPayload (a : Word) : (s.lookupRemove a).maxPayload = s.maxPayload := rfl
@[simp] theorem State.lookupRemove_st (a : Word) : (s.lookupRemove a).st = s.st := rfl
@[simp] theorem State.lookupRemove_idx (a : Word) : (s.lookupRemove a).idx = s.idx := rfl
@[simp] theorem State.lookupRemove_hdr (a : Word) : (s.lookupRemove a).hdr = s.hdr := rfl
@[simp] theorem State.lookupRemove_acc (a : Word) : (s.lookupRemove a).acc = s.acc := rfl
@[simp] theorem State.lookupRemove_rcs (a : Word) : (s.lookupRemove a).rcs = s.rcs := rfl
@[simp] theorem State.lookupRemove_drain (a : Word) : (s.lookupRemove a).drain = s.drain := rfl
@[simp] theorem State.lookupRemove_tcmd (a : Word) : (s.lookupRemove a).tcmd = s.tcmd := rfl
@[simp] theorem State.lookupRemove_tflags (a : Word) : (s.lookupRemove a).tflags = s.tflags := rfl
@[simp] theorem State.lookupRemove_tlen (a : Word) : (s.lookupRemove a).tlen = s.tlen := rfl
@[simp] theorem State.lookupRemove_rxbuf (a : Word) : (s.lookupRemove a).rxbuf = s.rxbuf := rfl
@[simp] theorem State.lookupRemove_txbuf (a : Word) : (s.lookupRemove a).txbuf = s.txbuf := rfl
@[simp] theorem State.lookupRemove_table (a : Word) :
    (s.lookupRemove a).table = (tableRemove s.table a).getD s.table := rfl
@[simp] theorem State.lookupRemove_q (a : Word) : (s.lookupRemove a).q = s.q := rfl
@[simp] theorem State.lookupRemove_hung (a : Word) : (s.lookupRemove a).hung = s.hung := rfl
@[simp] theorem State.lookupRemove_phase (a : Word) : (s.lookupRemove a).phase = s.phase := rfl
@[simp] theorem State.lookupRemove_mem (a : Word) : (s.lookupRemove a).mem = s.mem := rfl
@[simp] theorem State.lookupRemove_past (a : Word) : (s.lookupRemove a).past = s.past := rfl
@[simp] theorem State.lookupRemove_dirty (a : Word) : (s.lookupRemove a).dirty = s.dirty := rfl
@[simp] theorem State.lookupRemove_treq (a : Word) : (s.lookupRemove a).treq = s.treq := rfl
@[simp] theorem State.lookupRemove_tres (a : Word) :
    (s.lookupRemove a).tres = if (tableRemove s.table a).isSome then .found else .notFound := rfl
@[simp] theorem State.lookupRemove_startRes (a : Word) : (s.lookupRemove a).startRes = s.startRes := rfl
@[simp] theorem State.lookupRemove_link (a : Word) : (s.lookupRemove a).link = s.link := rfl
@[simp] theorem State.lookupRemove_out (a : Word) : (s.lookupRemove a).out = s.out := rfl
@[simp] theorem State.lookupRemove_turns (a : Word) : (s.lookupRemove a).turns = s.turns := rfl
@[simp] theorem State.lookupRemove_ans (a : Word) : (s.lookupRemove a).ans = s.ans := rfl
@[simp] theorem State.lookupRemove_draws (a : Word) : (s.lookupRemove a).draws = s.draws := rfl
@[simp] theorem State.lookupRemove_log (a : Word) : (s.lookupRemove a).log = s.log := rfl
@[simp] theorem State.lookupRemove_ready (a : Word) : (s.lookupRemove a).ready = s.ready := rfl
@[simp] theorem State.lookupRemove_lead (a : Word) : (s.lookupRemove a).lead = s.lead := rfl

/-! ### lookupContains -/

@[simp] theorem State.lookupContains_cfg (a : Word) : (s.lookupContains a).cfg = s.cfg := rfl
@[simp] theorem State.lookupContains_run (a : Word) : (s.lookupContains a).run = s.run := rfl
@[simp] theorem State.lookupContains_why (a : Word) : (s.lookupContains a).why = s.why := rfl
@[simp] theorem State.lookupContains_maxPayload (a : Word) : (s.lookupContains a).maxPayload = s.maxPayload := rfl
@[simp] theorem State.lookupContains_st (a : Word) : (s.lookupContains a).st = s.st := rfl
@[simp] theorem State.lookupContains_idx (a : Word) : (s.lookupContains a).idx = s.idx := rfl
@[simp] theorem State.lookupContains_hdr (a : Word) : (s.lookupContains a).hdr = s.hdr := rfl
@[simp] theorem State.lookupContains_acc (a : Word) : (s.lookupContains a).acc = s.acc := rfl
@[simp] theorem State.lookupContains_rcs (a : Word) : (s.lookupContains a).rcs = s.rcs := rfl
@[simp] theorem State.lookupContains_drain (a : Word) : (s.lookupContains a).drain = s.drain := rfl
@[simp] theorem State.lookupContains_tcmd (a : Word) : (s.lookupContains a).tcmd = s.tcmd := rfl
@[simp] theorem State.lookupContains_tflags (a : Word) : (s.lookupContains a).tflags = s.tflags := rfl
@[simp] theorem State.lookupContains_tlen (a : Word) : (s.lookupContains a).tlen = s.tlen := rfl
@[simp] theorem State.lookupContains_rxbuf (a : Word) : (s.lookupContains a).rxbuf = s.rxbuf := rfl
@[simp] theorem State.lookupContains_txbuf (a : Word) : (s.lookupContains a).txbuf = s.txbuf := rfl
@[simp] theorem State.lookupContains_table (a : Word) : (s.lookupContains a).table = s.table := rfl
@[simp] theorem State.lookupContains_q (a : Word) : (s.lookupContains a).q = s.q := rfl
@[simp] theorem State.lookupContains_hung (a : Word) : (s.lookupContains a).hung = s.hung := rfl
@[simp] theorem State.lookupContains_phase (a : Word) : (s.lookupContains a).phase = s.phase := rfl
@[simp] theorem State.lookupContains_mem (a : Word) : (s.lookupContains a).mem = s.mem := rfl
@[simp] theorem State.lookupContains_past (a : Word) : (s.lookupContains a).past = s.past := rfl
@[simp] theorem State.lookupContains_dirty (a : Word) : (s.lookupContains a).dirty = s.dirty := rfl
@[simp] theorem State.lookupContains_treq (a : Word) : (s.lookupContains a).treq = s.treq := rfl
@[simp] theorem State.lookupContains_tres (a : Word) : (s.lookupContains a).tres = .bit (tableContains s.table a) := rfl
@[simp] theorem State.lookupContains_startRes (a : Word) : (s.lookupContains a).startRes = s.startRes := rfl
@[simp] theorem State.lookupContains_link (a : Word) : (s.lookupContains a).link = s.link := rfl
@[simp] theorem State.lookupContains_out (a : Word) : (s.lookupContains a).out = s.out := rfl
@[simp] theorem State.lookupContains_turns (a : Word) : (s.lookupContains a).turns = s.turns := rfl
@[simp] theorem State.lookupContains_ans (a : Word) : (s.lookupContains a).ans = s.ans := rfl
@[simp] theorem State.lookupContains_draws (a : Word) : (s.lookupContains a).draws = s.draws := rfl
@[simp] theorem State.lookupContains_log (a : Word) : (s.lookupContains a).log = s.log := rfl
@[simp] theorem State.lookupContains_ready (a : Word) : (s.lookupContains a).ready = s.ready := rfl
@[simp] theorem State.lookupContains_lead (a : Word) : (s.lookupContains a).lead = s.lead := rfl

/-! ### lookupValidate -/

@[simp] theorem State.lookupValidate_cfg (a n : Nat) : (s.lookupValidate a n).cfg = s.cfg := rfl
@[simp] theorem State.lookupValidate_run (a n : Nat) : (s.lookupValidate a n).run = s.run := rfl
@[simp] theorem State.lookupValidate_why (a n : Nat) : (s.lookupValidate a n).why = s.why := rfl
@[simp] theorem State.lookupValidate_maxPayload (a n : Nat) : (s.lookupValidate a n).maxPayload = s.maxPayload := rfl
@[simp] theorem State.lookupValidate_st (a n : Nat) : (s.lookupValidate a n).st = s.st := rfl
@[simp] theorem State.lookupValidate_idx (a n : Nat) : (s.lookupValidate a n).idx = s.idx := rfl
@[simp] theorem State.lookupValidate_hdr (a n : Nat) : (s.lookupValidate a n).hdr = s.hdr := rfl
@[simp] theorem State.lookupValidate_acc (a n : Nat) : (s.lookupValidate a n).acc = s.acc := rfl
@[simp] theorem State.lookupValidate_rcs (a n : Nat) : (s.lookupValidate a n).rcs = s.rcs := rfl
@[simp] theorem State.lookupValidate_drain (a n : Nat) : (s.lookupValidate a n).drain = s.drain := rfl
@[simp] theorem State.lookupValidate_tcmd (a n : Nat) : (s.lookupValidate a n).tcmd = s.tcmd := rfl
@[simp] theorem State.lookupValidate_tflags (a n : Nat) : (s.lookupValidate a n).tflags = s.tflags := rfl
@[simp] theorem State.lookupValidate_tlen (a n : Nat) : (s.lookupValidate a n).tlen = s.tlen := rfl
@[simp] theorem State.lookupValidate_rxbuf (a n : Nat) : (s.lookupValidate a n).rxbuf = s.rxbuf := rfl
@[simp] theorem State.lookupValidate_txbuf (a n : Nat) : (s.lookupValidate a n).txbuf = s.txbuf := rfl
@[simp] theorem State.lookupValidate_table (a n : Nat) : (s.lookupValidate a n).table = s.table := rfl
@[simp] theorem State.lookupValidate_q (a n : Nat) : (s.lookupValidate a n).q = s.q := rfl
@[simp] theorem State.lookupValidate_hung (a n : Nat) : (s.lookupValidate a n).hung = s.hung := rfl
@[simp] theorem State.lookupValidate_phase (a n : Nat) : (s.lookupValidate a n).phase = s.phase := rfl
@[simp] theorem State.lookupValidate_mem (a n : Nat) : (s.lookupValidate a n).mem = s.mem := rfl
@[simp] theorem State.lookupValidate_past (a n : Nat) : (s.lookupValidate a n).past = s.past := rfl
@[simp] theorem State.lookupValidate_dirty (a n : Nat) : (s.lookupValidate a n).dirty = s.dirty := rfl
@[simp] theorem State.lookupValidate_treq (a n : Nat) : (s.lookupValidate a n).treq = s.treq := rfl
@[simp] theorem State.lookupValidate_tres (a n : Nat) :
    (s.lookupValidate a n).tres = .bit (tableValidate s.table a n) := rfl
@[simp] theorem State.lookupValidate_startRes (a n : Nat) : (s.lookupValidate a n).startRes = s.startRes := rfl
@[simp] theorem State.lookupValidate_link (a n : Nat) : (s.lookupValidate a n).link = s.link := rfl
@[simp] theorem State.lookupValidate_out (a n : Nat) : (s.lookupValidate a n).out = s.out := rfl
@[simp] theorem State.lookupValidate_turns (a n : Nat) : (s.lookupValidate a n).turns = s.turns := rfl
@[simp] theorem State.lookupValidate_ans (a n : Nat) : (s.lookupValidate a n).ans = s.ans := rfl
@[simp] theorem State.lookupValidate_draws (a n : Nat) : (s.lookupValidate a n).draws = s.draws := rfl
@[simp] theorem State.lookupValidate_log (a n : Nat) : (s.lookupValidate a n).log = s.log := rfl
@[simp] theorem State.lookupValidate_ready (a n : Nat) : (s.lookupValidate a n).ready = s.ready := rfl
@[simp] theorem State.lookupValidate_lead (a n : Nat) : (s.lookupValidate a n).lead = s.lead := rfl

/-! ### respondWith -/

@[simp] theorem State.respondWith_cfg (c f : Byte) (p : Bytes) : (s.respondWith c f p).cfg = s.cfg := rfl
@[simp] theorem State.respondWith_run (c f : Byte) (p : Bytes) : (s.respondWith c f p).run = s.run := rfl
@[simp] theorem State.respondWith_why (c f : Byte) (p : Bytes) : (s.respondWith c f p).why = s.why := rfl
@[simp] theorem State.respondWith_maxPayload (c f : Byte) (p : Bytes) :
    (s.respondWith c f p).maxPayload = s.maxPayload := rfl
@[simp] theorem State.respondWith_st (c f : Byte) (p : Bytes) : (s.respondWith c f p).st = .respond := rfl
@[simp] theorem State.respondWith_idx (c f : Byte) (p : Bytes) : (s.respondWith c f p).idx = s.idx := rfl
@[simp] theorem State.respondWith_hdr (c f : Byte) (p : Bytes) : (s.respondWith c f p).hdr = s.hdr := rfl
@[simp] theorem State.respondWith_acc (c f : Byte) (p : Bytes) : (s.respondWith c f p).acc = s.acc := rfl
@[simp] theorem State.respondWith_rcs (c f : Byte) (p : Bytes) : (s.respondWith c f p).rcs = s.rcs := rfl
@[simp] theorem State.respondWith_drain (c f : Byte) (p : Bytes) : (s.respondWith c f p).drain = s.drain := rfl
@[simp] theorem State.respondWith_tcmd (c f : Byte) (p : Bytes) : (s.respondWith c f p).tcmd = c := rfl
@[simp] theorem State.respondWith_tflags (c f : Byte) (p : Bytes) : (s.respondWith c f p).tflags = f := rfl
@[simp] theorem State.respondWith_tlen (c f : Byte) (p : Bytes) : (s.respondWith c f p).tlen = p.length := rfl
@[simp] theorem State.respondWith_rxbuf (c f : Byte) (p : Bytes) : (s.respondWith c f p).rxbuf = s.rxbuf := rfl
@[simp] theorem State.respondWith_txbuf (c f : Byte) (p : Bytes) :
    (s.respondWith c f p).txbuf = p ++ s.txbuf.drop p.length := rfl
@[simp] theorem State.respondWith_table (c f : Byte) (p : Bytes) : (s.respondWith c f p).table = s.table := rfl
@[simp] theorem State.respondWith_q (c f : Byte) (p : Bytes) : (s.respondWith c f p).q = s.q := rfl
@[simp] theorem State.respondWith_hung (c f : Byte) (p : Bytes) : (s.respondWith c f p).hung = s.hung := rfl
@[simp] theorem State.respondWith_phase (c f : Byte) (p : Bytes) : (s.respondWith c f p).phase = .fresh := rfl
@[simp] theorem State.respondWith_mem (c f : Byte) (p : Bytes) : (s.respondWith c f p).mem = s.mem := rfl
@[simp] theorem State.respondWith_past (c f : Byte) (p : Bytes) : (s.respondWith c f p).past = s.past := rfl
@[simp] theorem State.respondWith_dirty (c f : Byte) (p : Bytes) : (s.respondWith c f p).dirty = s.dirty := rfl
@[simp] theorem State.respondWith_treq (c f : Byte) (p : Bytes) : (s.respondWith c f p).treq = s.treq := rfl
@[simp] theorem State.respondWith_tres (c f : Byte) (p : Bytes) : (s.respondWith c f p).tres = s.tres := rfl
@[simp] theorem State.respondWith_startRes (c f : Byte) (p : Bytes) : (s.respondWith c f p).startRes = s.startRes := rfl
@[simp] theorem State.respondWith_link (c f : Byte) (p : Bytes) : (s.respondWith c f p).link = s.link := rfl
@[simp] theorem State.respondWith_out (c f : Byte) (p : Bytes) : (s.respondWith c f p).out = s.out := rfl
@[simp] theorem State.respondWith_turns (c f : Byte) (p : Bytes) : (s.respondWith c f p).turns = s.turns := rfl
@[simp] theorem State.respondWith_ans (c f : Byte) (p : Bytes) : (s.respondWith c f p).ans = s.ans := rfl
@[simp] theorem State.respondWith_draws (c f : Byte) (p : Bytes) : (s.respondWith c f p).draws = s.draws := rfl
@[simp] theorem State.respondWith_log (c f : Byte) (p : Bytes) : (s.respondWith c f p).log = s.log := rfl
@[simp] theorem State.respondWith_ready (c f : Byte) (p : Bytes) : (s.respondWith c f p).ready = s.ready := rfl
@[simp] theorem State.respondWith_lead (c f : Byte) (p : Bytes) : (s.respondWith c f p).lead = s.lead := rfl

/-! ### takeFault -/

@[simp] theorem State.takeFault_cfg (a : Word) (d : AccessDir) : (s.takeFault a d).cfg = s.cfg := rfl
@[simp] theorem State.takeFault_run (a : Word) (d : AccessDir) : (s.takeFault a d).run = .faulted := rfl
@[simp] theorem State.takeFault_why (a : Word) (d : AccessDir) : (s.takeFault a d).why = some ⟨a, d⟩ := rfl
@[simp] theorem State.takeFault_maxPayload (a : Word) (d : AccessDir) :
    (s.takeFault a d).maxPayload = s.maxPayload := rfl
@[simp] theorem State.takeFault_st (a : Word) (d : AccessDir) : (s.takeFault a d).st = s.st := rfl
@[simp] theorem State.takeFault_idx (a : Word) (d : AccessDir) : (s.takeFault a d).idx = s.idx := rfl
@[simp] theorem State.takeFault_hdr (a : Word) (d : AccessDir) : (s.takeFault a d).hdr = s.hdr := rfl
@[simp] theorem State.takeFault_acc (a : Word) (d : AccessDir) : (s.takeFault a d).acc = s.acc := rfl
@[simp] theorem State.takeFault_rcs (a : Word) (d : AccessDir) : (s.takeFault a d).rcs = s.rcs := rfl
@[simp] theorem State.takeFault_drain (a : Word) (d : AccessDir) : (s.takeFault a d).drain = s.drain := rfl
@[simp] theorem State.takeFault_tcmd (a : Word) (d : AccessDir) : (s.takeFault a d).tcmd = s.tcmd := rfl
@[simp] theorem State.takeFault_tflags (a : Word) (d : AccessDir) : (s.takeFault a d).tflags = s.tflags := rfl
@[simp] theorem State.takeFault_tlen (a : Word) (d : AccessDir) : (s.takeFault a d).tlen = s.tlen := rfl
@[simp] theorem State.takeFault_rxbuf (a : Word) (d : AccessDir) : (s.takeFault a d).rxbuf = s.rxbuf := rfl
@[simp] theorem State.takeFault_txbuf (a : Word) (d : AccessDir) : (s.takeFault a d).txbuf = s.txbuf := rfl
@[simp] theorem State.takeFault_table (a : Word) (d : AccessDir) : (s.takeFault a d).table = s.table := rfl
@[simp] theorem State.takeFault_q (a : Word) (d : AccessDir) : (s.takeFault a d).q = s.q := rfl
@[simp] theorem State.takeFault_hung (a : Word) (d : AccessDir) : (s.takeFault a d).hung = s.hung := rfl
@[simp] theorem State.takeFault_phase (a : Word) (d : AccessDir) : (s.takeFault a d).phase = .fresh := rfl
@[simp] theorem State.takeFault_mem (a : Word) (d : AccessDir) : (s.takeFault a d).mem = s.mem := rfl
@[simp] theorem State.takeFault_past (a : Word) (d : AccessDir) : (s.takeFault a d).past = s.past := rfl
@[simp] theorem State.takeFault_dirty (a : Word) (d : AccessDir) : (s.takeFault a d).dirty = s.dirty := rfl
@[simp] theorem State.takeFault_treq (a : Word) (d : AccessDir) : (s.takeFault a d).treq = s.treq := rfl
@[simp] theorem State.takeFault_tres (a : Word) (d : AccessDir) : (s.takeFault a d).tres = s.tres := rfl
@[simp] theorem State.takeFault_startRes (a : Word) (d : AccessDir) : (s.takeFault a d).startRes = s.startRes := rfl
@[simp] theorem State.takeFault_link (a : Word) (d : AccessDir) : (s.takeFault a d).link = s.link := rfl
@[simp] theorem State.takeFault_out (a : Word) (d : AccessDir) : (s.takeFault a d).out = s.out := rfl
@[simp] theorem State.takeFault_turns (a : Word) (d : AccessDir) : (s.takeFault a d).turns = s.turns := rfl
@[simp] theorem State.takeFault_ans (a : Word) (d : AccessDir) : (s.takeFault a d).ans = s.ans := rfl
@[simp] theorem State.takeFault_draws (a : Word) (d : AccessDir) : (s.takeFault a d).draws = s.draws := rfl
@[simp] theorem State.takeFault_log (a : Word) (d : AccessDir) : (s.takeFault a d).log = s.log := rfl
@[simp] theorem State.takeFault_ready (a : Word) (d : AccessDir) : (s.takeFault a d).ready = s.ready := rfl
@[simp] theorem State.takeFault_lead (a : Word) (d : AccessDir) : (s.takeFault a d).lead = s.lead := rfl

/-! ### callSync -/

@[simp] theorem State.callSync_cfg (start len : Nat) : (s.callSync start len).cfg = s.cfg := rfl
@[simp] theorem State.callSync_run (start len : Nat) : (s.callSync start len).run = s.run := rfl
@[simp] theorem State.callSync_why (start len : Nat) : (s.callSync start len).why = s.why := rfl
@[simp] theorem State.callSync_maxPayload (start len : Nat) : (s.callSync start len).maxPayload = s.maxPayload := rfl
@[simp] theorem State.callSync_st (start len : Nat) : (s.callSync start len).st = s.st := rfl
@[simp] theorem State.callSync_idx (start len : Nat) : (s.callSync start len).idx = s.idx := rfl
@[simp] theorem State.callSync_hdr (start len : Nat) : (s.callSync start len).hdr = s.hdr := rfl
@[simp] theorem State.callSync_acc (start len : Nat) : (s.callSync start len).acc = s.acc := rfl
@[simp] theorem State.callSync_rcs (start len : Nat) : (s.callSync start len).rcs = s.rcs := rfl
@[simp] theorem State.callSync_drain (start len : Nat) : (s.callSync start len).drain = s.drain := rfl
@[simp] theorem State.callSync_tcmd (start len : Nat) : (s.callSync start len).tcmd = s.tcmd := rfl
@[simp] theorem State.callSync_tflags (start len : Nat) : (s.callSync start len).tflags = s.tflags := rfl
@[simp] theorem State.callSync_tlen (start len : Nat) : (s.callSync start len).tlen = s.tlen := rfl
@[simp] theorem State.callSync_rxbuf (start len : Nat) : (s.callSync start len).rxbuf = s.rxbuf := rfl
@[simp] theorem State.callSync_txbuf (start len : Nat) : (s.callSync start len).txbuf = s.txbuf := rfl
@[simp] theorem State.callSync_table (start len : Nat) : (s.callSync start len).table = s.table := rfl
@[simp] theorem State.callSync_q (start len : Nat) : (s.callSync start len).q = s.q := rfl
@[simp] theorem State.callSync_hung (start len : Nat) : (s.callSync start len).hung = s.hung := rfl
@[simp] theorem State.callSync_phase (start len : Nat) : (s.callSync start len).phase = s.phase := rfl
@[simp] theorem State.callSync_mem (start len : Nat) : (s.callSync start len).mem = s.mem := rfl
@[simp] theorem State.callSync_past (start len : Nat) : (s.callSync start len).past = s.past := rfl
@[simp] theorem State.callSync_dirty (start len : Nat) :
    (s.callSync start len).dirty = if s.syncAnswer then dirtyDrop start len s.dirty else s.dirty := rfl
@[simp] theorem State.callSync_treq (start len : Nat) : (s.callSync start len).treq = s.treq := rfl
@[simp] theorem State.callSync_tres (start len : Nat) : (s.callSync start len).tres = s.tres := rfl
@[simp] theorem State.callSync_startRes (start len : Nat) : (s.callSync start len).startRes = s.startRes := rfl
@[simp] theorem State.callSync_link (start len : Nat) : (s.callSync start len).link = s.link := rfl
@[simp] theorem State.callSync_out (start len : Nat) : (s.callSync start len).out = s.out := rfl
@[simp] theorem State.callSync_turns (start len : Nat) : (s.callSync start len).turns = s.turns := rfl
@[simp] theorem State.callSync_ans (start len : Nat) :
    (s.callSync start len).ans = { s.ans with syncs := s.ans.syncs.tail } := rfl
@[simp] theorem State.callSync_draws (start len : Nat) : (s.callSync start len).draws = s.draws + 1 := rfl
@[simp] theorem State.callSync_log (start len : Nat) :
    (s.callSync start len).log = s.log ++ [.sync start len s.syncAnswer] := rfl
@[simp] theorem State.callSync_ready (start len : Nat) : (s.callSync start len).ready = s.ready := rfl
@[simp] theorem State.callSync_lead (start len : Nat) : (s.callSync start len).lead = s.lead := rfl

/-! ### calleeHangs -/

@[simp] theorem State.calleeHangs_cfg (a : Word) : (s.calleeHangs a).cfg = s.cfg := rfl
@[simp] theorem State.calleeHangs_run (a : Word) : (s.calleeHangs a).run = s.run := rfl
@[simp] theorem State.calleeHangs_why (a : Word) : (s.calleeHangs a).why = s.why := rfl
@[simp] theorem State.calleeHangs_maxPayload (a : Word) : (s.calleeHangs a).maxPayload = s.maxPayload := rfl
@[simp] theorem State.calleeHangs_st (a : Word) : (s.calleeHangs a).st = s.st := rfl
@[simp] theorem State.calleeHangs_idx (a : Word) : (s.calleeHangs a).idx = s.idx := rfl
@[simp] theorem State.calleeHangs_hdr (a : Word) : (s.calleeHangs a).hdr = s.hdr := rfl
@[simp] theorem State.calleeHangs_acc (a : Word) : (s.calleeHangs a).acc = s.acc := rfl
@[simp] theorem State.calleeHangs_rcs (a : Word) : (s.calleeHangs a).rcs = s.rcs := rfl
@[simp] theorem State.calleeHangs_drain (a : Word) : (s.calleeHangs a).drain = s.drain := rfl
@[simp] theorem State.calleeHangs_tcmd (a : Word) : (s.calleeHangs a).tcmd = s.tcmd := rfl
@[simp] theorem State.calleeHangs_tflags (a : Word) : (s.calleeHangs a).tflags = s.tflags := rfl
@[simp] theorem State.calleeHangs_tlen (a : Word) : (s.calleeHangs a).tlen = s.tlen := rfl
@[simp] theorem State.calleeHangs_rxbuf (a : Word) : (s.calleeHangs a).rxbuf = s.rxbuf := rfl
@[simp] theorem State.calleeHangs_txbuf (a : Word) : (s.calleeHangs a).txbuf = s.txbuf := rfl
@[simp] theorem State.calleeHangs_table (a : Word) : (s.calleeHangs a).table = s.table := rfl
@[simp] theorem State.calleeHangs_q (a : Word) : (s.calleeHangs a).q = s.q := rfl
@[simp] theorem State.calleeHangs_hung (a : Word) : (s.calleeHangs a).hung = some a := rfl
@[simp] theorem State.calleeHangs_phase (a : Word) : (s.calleeHangs a).phase = s.phase := rfl
@[simp] theorem State.calleeHangs_mem (a : Word) : (s.calleeHangs a).mem = s.mem := rfl
@[simp] theorem State.calleeHangs_past (a : Word) : (s.calleeHangs a).past = s.past := rfl
@[simp] theorem State.calleeHangs_dirty (a : Word) : (s.calleeHangs a).dirty = s.dirty := rfl
@[simp] theorem State.calleeHangs_treq (a : Word) : (s.calleeHangs a).treq = s.treq := rfl
@[simp] theorem State.calleeHangs_tres (a : Word) : (s.calleeHangs a).tres = s.tres := rfl
@[simp] theorem State.calleeHangs_startRes (a : Word) : (s.calleeHangs a).startRes = s.startRes := rfl
@[simp] theorem State.calleeHangs_link (a : Word) : (s.calleeHangs a).link = s.link := rfl
@[simp] theorem State.calleeHangs_out (a : Word) : (s.calleeHangs a).out = s.out := rfl
@[simp] theorem State.calleeHangs_turns (a : Word) : (s.calleeHangs a).turns = s.turns := rfl
@[simp] theorem State.calleeHangs_ans (a : Word) :
    (s.calleeHangs a).ans = { s.ans with execs := s.ans.execs.tail } := rfl
@[simp] theorem State.calleeHangs_draws (a : Word) : (s.calleeHangs a).draws = s.draws + 1 := rfl
@[simp] theorem State.calleeHangs_log (a : Word) : (s.calleeHangs a).log = s.log ++ [.execCall a none] := rfl
@[simp] theorem State.calleeHangs_ready (a : Word) : (s.calleeHangs a).ready = s.ready := rfl
@[simp] theorem State.calleeHangs_lead (a : Word) : (s.calleeHangs a).lead = s.lead := rfl

/-! ### The operations that are made of the updates above -/

@[simp] theorem State.callAlloc_eq (size caps align : Word) : s.callAlloc size caps align =
    s.transact { s.ans with allocs := s.ans.allocs.tail } (.alloc size caps align s.allocAnswer) := rfl
@[simp] theorem State.queryLine_eq : s.queryLine =
    s.transact { s.ans with lines := s.ans.lines.tail } (.lineSize s.lineAnswer) := rfl
@[simp] theorem State.learnLine_eq : s.learnLine =
    (s.transact { s.ans with lines := s.ans.lines.tail } (.lineSize s.lineAnswer)).goOn (.lineKnown s.effectiveLine) := rfl
@[simp] theorem State.syncLines_eq (a L : Nat) (S : Word) : s.syncLines a L S =
    s.callSync (alignedRange a L S.toNat).1 (alignedRange a L S.toNat).2 := rfl
@[simp] theorem State.callHeap_eq : s.callHeap =
    s.transact { s.ans with heaps := s.ans.heaps.tail } (.heapInfo s.heapAnswer) := rfl
@[simp] theorem State.calleeReturned_eq (a r : Word) (w : List (Word × Byte)) : s.calleeReturned a r w =
    (s.transact { s.ans with execs := s.ans.execs.tail } (.execCall a (some r))).storeCells (calleeCells w) := rfl
@[simp] theorem State.memWrite_eq (a : Word) (D : Bytes) : s.memWrite a D =
    (s.transact { s.ans with served := s.ans.served.tail } (.memWrite a D)).storeCells (addressed a.toNat D) := rfl
@[simp] theorem State.memRead_eq (a : Word) (n : Nat) : s.memRead a n =
    s.transact { s.ans with served := s.ans.served.tail } (.memRead a (s.mem.readBytes a.toNat n)) := rfl
@[simp] theorem State.memAbort_eq (a : Word) (d : AccessDir) (n : Nat) : s.memAbort a d n =
    (s.transact { s.ans with served := s.ans.served.tail } (.memFault a d n)).takeFault a d := rfl
@[simp] theorem State.succeed_eq (k : Cmd) (p : Bytes) :
    s.succeed k p = s.respondWith (cmdId s.cfg.cmdIds k) flagsOk p := rfl
@[simp] theorem State.fail_eq (k : Cmd) (e : ErrCode) :
    s.fail k e = s.respondWith (cmdId s.cfg.cmdIds k) flagsError (le32 (e.code s.cfg.errCodes)) := rfl
@[simp] theorem State.reportError_eq (c : Byte) (e : ErrCode) :
    s.reportError c e = s.respondWith c flagsError (le32 (e.code s.cfg.errCodes)) := rfl
end

end Sys2Proof.Machine
end

