-- ==== Sys2Proof/Laws/Tracker.lean ====
section
/-! SUPPORT. What each operation of the lookup engine can do (R131 to R134), said once. -/

namespace Sys2Proof.Machine

/-- `add` answers a table exactly when some slot is free, and then the lowest free slot has taken the entry (R131). -/
theorem tableAdd_eq_some {T U : List Slot} {a sz : Word} :
    tableAdd T a sz = some U ↔
      ∃ pre t post, T = pre ++ t :: post ∧ (∀ u ∈ pre, u.used = true) ∧ t.used = false ∧
        U = pre ++ ⟨a, sz, true⟩ :: post := by
  induction T generalizing U with
  | nil => simp [tableAdd]
  | cons t T ih =>
    cases ht : t.used
    · simp only [tableAdd, ht, Bool.false_eq_true, if_false, Option.some.injEq]
      constructor
      · rintro rfl
        exact ⟨[], t, T, rfl, by simp, ht, rfl⟩
      · rintro ⟨pre, u, post, hT, hpre, hu, rfl⟩
        cases pre with
        | nil => simp at hT; simp [hT]
        | cons v pre =>
          simp only [List.cons_append, List.cons.injEq] at hT
          have := hpre v List.mem_cons_self
          rw [← hT.1, ht] at this; cases this
    · simp only [tableAdd, ht, if_true, Option.map_eq_some_iff]
      constructor
      · rintro ⟨V, hV, rfl⟩
        obtain ⟨pre, u, post, rfl, hpre, hu, rfl⟩ := ih.mp hV
        exact ⟨t :: pre, u, post, rfl, by simpa [ht] using hpre, hu, rfl⟩
      · rintro ⟨pre, u, post, hT, hpre, hu, rfl⟩
        cases pre with
        | nil => simp at hT; rw [← hT.1, ht] at hu; cases hu
        | cons v pre =>
          simp only [List.cons_append, List.cons.injEq] at hT
          obtain ⟨rfl, rfl⟩ := hT
          exact ⟨_, ih.mpr ⟨pre, u, post, rfl, fun w hw => hpre w (List.mem_cons_of_mem _ hw), hu, rfl⟩, rfl⟩

/-- `add` answers `table_full` exactly when every slot is in use (R131). -/
theorem tableAdd_eq_none {T : List Slot} {a sz : Word} :
    tableAdd T a sz = none ↔ ∀ t ∈ T, t.used = true := by
  induction T with
  | nil => simp [tableAdd]
  | cons t T ih => cases ht : t.used <;> simp [tableAdd, ht, ih]

/-- `remove` answers a table exactly when a slot in use starts at `a`, and then the lowest such slot is free (R132). -/
theorem tableRemove_eq_some {T U : List Slot} {a : Word} :
    tableRemove T a = some U ↔
      ∃ pre t post, T = pre ++ t :: post ∧ (∀ u ∈ pre, ¬(u.used = true ∧ u.addr = a)) ∧
        t.used = true ∧ t.addr = a ∧ U = pre ++ Slot.free :: post := by
  induction T generalizing U with
  | nil => simp [tableRemove]
  | cons t T ih =>
    by_cases ht : t.used = true ∧ t.addr = a
    · simp only [tableRemove, ht, beq_self_eq_true, Bool.and_self, if_true, Option.some.injEq]
      constructor
      · rintro rfl
        exact ⟨[], t, T, rfl, by simp, ht.1, ht.2, rfl⟩
      · rintro ⟨pre, u, post, hT, hpre, hu, hua, rfl⟩
        cases pre with
        | nil => simp at hT; simp [hT]
        | cons v pre =>
          simp only [List.cons_append, List.cons.injEq] at hT
          exact absurd (hT.1 ▸ ht) (hpre v List.mem_cons_self)
    · have hf : (t.used && t.addr == a) = false := by
        simpa using ht
      simp only [tableRemove, hf, Bool.false_eq_true, if_false, Option.map_eq_some_iff]
      constructor
      · rintro ⟨V, hV, rfl⟩
        obtain ⟨pre, u, post, rfl, hpre, hu, hua, rfl⟩ := ih.mp hV
        refine ⟨t :: pre, u, post, rfl, fun w hw => ?_, hu, hua, rfl⟩
        rcases List.mem_cons.mp hw with rfl | hw
        · exact ht
        · exact hpre w hw
      · rintro ⟨pre, u, post, hT, hpre, hu, hua, rfl⟩
        cases pre with
        | nil => simp at hT; exact absurd ⟨hT.1 ▸ hu, hT.1 ▸ hua⟩ ht
        | cons v pre =>
          simp only [List.cons_append, List.cons.injEq] at hT
          obtain ⟨rfl, rfl⟩ := hT
          exact ⟨_, ih.mpr ⟨pre, u, post, rfl, fun w hw => hpre w (List.mem_cons_of_mem _ hw), hu, hua, rfl⟩, rfl⟩

/-- `remove` answers `not_found` exactly when `contains` answers false (R132, R133). -/
theorem tableRemove_eq_none {T : List Slot} {a : Word} :
    tableRemove T a = none ↔ tableContains T a = false := by
  induction T with
  | nil => simp [tableRemove, tableContains]
  | cons t T ih =>
    cases h : (t.used && t.addr == a) <;> simp [tableRemove, tableContains, h, ih]

/-- `contains` is an exact start-address match (R133). -/
theorem tableContains_iff {T : List Slot} {a : Word} :
    tableContains T a = true ↔ ∃ t ∈ T, t.used = true ∧ t.addr = a := by
  simp [tableContains, List.any_eq_true]

/-- `validate` in the arithmetic of R134. -/
theorem tableValidate_iff {T : List Slot} {a n : Nat} :
    tableValidate T a n = true ↔ a + n ≤ max32 ∧ ∃ t ∈ T, t.used = true ∧
      t.addr.toNat + t.size.toNat ≤ max32 ∧ t.addr.toNat ≤ a ∧ a + n ≤ t.addr.toNat + t.size.toNat := by
  simp [tableValidate, Slot.covers, List.any_eq_true, and_assoc]

/-- The lookup engine keeps the number of slots. -/
theorem length_tableAdd {T U : List Slot} {a sz : Word} (h : tableAdd T a sz = some U) : U.length = T.length := by
  obtain ⟨pre, t, post, rfl, -, -, rfl⟩ := tableAdd_eq_some.mp h
  simp

theorem length_tableRemove {T U : List Slot} {a : Word} (h : tableRemove T a = some U) : U.length = T.length := by
  obtain ⟨pre, t, post, rfl, -, -, -, rfl⟩ := tableRemove_eq_some.mp h
  simp

/-! ### The bounds check as one update -/

/-- The bounds check changes the lookup engine's answer and nothing else. -/
theorem State.checkRange_eq (s : State) (mf : Byte) (a n : Nat) :
    s.checkRange mf a n = { s with tres := if skipBounds mf then s.tres else .bit (tableValidate s.table a n) } := by
  unfold State.checkRange
  split <;> rfl

end Sys2Proof.Machine
end

