-- ==== Sys2Proof/Laws/Commands.lean ====
section
/-! SUPPORT. What each command's step can do, said once: the cases of its meaning, each with the whole state that it
answers. -/

namespace Sys2Proof.Machine

/-- ALLOC's request: a bad alignment, no memory, a full table, or an entry (R154). -/
theorem requestAllocation_cases (f : AllocFields) (s : State) :
    (goodAlignment f.alignment = false ∧ requestAllocation f s = s.fail .alloc .alloc) ∨
    (goodAlignment f.alignment = true ∧ s.allocAnswer = 0 ∧
      requestAllocation f s = (s.callAlloc f.size f.caps f.alignment).fail .alloc .alloc) ∨
    (goodAlignment f.alignment = true ∧ s.allocAnswer ≠ 0 ∧ tableAdd s.table s.allocAnswer f.size = none ∧
      requestAllocation f s =
        ((s.callAlloc f.size f.caps f.alignment).lookupAdd s.allocAnswer f.size).goOn (.release s.allocAnswer)) ∨
    (goodAlignment f.alignment = true ∧ s.allocAnswer ≠ 0 ∧
      (∃ T, tableAdd s.table s.allocAnswer f.size = some T) ∧
      requestAllocation f s =
        ((s.callAlloc f.size f.caps f.alignment).lookupAdd s.allocAnswer f.size).succeed .alloc
          (le32 s.allocAnswer ++ le32 0)) := by
  cases hg : goodAlignment f.alignment
  · exact .inl ⟨rfl, by simp [requestAllocation, hg]⟩
  · by_cases ha : s.allocAnswer = 0
    · exact .inr (.inl ⟨rfl, ha, by simp [requestAllocation, hg, ha]⟩)
    · have hr : requestAllocation f s = trackAllocation (s.callAlloc f.size f.caps f.alignment) s.allocAnswer f.size := by
        unfold requestAllocation
        rw [if_pos hg, if_neg ha]
      cases hT : tableAdd s.table s.allocAnswer f.size with
      | none => exact .inr (.inr (.inl ⟨rfl, ha, rfl, by rw [hr]; simp [trackAllocation, hT]⟩))
      | some T => exact .inr (.inr (.inr ⟨rfl, ha, ⟨T, rfl⟩, by rw [hr]; simp [trackAllocation, hT, ErrCode.code]⟩))

/-- FREE's Tracker operations: no entry, or one that goes (R155). -/
theorem untrack_cases (a : Word) (s : State) :
    (tableContains s.table a = false ∧ untrack a s = (s.lookupContains a).fail .free .invalidAddr) ∨
    (tableContains s.table a = true ∧ untrack a s = ((s.lookupContains a).lookupRemove a).goOn (.release a)) := by
  cases h : tableContains s.table a
  · exact .inl ⟨rfl, by simp [untrack, h]⟩
  · exact .inr ⟨rfl, by simp [untrack, h]⟩

/-- WRITEMEM's checks and copy: a range that is not admitted, a fault, or the bytes written (R156). -/
theorem checkedWrite_cases (f : WriteFields) (D : Bytes) (s : State) :
    ∃ r : TrackerResult,
      (s.admits f.mflags f.address.toNat D.length = false ∧
        checkedWrite f D s = { s with tres := r }.fail .writeMem .invalidAddr) ∨
      (s.admits f.mflags f.address.toNat D.length = true ∧ s.memFaults f.address D.length = true ∧
        checkedWrite f D s = { s with tres := r }.memAbort f.address .write D.length) ∨
      (s.admits f.mflags f.address.toNat D.length = true ∧ s.memFaults f.address D.length = false ∧
        checkedWrite f D s = ({ s with tres := r }.memWrite f.address D).goOn .written) := by
  refine ⟨if skipBounds f.mflags then s.tres else .bit (tableValidate s.table f.address.toNat D.length), ?_⟩
  unfold checkedWrite transferWrite
  rw [State.checkRange_eq]
  cases ha : s.admits f.mflags f.address.toNat D.length
  · exact .inl ⟨rfl, rfl⟩
  · cases hf : s.memFaults f.address D.length
    · exact .inr (.inr ⟨rfl, rfl, if_neg (Bool.eq_false_iff.mp hf)⟩)
    · exact .inr (.inl ⟨rfl, rfl, if_pos hf⟩)

/-- READMEM with a full payload: a size above the maximum, a range that is not admitted, a fault, or the bytes read (R157). -/
theorem readMemEffect_cases (f : ReadFields) (x : Bytes) (s : State) :
    (s.maxPayload.toNat < f.size.toNat ∧ readMemEffect (.full f x) s = s.fail .readMem .malformed) ∨
    (f.size.toNat ≤ s.maxPayload.toNat ∧ ∃ r : TrackerResult,
      (s.admits f.mflags f.address.toNat f.size.toNat = false ∧
        readMemEffect (.full f x) s = { s with tres := r }.fail .readMem .invalidAddr) ∨
      (s.admits f.mflags f.address.toNat f.size.toNat = true ∧ s.memFaults f.address f.size.toNat = true ∧
        readMemEffect (.full f x) s = { s with tres := r }.memAbort f.address .read f.size.toNat) ∨
      (s.admits f.mflags f.address.toNat f.size.toNat = true ∧ s.memFaults f.address f.size.toNat = false ∧
        readMemEffect (.full f x) s =
          ({ s with tres := r }.memRead f.address f.size.toNat).succeed .readMem
            (s.mem.readBytes f.address.toNat f.size.toNat))) := by
  by_cases hm : s.maxPayload.toNat < f.size.toNat
  · exact .inl ⟨hm, if_pos hm⟩
  · refine .inr ⟨by omega, if skipBounds f.mflags then s.tres
      else .bit (tableValidate s.table f.address.toNat f.size.toNat), ?_⟩
    unfold readMemEffect transferRead
    simp only [hm, if_false]
    rw [State.checkRange_eq]
    cases ha : s.admits f.mflags f.address.toNat f.size.toNat
    · exact .inl ⟨rfl, rfl⟩
    · cases hf : s.memFaults f.address f.size.toNat
      · exact .inr (.inr ⟨rfl, rfl, if_neg (Bool.eq_false_iff.mp hf)⟩)
      · exact .inr (.inl ⟨rfl, rfl, if_pos hf⟩)

/-- EXEC with an address: a check that fails, a callee that returns, or one that never does (R158). -/
theorem callEffect_cases (a : Word) (mf : Byte) (s : State) :
    ∃ r : TrackerResult,
      ((skipBounds mf || s.entryOk a) = false ∧ callEffect a mf s = { s with tres := r }.fail .exec .invalidAddr) ∨
      ((skipBounds mf || s.entryOk a) = true ∧ ∃ v w, s.execAnswer = .returns v w ∧
        callEffect a mf s = ({ s with tres := r }.calleeReturned a v w).succeed .exec (le32 v)) ∨
      ((skipBounds mf || s.entryOk a) = true ∧ s.execAnswer = .never ∧
        callEffect a mf s = { s with tres := r }.calleeHangs a) := by
  have K : ∀ r : TrackerResult,
      (∃ v w, s.execAnswer = .returns v w ∧
        enterCallee a { s with tres := r } = ({ s with tres := r }.calleeReturned a v w).succeed .exec (le32 v)) ∨
      (s.execAnswer = .never ∧ enterCallee a { s with tres := r } = { s with tres := r }.calleeHangs a) := by
    intro r
    have hr : ({ s with tres := r } : State).execAnswer = s.execAnswer := rfl
    unfold enterCallee
    rw [hr]
    cases s.execAnswer with
    | returns v w => exact .inl ⟨v, w, rfl, rfl⟩
    | never => exact .inr ⟨rfl, rfl⟩
  have hc : ∃ r : TrackerResult, s.checkEntry a = { s with tres := r } := by
    unfold State.checkEntry
    split <;> exact ⟨_, rfl⟩
  obtain ⟨r, hr⟩ := hc
  unfold callEffect
  cases hs : skipBounds mf
  · cases he : s.entryOk a
    · exact ⟨r, .inl ⟨rfl, by rw [hr]; rfl⟩⟩
    · refine ⟨r, .inr ?_⟩
      simp only [Bool.false_eq_true, if_false, if_true, hr]
      rcases K r with ⟨v, w, h, k⟩ | ⟨h, k⟩
      · exact .inl ⟨rfl, v, w, h, k⟩
      · exact .inr ⟨rfl, h, k⟩
  · refine ⟨s.tres, .inr ?_⟩
    simp only [if_true, Bool.true_or]
    rcases K s.tres with ⟨v, w, h, k⟩ | ⟨h, k⟩
    · exact .inl ⟨trivial, v, w, h, k⟩
    · exact .inr ⟨trivial, h, k⟩

end Sys2Proof.Machine
end

