-- ==== Sys2Proof/Laws/Memory.lean ====
section
/-! SUPPORT. The laws of device memory and of the instruction-fetch view: reads after stores, what a store leaves alone,
and that every operation keeps the canonical form. -/

namespace Sys2Proof.Machine

@[simp] theorem Memory.read_nil (a : Nat) : Memory.read [] a = Memory.unlisted := rfl

theorem Memory.read_cons (c : Host.Cell) (m : Memory) (a : Nat) :
    Memory.read (c :: m) a = if c.1 = a then c.2 else m.read a := rfl

theorem Memory.wf_nil : Memory.wf [] := by simp [Memory.wf]

theorem Memory.wf_tail {c : Host.Cell} {m : Memory} (h : Memory.wf (c :: m)) : m.wf :=
  ⟨(List.pairwise_cons.mp h.1).2, fun d hd => h.2 d (List.mem_cons_of_mem _ hd)⟩

/-- An address below every listed one is unlisted. -/
theorem Memory.read_of_below {m : Memory} {a : Nat} (h : ∀ c ∈ m, a < c.1) : m.read a = Memory.unlisted := by
  induction m with
  | nil => rfl
  | cons c m ih =>
    have hc := h c List.mem_cons_self
    rw [Memory.read_cons, if_neg (by omega)]
    exact ih fun d hd => h d (List.mem_cons_of_mem _ hd)

theorem Memory.below_tail {c : Host.Cell} {m : Memory} (h : Memory.wf (c :: m)) : ∀ d ∈ m, c.1 < d.1 :=
  (List.pairwise_cons.mp h.1).1

/-- A byte reads as it was stored. -/
theorem Memory.read_write_same {m : Memory} (h : m.wf) (a : Nat) (b : Byte) : (m.write a b).read a = b := by
  induction m with
  | nil =>
    simp only [Memory.write]
    split <;> simp_all [Memory.read]
  | cons c m ih =>
    have hb := Memory.below_tail h
    simp only [Memory.write]
    split
    · split
      · subst b
        exact Memory.read_of_below (by
          intro d hd
          rcases List.mem_cons.mp hd with rfl | hd
          · assumption
          · have := hb d hd; omega)
      · simp [Memory.read]
    · split
      · split
        · subst b
          exact Memory.read_of_below (fun d hd => by have := hb d hd; omega)
        · simp [Memory.read]
      · rw [Memory.read_cons, if_neg (by omega)]
        exact ih (Memory.wf_tail h)

/-- A store leaves every other byte alone. -/
theorem Memory.read_write_other (m : Memory) {a x : Nat} (b : Byte) (hx : x ≠ a) :
    (m.write a b).read x = m.read x := by
  induction m with
  | nil =>
    simp only [Memory.write]
    split <;> simp [Memory.read]
    omega
  | cons c m ih =>
    simp only [Memory.write]
    split
    · split
      · rfl
      · rw [Memory.read_cons, if_neg (by simpa using fun h => hx h.symm)]
    · split
      · have hc : c.1 ≠ x := by omega
        split
        · rw [Memory.read_cons, if_neg hc]
        · rw [Memory.read_cons, Memory.read_cons, if_neg (by simpa using fun h => hx h.symm), if_neg hc]
      · rw [Memory.read_cons, Memory.read_cons, ih]

theorem Memory.mem_write {m : Memory} {a : Nat} {b : Byte} {c : Host.Cell} (h : c ∈ m.write a b) :
    c ∈ m ∨ (c = (a, b) ∧ b ≠ Memory.unlisted) := by
  induction m with
  | nil =>
    simp only [Memory.write] at h
    split at h <;> simp_all
  | cons d m ih =>
    simp only [Memory.write] at h
    split at h
    · split at h
      · exact .inl h
      · rcases List.mem_cons.mp h with rfl | h
        · exact .inr ⟨rfl, by assumption⟩
        · exact .inl h
    · split at h
      · split at h
        · exact .inl (List.mem_cons_of_mem _ h)
        · rcases List.mem_cons.mp h with rfl | h
          · exact .inr ⟨rfl, by assumption⟩
          · exact .inl (List.mem_cons_of_mem _ h)
      · rcases List.mem_cons.mp h with rfl | h
        · exact .inl List.mem_cons_self
        · exact (ih h).imp (List.mem_cons_of_mem _) id

/-- A store keeps the canonical form. -/
theorem Memory.wf_write {m : Memory} (h : m.wf) {a : Nat} (ha : a ≤ max32) (b : Byte) : (m.write a b).wf := by
  refine ⟨?_, fun c hc => ?_⟩
  · induction m with
    | nil =>
      simp only [Memory.write]
      split <;> simp
    | cons c m ih =>
      have hb := Memory.below_tail h
      have hp := (List.pairwise_cons.mp h.1).2
      simp only [Memory.write]
      split
      · split
        · exact h.1
        · refine List.pairwise_cons.mpr ⟨fun d hd => ?_, h.1⟩
          rcases List.mem_cons.mp hd with rfl | hd
          · assumption
          · have := hb d hd; simp only; omega
      · split
        · split
          · exact hp
          · exact List.pairwise_cons.mpr ⟨fun d hd => by have := hb d hd; simp only; omega, hp⟩
        · refine List.pairwise_cons.mpr ⟨fun d hd => ?_, ih (Memory.wf_tail h)⟩
          rcases Memory.mem_write hd with hd | ⟨rfl, -⟩
          · exact hb d hd
          · simp only; omega
  · rcases Memory.mem_write hc with hc | ⟨rfl, hne⟩
    · exact h.2 c hc
    · exact ⟨ha, hne⟩

/-- Stores keep the canonical form. -/
theorem Memory.wf_storeAll {m : Memory} (h : m.wf) {cs : List Host.Cell} (hcs : ∀ c ∈ cs, c.1 ≤ max32) :
    (m.storeAll cs).wf := by
  induction cs generalizing m with
  | nil => exact h
  | cons c cs ih =>
    exact ih (Memory.wf_write h (hcs c List.mem_cons_self) c.2) fun d hd => hcs d (List.mem_cons_of_mem _ hd)

/-- Stores leave every byte alone that none of them names. -/
theorem Memory.read_storeAll_other (m : Memory) {cs : List Host.Cell} {x : Nat} (hx : ∀ c ∈ cs, c.1 ≠ x) :
    (m.storeAll cs).read x = m.read x := by
  induction cs generalizing m with
  | nil => rfl
  | cons c cs ih =>
    simp only [Memory.storeAll]
    rw [ih _ fun d hd => hx d (List.mem_cons_of_mem _ hd)]
    exact Memory.read_write_other m c.2 fun h => hx c List.mem_cons_self h.symm

/-! ### Transfers -/

theorem mem_addressed {a : Nat} {D : Bytes} {c : Host.Cell} (h : c ∈ addressed a D) :
    a ≤ c.1 ∧ c.1 < a + D.length := by
  induction D generalizing a with
  | nil => simp [addressed] at h
  | cons b D ih =>
    rcases List.mem_cons.mp h with rfl | h
    · simp
    · have := ih h
      simp only [List.length_cons]; omega

theorem calleeCells_le {w : List (Word × Byte)} {c : Host.Cell} (h : c ∈ calleeCells w) : c.1 ≤ max32 := by
  obtain ⟨d, -, rfl⟩ := List.mem_map.mp h
  have := d.1.isLt
  simp only [max32]; omega

/-- A transfer leaves every byte outside its range alone. -/
theorem Memory.read_transfer_other (m : Memory) {a x : Nat} {D : Bytes} (hx : x < a ∨ a + D.length ≤ x) :
    (m.storeAll (addressed a D)).read x = m.read x :=
  Memory.read_storeAll_other m fun c hc => by have := mem_addressed hc; omega

/-- A transfer within the address space keeps the canonical form. -/
theorem Memory.wf_transfer {m : Memory} (h : m.wf) {a : Nat} {D : Bytes} (ha : a + D.length ≤ max32 + 1) :
    (m.storeAll (addressed a D)).wf :=
  Memory.wf_storeAll h fun c hc => by have := mem_addressed hc; omega

@[simp] theorem Memory.length_readBytes (m : Memory) (a n : Nat) : (m.readBytes a n).length = n := by
  induction n generalizing a with
  | zero => rfl
  | succ n ih => simp [Memory.readBytes, ih]

/-- A transfer's range reads as the bytes transferred. -/
theorem Memory.readBytes_transfer {m : Memory} (h : m.wf) {a : Nat} {D : Bytes} (ha : a + D.length ≤ max32 + 1) :
    (m.storeAll (addressed a D)).readBytes a D.length = D := by
  induction D generalizing m a with
  | nil => rfl
  | cons b D ih =>
    simp only [List.length_cons] at ha
    simp only [addressed, Memory.storeAll, List.length_cons, Memory.readBytes]
    rw [ih (Memory.wf_write h (by omega) b) (by omega), Memory.read_transfer_other _ (.inl (by omega)),
      Memory.read_write_same h]

/-! ### The instruction-fetch view -/

theorem mem_pastAdd {c d : Host.Cell} {l : List Host.Cell} (h : d ∈ pastAdd c l) : d = c ∨ d ∈ l := by
  induction l with
  | nil => simpa [pastAdd] using h
  | cons e l ih =>
    simp only [pastAdd] at h
    split at h
    · simpa using h
    · split at h
      · exact .inr h
      · rcases List.mem_cons.mp h with rfl | h
        · exact .inr List.mem_cons_self
        · exact (ih h).imp id (List.mem_cons_of_mem _)

theorem pastWf_pastAdd {l : List Host.Cell} (h : pastWf l) (c : Host.Cell) : pastWf (pastAdd c l) := by
  induction l with
  | nil => simp [pastAdd, pastWf]
  | cons e l ih =>
    have hb := (List.pairwise_cons.mp h).1
    have hp := (List.pairwise_cons.mp h).2
    simp only [pastAdd]
    split
    · refine List.pairwise_cons.mpr ⟨fun d hd => ?_, h⟩
      rcases List.mem_cons.mp hd with rfl | hd
      · assumption
      · have := hb d hd; omega
    · split
      · exact h
      · refine List.pairwise_cons.mpr ⟨fun d hd => ?_, ih hp⟩
        rcases mem_pastAdd hd with rfl | hd
        · omega
        · exact hb d hd

theorem pastWf_pastAll {m : Memory} {l : List Host.Cell} (h : pastWf l) (cs : List Host.Cell) :
    pastWf (pastAll m l cs) := by
  induction cs generalizing m l with
  | nil => exact h
  | cons c cs ih => exact ih (pastWf_pastAdd h _)

/-- No older contents are ever forgotten (R64). -/
theorem mem_pastAdd_of_mem {c d : Host.Cell} {l : List Host.Cell} (h : d ∈ l) : d ∈ pastAdd c l := by
  induction l with
  | nil => cases h
  | cons e l ih =>
    simp only [pastAdd]
    split
    · exact List.mem_cons_of_mem _ h
    · split
      · exact h
      · rcases List.mem_cons.mp h with rfl | h
        · exact List.mem_cons_self
        · exact List.mem_cons_of_mem _ (ih h)

theorem cellKey_inj {c d : Host.Cell} (h : cellKey c = cellKey d) : c = d := by
  have hc := c.2.isLt
  have hd := d.2.isLt
  simp only [cellKey] at h
  exact Prod.ext (by omega) (BitVec.eq_of_toNat_eq (by omega))

/-- What a store overwrites joins the older contents. -/
theorem self_mem_pastAdd (c : Host.Cell) (l : List Host.Cell) : c ∈ pastAdd c l := by
  induction l with
  | nil => simp [pastAdd]
  | cons e l ih =>
    simp only [pastAdd]
    split
    · exact List.mem_cons_self
    · split
      · rename_i h
        rw [cellKey_inj h]
        exact List.mem_cons_self
      · exact List.mem_cons_of_mem _ ih

theorem mem_pastAll_of_mem {m : Memory} {d : Host.Cell} {l : List Host.Cell} (h : d ∈ l) (cs : List Host.Cell) :
    d ∈ pastAll m l cs := by
  induction cs generalizing m l with
  | nil => exact h
  | cons c cs ih => exact ih (mem_pastAdd_of_mem h)

theorem mem_dirtyAdd {a d : Nat} {l : List Nat} : d ∈ dirtyAdd a l ↔ d = a ∨ d ∈ l := by
  induction l with
  | nil => simp [dirtyAdd]
  | cons e l ih =>
    simp only [dirtyAdd]
    split
    · simp
    · split
      · subst e; simp
      · simp only [List.mem_cons, ih]; tauto

theorem dirtyWf_dirtyAdd {l : List Nat} (h : dirtyWf l) (a : Nat) : dirtyWf (dirtyAdd a l) := by
  induction l with
  | nil => simp [dirtyAdd, dirtyWf]
  | cons e l ih =>
    have hb := (List.pairwise_cons.mp h).1
    have hp := (List.pairwise_cons.mp h).2
    simp only [dirtyAdd]
    split
    · refine List.pairwise_cons.mpr ⟨fun d hd => ?_, h⟩
      rcases List.mem_cons.mp hd with rfl | hd
      · assumption
      · have := hb d hd; omega
    · split
      · exact h
      · refine List.pairwise_cons.mpr ⟨fun d hd => ?_, ih hp⟩
        rcases mem_dirtyAdd.mp hd with rfl | hd
        · omega
        · exact hb d hd

/-- The addresses not synchronised after stores: those before, and the ones stored to. -/
theorem mem_dirtyAll {l : List Nat} {cs : List Host.Cell} {d : Nat} :
    d ∈ dirtyAll l cs ↔ d ∈ l ∨ ∃ c ∈ cs, c.1 = d := by
  induction cs generalizing l with
  | nil => simp [dirtyAll]
  | cons c cs ih =>
    simp only [dirtyAll, ih, mem_dirtyAdd, List.mem_cons, exists_eq_or_imp]
    tauto

theorem dirtyWf_dirtyAll {l : List Nat} (h : dirtyWf l) (cs : List Host.Cell) : dirtyWf (dirtyAll l cs) := by
  induction cs generalizing l with
  | nil => exact h
  | cons c cs ih => exact ih (dirtyWf_dirtyAdd h _)

theorem dirtyWf_dirtyDrop {l : List Nat} (h : dirtyWf l) (a n : Nat) : dirtyWf (dirtyDrop a n l) :=
  h.filter _

/-- A sync that answers `ok` leaves no address of its range, and every other. -/
theorem mem_dirtyDrop {a n d : Nat} {l : List Nat} : d ∈ dirtyDrop a n l ↔ d ∈ l ∧ ¬(a ≤ d ∧ d < a + n) := by
  simp only [dirtyDrop, List.mem_filter, Bool.not_eq_true', Bool.and_eq_false_iff, decide_eq_false_iff_not]
  exact and_congr_right fun _ => by omega

/-- Where no store is without a good sync, a fetch sees the stored byte and nothing else (R64). -/
theorem State.fetchMaySee_clean {s : State} {a : Nat} {b : Byte} (h : a ∉ s.dirty) :
    s.fetchMaySee a b = true ↔ s.mem.read a = b := by
  simp [State.fetchMaySee, h]

end Sys2Proof.Machine
end

