-- ==== Sys2Proof/Laws/Exec.lean ====
section
/-! SUPPORT. What an instruction can do, said once: it always answers a next state; what no instruction changes; and the four
ways in which its step ends. -/

namespace Sys2Proof.Machine

/-- What no instruction changes: the configuration, the framer's own registers, the receive buffer, the queue, the link, the
output stream and the other agents' fields. -/
structure Unmoved (s t : State) : Prop where
  cfg        : t.cfg = s.cfg
  maxPayload : t.maxPayload = s.maxPayload
  idx        : t.idx = s.idx
  hdr        : t.hdr = s.hdr
  acc        : t.acc = s.acc
  rcs        : t.rcs = s.rcs
  drain      : t.drain = s.drain
  rxbuf      : t.rxbuf = s.rxbuf
  q          : t.q = s.q
  treq       : t.treq = s.treq
  startRes   : t.startRes = s.startRes
  link       : t.link = s.link
  out        : t.out = s.out
  turns      : t.turns = s.turns
  ready      : t.ready = s.ready
  lead       : t.lead = s.lead

/-- The four ways an instruction's step ends: it answers (the response register and `RESPOND`), a port faults, a callee never
returns, or the framer stays where it is, with the command to go on or the lookup engine's request served. -/
inductive Ending (s t : State) : Prop where
  | answered (st : t.st = .respond) (run : t.run = s.run) (why : t.why = s.why) (hung : t.hung = s.hung)
      (phase : t.phase = .fresh) (flags : t.tflags = flagsOk ∨ t.tflags = flagsError)
      (buffer : t.txbuf.length = max t.tlen s.txbuf.length)
  | faulted (st : t.st = s.st) (run : t.run = .faulted) (why : t.why.isSome = true) (hung : t.hung = s.hung)
      (phase : t.phase = .fresh)
      (tx : t.tcmd = s.tcmd ∧ t.tflags = s.tflags ∧ t.tlen = s.tlen ∧ t.txbuf = s.txbuf)
  | hangs (st : t.st = s.st) (run : t.run = s.run) (why : t.why = s.why) (hung : t.hung.isSome = true)
      (phase : t.phase = s.phase)
      (tx : t.tcmd = s.tcmd ∧ t.tflags = s.tflags ∧ t.tlen = s.tlen ∧ t.txbuf = s.txbuf)
  | stays (st : t.st = s.st) (run : t.run = s.run) (why : t.why = s.why) (hung : t.hung = s.hung)
      (tx : t.tcmd = s.tcmd ∧ t.tflags = s.tflags ∧ t.tlen = s.tlen ∧ t.txbuf = s.txbuf)

theorem length_respond_buffer (p b : Bytes) : (p ++ b.drop p.length).length = max p.length b.length := by
  simp; omega

theorem unmoved_respondWith {s t : State} (h : Unmoved s t) (c f : Byte) (p : Bytes) :
    Unmoved s (t.respondWith c f p) := by
  constructor <;> simp [h.cfg, h.maxPayload, h.idx, h.hdr, h.acc, h.rcs, h.drain, h.rxbuf, h.q, h.treq, h.startRes,
    h.link, h.out, h.turns, h.ready, h.lead]

theorem Unmoved.rfl (s : State) : Unmoved s s := by constructor <;> exact Eq.refl _

/-- Answering ends an instruction, from any state that has kept what decides how it ends. -/
theorem answered_respondWith {s t : State} {c f : Byte} {p : Bytes} (hr : t.run = s.run) (hw : t.why = s.why)
    (hh : t.hung = s.hung) (hb : t.txbuf = s.txbuf) (hf : f = flagsOk ∨ f = flagsError) :
    Ending s (t.respondWith c f p) :=
  .answered (by simp) (by simp [hr]) (by simp [hw]) (by simp [hh]) (by simp) (by simpa using hf)
    (by simpa [hb] using length_respond_buffer p s.txbuf)

/-- One of the four ends, with what no instruction changes unmoved. -/
abbrev Ends (s t : State) : Prop := Unmoved s t ∧ Ending s t

theorem ends_answer {s t : State} (c f : Byte) (p : Bytes) (hm : Unmoved s t) (hr : t.run = s.run) (hw : t.why = s.why)
    (hh : t.hung = s.hung) (hb : t.txbuf = s.txbuf) (hf : f = flagsOk ∨ f = flagsError) :
    Ends s (t.respondWith c f p) :=
  ⟨unmoved_respondWith hm c f p, answered_respondWith hr hw hh hb hf⟩

theorem ends_succeed {s t : State} (k : Cmd) (p : Bytes) (hm : Unmoved s t) (hr : t.run = s.run) (hw : t.why = s.why)
    (hh : t.hung = s.hung) (hb : t.txbuf = s.txbuf) : Ends s (t.succeed k p) :=
  ends_answer _ _ _ hm hr hw hh hb (.inl rfl)

theorem ends_fail {s t : State} (k : Cmd) (e : ErrCode) (hm : Unmoved s t) (hr : t.run = s.run) (hw : t.why = s.why)
    (hh : t.hung = s.hung) (hb : t.txbuf = s.txbuf) : Ends s (t.fail k e) :=
  ends_answer _ _ _ hm hr hw hh hb (.inr rfl)

/-- A command that goes on ends its step where it was. -/
theorem ends_goOn {s t : State} (p : Progress) (hm : Unmoved s t) (hs : t.st = s.st) (hr : t.run = s.run)
    (hw : t.why = s.why) (hh : t.hung = s.hung)
    (ht : t.tcmd = s.tcmd ∧ t.tflags = s.tflags ∧ t.tlen = s.tlen ∧ t.txbuf = s.txbuf) : Ends s (t.goOn p) :=
  ⟨⟨hm.1, hm.2, hm.3, hm.4, hm.5, hm.6, hm.7, hm.8, hm.9, hm.10, hm.11, hm.12, hm.13, hm.14, hm.15, hm.16⟩,
    .stays hs hr hw hh ht⟩

/-- An update of `State` that decides nothing of how a step ends: all that `Ends` speaks of is as before. -/
theorem ends_of_same {s u t : State} (hm : Unmoved s u) (hs : u.st = s.st) (hr : u.run = s.run) (hw : u.why = s.why)
    (hh : u.hung = s.hung) (hp : u.phase = s.phase)
    (ht : u.tcmd = s.tcmd ∧ u.tflags = s.tflags ∧ u.tlen = s.tlen ∧ u.txbuf = s.txbuf) (h : Ends u t) : Ends s t := by
  obtain ⟨h, he⟩ := h
  refine ⟨⟨h.1.trans hm.1, h.2.trans hm.2, h.3.trans hm.3, h.4.trans hm.4, h.5.trans hm.5, h.6.trans hm.6,
    h.7.trans hm.7, h.8.trans hm.8, h.9.trans hm.9, h.10.trans hm.10, h.11.trans hm.11, h.12.trans hm.12,
    h.13.trans hm.13, h.14.trans hm.14, h.15.trans hm.15, h.16.trans hm.16⟩, ?_⟩
  obtain ⟨t1, t2, t3, t4⟩ := ht
  cases he with
  | answered a b c d e f g => exact .answered a (b.trans hr) (c.trans hw) (d.trans hh) e f (t4 ▸ g)
  | faulted a b c d e f =>
    exact .faulted (a.trans hs) b c (d.trans hh) e
      ⟨f.1.trans t1, f.2.1.trans t2, f.2.2.1.trans t3, f.2.2.2.trans t4⟩
  | hangs a b c d e f =>
    exact .hangs (a.trans hs) (b.trans hr) (c.trans hw) d (e.trans hp)
      ⟨f.1.trans t1, f.2.1.trans t2, f.2.2.1.trans t3, f.2.2.2.trans t4⟩
  | stays a b c d f =>
    exact .stays (a.trans hs) (b.trans hr) (c.trans hw) (d.trans hh)
      ⟨f.1.trans t1, f.2.1.trans t2, f.2.2.1.trans t3, f.2.2.2.trans t4⟩

/-- A port's answer decides nothing of how a step ends. -/
theorem ends_of_transact {s t : State} (ans : Answers) (p : PortTxn) (h : Ends (s.transact ans p) t) : Ends s t :=
  ends_of_same (u := s.transact ans p) (by constructor <;> rfl) rfl rfl rfl rfl rfl ⟨rfl, rfl, rfl, rfl⟩ h

/-- The lookup engine's answer decides nothing of how a step ends. -/
theorem ends_of_tres {s t : State} (r : TrackerResult) (h : Ends { s with tres := r } t) : Ends s t :=
  ends_of_same (u := { s with tres := r }) (by constructor <;> rfl) rfl rfl rfl rfl rfl ⟨rfl, rfl, rfl, rfl⟩ h

theorem trackAllocation_ends (s : State) (a size : Word) : Ends s (trackAllocation s a size) := by
  unfold trackAllocation
  dsimp only
  split
  · exact ends_goOn (t := s.lookupAdd a size) _ (by constructor <;> rfl) rfl rfl rfl rfl ⟨rfl, rfl, rfl, rfl⟩
  · exact ends_succeed .alloc _ (t := s.lookupAdd a size) (by constructor <;> rfl) rfl rfl rfl rfl

theorem requestAllocation_ends (f : AllocFields) (s : State) : Ends s (requestAllocation f s) := by
  unfold requestAllocation
  dsimp only
  split
  · split
    · exact ends_fail .alloc .alloc (t := s.callAlloc f.size f.caps f.alignment) (by constructor <;> rfl) rfl rfl rfl rfl
    · exact ends_of_transact _ _ (trackAllocation_ends _ _ _)
  · exact ends_fail _ _ (.rfl s) rfl rfl rfl rfl

theorem allocEffect_ends (o : Form AllocFields) (s : State) : Ends s (allocEffect o s) := by
  cases o with
  | short raw => exact ends_fail _ _ (.rfl s) rfl rfl rfl rfl
  | full f x =>
    unfold allocEffect
    dsimp only
    split
    · exact ends_fail _ _ (t := s.callFree _) (by constructor <;> rfl) rfl rfl rfl rfl
    all_goals exact requestAllocation_ends f s

theorem untrack_ends (a : Word) (s : State) : Ends s (untrack a s) := by
  unfold untrack
  dsimp only
  split
  · exact ends_goOn (t := (s.lookupContains a).lookupRemove a) _ (by constructor <;> rfl) rfl rfl rfl rfl
      ⟨rfl, rfl, rfl, rfl⟩
  · exact ends_fail _ _ (t := s.lookupContains a) (by constructor <;> rfl) rfl rfl rfl rfl

theorem freeEffect_ends (o : Form FreeFields) (s : State) : Ends s (freeEffect o s) := by
  cases o with
  | short raw => exact ends_fail _ _ (.rfl s) rfl rfl rfl rfl
  | full f x =>
    unfold freeEffect
    dsimp only
    split
    · exact ends_succeed _ _ (t := s.callFree _) (by constructor <;> rfl) rfl rfl rfl rfl
    all_goals exact untrack_ends _ s

theorem transferWrite_ends (a : Word) (D : Bytes) (s : State) : Ends s (transferWrite a D s) := by
  unfold transferWrite
  split
  · exact ⟨by constructor <;> rfl, .faulted rfl rfl rfl rfl rfl ⟨rfl, rfl, rfl, rfl⟩⟩
  · exact ends_goOn (t := s.memWrite a D) _ (by constructor <;> rfl) rfl rfl rfl rfl ⟨rfl, rfl, rfl, rfl⟩

theorem finishWrite_ends (a : Word) (D : Bytes) (S : Word) (s : State) : Ends s (finishWrite a D S s) :=
  ends_succeed .writeMem _ (t := s.syncLines a.toNat D.length S) (by constructor <;> rfl) rfl rfl rfl rfl

theorem transferRead_ends (a : Word) (n : Nat) (s : State) : Ends s (transferRead a n s) := by
  simp only [transferRead]
  split
  · exact ⟨by constructor <;> rfl, .faulted rfl rfl rfl rfl rfl ⟨rfl, rfl, rfl, rfl⟩⟩
  · exact ends_succeed .readMem _ (t := s.memRead a n) (by constructor <;> rfl) rfl rfl rfl rfl

theorem enterCallee_ends (a : Word) (s : State) : Ends s (enterCallee a s) := by
  simp only [enterCallee]
  split
  · exact ends_succeed _ _ (by constructor <;> rfl) rfl rfl rfl rfl
  · exact ⟨by constructor <;> rfl, .hangs rfl rfl rfl rfl rfl ⟨rfl, rfl, rfl, rfl⟩⟩

theorem checkedWrite_ends (f : WriteFields) (D : Bytes) (s : State) : Ends s (checkedWrite f D s) := by
  simp only [checkedWrite, State.checkRange_eq]
  split
  · exact ends_of_tres _ (transferWrite_ends _ _ _)
  · exact ends_fail _ _ (by constructor <;> rfl) rfl rfl rfl rfl

theorem writeMemEffect_ends (o : Form WriteFields) (s : State) : Ends s (writeMemEffect o s) := by
  cases o with
  | short raw => exact ends_fail _ _ (.rfl s) rfl rfl rfl rfl
  | full f D =>
    unfold writeMemEffect
    dsimp only
    split
    · exact checkedWrite_ends f D s
    · exact checkedWrite_ends f D s
    · exact ends_goOn (t := s.queryLine) _ (by constructor <;> rfl) rfl rfl rfl rfl ⟨rfl, rfl, rfl, rfl⟩
    · exact finishWrite_ends _ _ _ s

theorem readMemEffect_ends (o : Form ReadFields) (s : State) : Ends s (readMemEffect o s) := by
  cases o with
  | short raw => exact ends_fail _ _ (.rfl s) rfl rfl rfl rfl
  | full f x =>
    simp only [readMemEffect, State.checkRange_eq]
    split
    · exact ends_fail _ _ (.rfl s) rfl rfl rfl rfl
    · split
      · exact ends_of_tres _ (transferRead_ends _ _ _)
      · exact ends_fail _ _ (by constructor <;> rfl) rfl rfl rfl rfl

theorem State.checkEntry_eq (s : State) (a : Word) :
    s.checkEntry a = { s with
      tres := if s.cfg.execRequireStart then .bit (tableContains s.table a)
        else .bit (tableValidate s.table a.toNat 1) } := by
  unfold State.checkEntry
  split <;> rfl

theorem callEffect_ends (a : Word) (mf : Byte) (s : State) : Ends s (callEffect a mf s) := by
  simp only [callEffect, State.checkEntry_eq]
  split
  · exact enterCallee_ends a s
  · split
    · exact ends_of_tres _ (enterCallee_ends a _)
    · exact ends_fail _ _ (by constructor <;> rfl) rfl rfl rfl rfl

theorem execEffect_ends (o : ExecForm) (s : State) : Ends s (execEffect o s) := by
  cases o with
  | short raw => exact ends_fail _ _ (.rfl s) rfl rfl rfl rfl
  | bare a => exact callEffect_ends a 0 s
  | flagged a mf x => exact callEffect_ends a mf s

theorem served_table {s : State} (T : List Slot) (r : TrackerResult) : Ends s { s with table := T, tres := r } :=
  ⟨by constructor <;> rfl, .stays rfl rfl rfl rfl ⟨rfl, rfl, rfl, rfl⟩⟩

/-- Every instruction answers a next state, keeps what no instruction changes, and ends in one of the four ways. -/
theorem exec_cases (i : Instr) (s : State) : ∃ t, exec i s = .next t ∧ Ends s t := by
  cases i with
  | ping data => exact ⟨_, rfl, ends_succeed _ _ (.rfl s) rfl rfl rfl rfl⟩
  | getInfo body => exact ⟨_, rfl, ends_succeed _ _ (by constructor <;> rfl) rfl rfl rfl rfl⟩
  | heapInfo body => exact ⟨_, rfl, ends_succeed _ _ (by constructor <;> rfl) rfl rfl rfl rfl⟩
  | alloc o => exact ⟨_, rfl, allocEffect_ends o s⟩
  | free o => exact ⟨_, rfl, freeEffect_ends o s⟩
  | writeMem o => exact ⟨_, rfl, writeMemEffect_ends o s⟩
  | readMem o => exact ⟨_, rfl, readMemEffect_ends o s⟩
  | exec o => exact ⟨_, rfl, execEffect_ends o s⟩
  | trackerAdd a sz => exact ⟨_, rfl, served_table _ _⟩
  | trackerRemove a => exact ⟨_, rfl, served_table _ _⟩
  | trackerContains a => exact ⟨_, rfl, served_table _ _⟩
  | trackerValidate a sz => exact ⟨_, rfl, served_table _ _⟩

/-- The inversion of `exec_cases`. -/
theorem exec_next {i : Instr} {s t : State} (h : exec i s = .next t) : Ends s t := by
  obtain ⟨u, hu, he⟩ := exec_cases i s
  rw [hu] at h
  cases h
  exact he

end Sys2Proof.Machine
end

