-- ==== Sys2Proof/Laws/Step.lean ====
section
/-! SUPPORT. What a step can do, said once: which agent moved, what the worker did, what the framer did; and the invariant's
parts that every other definition shares. -/

namespace Sys2Proof.Machine

/-- A state that differs in the moves to come, in the draw counter and in the producer's lead at most. -/
abbrev SameButTurns (s u : State) : Prop :=
  u = { s with turns := u.turns, draws := u.draws, lead := u.lead }

/-- A step is a move of one agent, from a state that is the same but for how the moves are picked. -/
theorem step_cases {s t : State} (h : step s = .next t) :
    ∃ u m, SameButTurns s u ∧ u.move m = .next t ∧
      ((∃ ts, s.turns = m :: ts) ∨ (s.turns = [] ∧ (m = .worker ∨ m = .producer))) := by
  unfold step at h
  split at h
  · exact ⟨_, _, rfl, h, .inl ⟨_, ‹_›⟩⟩
  · rename_i hs
    unfold State.nextTurn at h
    split at h
    · exact ⟨_, _, rfl, h, .inr ⟨hs, .inl rfl⟩⟩
    · split at h
      · split at h
        · exact ⟨_, _, rfl, h, .inr ⟨hs, .inl rfl⟩⟩
        · exact ⟨_, _, rfl, h, .inr ⟨hs, .inr rfl⟩⟩
      · exact ⟨_, _, rfl, h, .inr ⟨hs, .inr rfl⟩⟩

/-- An awake worker takes the framer's step. -/
theorem workerStep_awake {s : State} (h : s.Awake) : s.workerStep = s.framerStep := by
  simp [State.workerStep, h.clear, h.running, h.free, h.request]

/-- What the worker does when it answers a next state: it waits, serves the lookup engine's request, or takes the framer's
step. -/
theorem workerStep_cases {s t : State} (h : s.workerStep = .next t) :
    s.why = none ∧
      (((s.run ≠ .running ∨ s.hung ≠ none) ∧ t = s) ∨
       (∃ r, s.run = .running ∧ s.hung = none ∧ s.treq = some r ∧ exec (decodeRequest r) { s with treq := none } = .next t) ∨
       (s.Awake ∧ s.framerStep = .next t)) := by
  unfold State.workerStep at h
  split at h
  · cases h
  · refine ⟨‹_›, ?_⟩
    split at h
    · split at h
      · exact .inr (.inl ⟨_, (‹_ ∧ _›).1, (‹_ ∧ _›).2, ‹_›, h⟩)
      · exact .inr (.inr ⟨⟨(‹_ ∧ _›).1, ‹_›, (‹_ ∧ _›).2, ‹_›⟩, h⟩)
    · cases h
      exact .inl ⟨by rename_i hn; by_contra hc; push Not at hc; exact hn hc, rfl⟩

/-- A byte-consuming state with a byte in the queue takes it. -/
theorem framer_take {s : State} {b : Byte} {rest : Bytes} (h : s.st.consumes = true) (hq : s.q = b :: rest) :
    s.framerStep = .next ({ s with q := rest }.takeByte b) := by
  unfold State.framerStep
  split <;> simp_all [FramerState.consumes]

/-- A byte-consuming state with the queue empty waits. -/
theorem framer_wait {s : State} (h : s.st.consumes = true) (hq : s.q = []) : s.framerStep = .next s := by
  unfold State.framerStep
  split <;> simp_all [FramerState.consumes]

/-- What the framer does: it waits for a byte or a port, takes a byte, compares the sums, dispatches, or answers. -/
theorem framerStep_cases {s t : State} (h : s.framerStep = .next t) :
    (s.st.consumes = true ∧ s.q = [] ∧ t = s) ∨
    (s.st.consumes = true ∧ ∃ b rest, s.q = b :: rest ∧ t = { s with q := rest }.takeByte b) ∨
    (s.st = .verify ∧ t = s.verifySum) ∨
    (s.st = .dispatch ∧ ∃ i, decodeCommand s.cfg.cmdIds s.hdr.cmd s.payload = .ok i ∧
      ((s.enables i = true ∧ exec i s = .next t) ∨ (s.enables i = false ∧ t = s))) ∨
    (s.st = .dispatch ∧ (∃ e, decodeCommand s.cfg.cmdIds s.hdr.cmd s.payload = .error e) ∧ t = s.unknownCommand) ∨
    (s.st = .respond ∧ t = s.finishResponse) := by
  by_cases hc : s.st.consumes = true
  · cases hq : s.q with
    | nil => rw [framer_wait hc hq] at h; cases h; exact .inl ⟨hc, rfl, rfl⟩
    | cons b rest => rw [framer_take hc hq] at h; cases h; exact .inr (.inl ⟨hc, _, _, rfl, rfl⟩)
  · unfold State.framerStep at h
    cases hs : s.st <;> simp only [hs, FramerState.consumes, not_true_eq_false, reduceCtorEq] at hc h
    · cases h; simp
    · unfold State.dispatch at h
      split at h
      · split at h
        · simp [*]
        · cases h; simp_all
      · cases h; simp [*]
    · cases h; simp

/-- In `DISPATCH` a command whose port can answer runs. -/
theorem dispatch_enabled {s : State} {i : Instr} (h : decodeCommand s.cfg.cmdIds s.hdr.cmd s.payload = .ok i)
    (he : s.enables i = true) : s.dispatch = exec i s := by
  simp [State.dispatch, h, he]

/-- In `DISPATCH` a command whose port cannot answer waits. -/
theorem dispatch_waits {s : State} {i : Instr} (h : decodeCommand s.cfg.cmdIds s.hdr.cmd s.payload = .ok i)
    (he : s.enables i = false) : s.dispatch = .next s := by
  simp [State.dispatch, h, he]

/-- With every port ready every instruction's step is enabled. -/
theorem enables_of_all {s : State} (h : s.ready = .all) (i : Instr) : s.enables i = true := by
  unfold State.enables
  split
  · rw [h]; rename_i p _; cases p <;> rfl
  · rfl

/-- With no move given and no byte on the link, the worker moves. -/
theorem step_alone {s : State} (h : s.Alone) : step s = s.workerStep := by
  unfold step
  rw [h.turns]
  simp [State.nextTurn, h.link, State.move]

/-- With no move given, the default picks the agent. -/
theorem step_open {s : State} (h : s.turns = []) : step s = s.nextTurn.2.move s.nextTurn.1 := by
  unfold step
  rw [h]

/-- With both agents able to move, the producer moves while `lead` says so, then the worker. -/
theorem step_ready {s : State} (ht : s.turns = []) (hl : s.link ≠ []) (hr : s.workerReady = true) :
    (∃ n, s.lead = n + 1 ∧ step s = .next { s with lead := n }.produce) ∨
    (s.lead = 0 ∧ step s = { s with lead := Config.freeLead s.draws, draws := s.draws + 1 }.workerStep) := by
  have hl' : s.link.isEmpty = false := List.isEmpty_eq_false_iff.mpr hl
  rw [step_open ht]
  cases hn : s.lead with
  | zero => exact .inr ⟨rfl, by simp [State.nextTurn, hl', hr, hn, State.move]⟩
  | succ n => exact .inl ⟨n, rfl, by simp [State.nextTurn, hl', hr, hn, State.move]⟩

/-- With a worker that has no step, the producer moves. -/
theorem step_unready {s : State} (ht : s.turns = []) (hl : s.link ≠ []) (hr : s.workerReady = false) :
    step s = .next s.produce := by
  have hl' : s.link.isEmpty = false := List.isEmpty_eq_false_iff.mpr hl
  rw [step_open ht]
  simp [State.nextTurn, hl', hr, State.move]

/-- A worker alone and awake, in a byte-consuming state, takes the queue's oldest byte. -/
theorem step_take {s : State} {b : Byte} {rest : Bytes} (ha : s.Awake) (hl : s.Alone) (h : s.st.consumes = true)
    (hq : s.q = b :: rest) : step s = .next ({ s with q := rest }.takeByte b) := by
  rw [step_alone hl, workerStep_awake ha, framer_take h hq]

theorem runFor_one {s t : State} (h : step s = .next t) : runFor 1 s = .next t := by simp [runFor, h]

/-- The steps of one command compose. -/
theorem execFor_succ (k : Nat) (i : Instr) {s t : State} (h : exec i s = .next t) : execFor (k + 1) i s = execFor k i t := by
  simp [execFor, h]

/-- Runs compose. -/
theorem runFor_add {a b : Nat} {s t : State} (h : runFor a s = .next t) : runFor (a + b) s = runFor b t := by
  induction a generalizing s with
  | zero => cases h; simp
  | succ a ih =>
    rw [show a + 1 + b = (a + b) + 1 by omega]
    simp only [runFor] at h ⊢
    split at h
    · exact ih h
    · cases h
    · cases h

end Sys2Proof.Machine
end

