-- ==== Sys2Proof/Laws/Frames.lean ====
section
/-! SUPPORT. What an instruction can do to device memory, to the instruction-fetch view, to the table and to its own progress,
said once. -/

namespace Sys2Proof.Machine

/-! ### Device memory and the instruction-fetch view -/

/-- Memory and the instruction-fetch view keep their canonical forms. -/
structure MemEffect (s t : State) : Prop where
  mem   : s.mem.wf → t.mem.wf
  past  : pastWf s.past → pastWf t.past
  dirty : dirtyWf s.dirty → dirtyWf t.dirty

theorem MemEffect.same {s t : State} (h : t.mem = s.mem) (h' : t.past = s.past) (h'' : t.dirty = s.dirty) :
    MemEffect s t :=
  ⟨fun k => h ▸ k, fun k => h' ▸ k, fun k => h'' ▸ k⟩

/-- Stores within the address space keep the canonical forms. -/
theorem storeCells_mem (s : State) {cs : List Host.Cell} (h : ∀ c ∈ cs, c.1 ≤ max32) : MemEffect s (s.storeCells cs) :=
  ⟨fun k => Memory.wf_storeAll k h, fun k => pastWf_pastAll k cs, fun k => dirtyWf_dirtyAll k cs⟩

/-- A transaction that does not fault stays within the address space (R58). -/
theorem memFaults_false {s : State} {a : Word} {n : Nat} (h : s.memFaults a n = false) : a.toNat + n ≤ max32 + 1 := by
  have := a.isLt
  rcases Nat.eq_zero_or_pos n with rfl | hn
  · simp [max32]; omega
  · by_contra hc
    have : s.memFaults a n = true := by
      simp only [State.memFaults, Bool.and_eq_true, decide_eq_true_eq, Bool.or_eq_true]
      exact ⟨by omega, .inl (by omega)⟩
    rw [this] at h; cases h

theorem transferWrite_mem (a : Word) (D : Bytes) (s : State) : MemEffect s (transferWrite a D s) := by
  unfold transferWrite
  split
  · exact .same rfl rfl rfl
  · rename_i h
    have h := memFaults_false (Bool.eq_false_iff.mpr h)
    have := storeCells_mem s (cs := addressed a.toNat D) fun c hc => by have := mem_addressed hc; omega
    exact ⟨this.1, this.2, this.3⟩

theorem finishWrite_mem (a : Word) (D : Bytes) (S : Word) (s : State) : MemEffect s (finishWrite a D S s) := by
  refine ⟨fun k => k, fun k => k, fun k => ?_⟩
  simp only [finishWrite, State.succeed_eq, State.respondWith_dirty, State.syncLines_eq, State.callSync_dirty]
  split
  · exact dirtyWf_dirtyDrop k _ _
  · exact k

theorem enterCallee_mem (a : Word) (s : State) : MemEffect s (enterCallee a s) := by
  unfold enterCallee
  split
  · have := storeCells_mem s (cs := calleeCells ‹_›) fun c hc => calleeCells_le hc
    exact ⟨this.1, this.2, this.3⟩
  · exact .same rfl rfl rfl

theorem callEffect_mem (a : Word) (mf : Byte) (s : State) : MemEffect s (callEffect a mf s) := by
  simp only [callEffect, State.checkEntry_eq]
  split
  · exact enterCallee_mem a s
  · split
    · have := enterCallee_mem a { s with
        tres := if s.cfg.execRequireStart then .bit (tableContains s.table a)
          else .bit (tableValidate s.table a.toNat 1) }
      exact ⟨this.1, this.2, this.3⟩
    · exact .same rfl rfl rfl

/-- ALLOC stores nothing. -/
theorem allocEffect_mem (o : Form AllocFields) (s : State) : MemEffect s (allocEffect o s) := by
  cases o with
  | short raw => exact .same rfl rfl rfl
  | full f x =>
    simp only [allocEffect, requestAllocation, trackAllocation]
    repeat' split
    all_goals refine .same ?_ ?_ ?_ <;> simp

/-- FREE stores nothing. -/
theorem freeEffect_mem (o : Form FreeFields) (s : State) : MemEffect s (freeEffect o s) := by
  cases o with
  | short raw => exact .same rfl rfl rfl
  | full f x =>
    simp only [freeEffect, untrack]
    repeat' split
    all_goals refine .same ?_ ?_ ?_ <;> simp

theorem checkedWrite_mem (f : WriteFields) (D : Bytes) (s : State) : MemEffect s (checkedWrite f D s) := by
  simp only [checkedWrite, State.checkRange_eq]
  split
  · have := transferWrite_mem f.address D { s with
      tres := if skipBounds f.mflags = true then s.tres else .bit (tableValidate s.table f.address.toNat D.length) }
    exact ⟨this.1, this.2, this.3⟩
  · exact .same rfl rfl rfl

theorem writeMemEffect_mem (o : Form WriteFields) (s : State) : MemEffect s (writeMemEffect o s) := by
  cases o with
  | short raw => exact .same rfl rfl rfl
  | full f D =>
    unfold writeMemEffect
    dsimp only
    split
    · exact checkedWrite_mem f D s
    · exact checkedWrite_mem f D s
    · exact .same rfl rfl rfl
    · exact finishWrite_mem _ _ _ s

/-- READMEM stores nothing. -/
theorem readMemEffect_mem (o : Form ReadFields) (s : State) : MemEffect s (readMemEffect o s) := by
  cases o with
  | short raw => exact .same rfl rfl rfl
  | full f x =>
    simp only [readMemEffect, State.checkRange_eq, transferRead]
    repeat' split
    all_goals refine .same ?_ ?_ ?_ <;> simp

/-- Every instruction keeps memory and the fetch view in their canonical forms. -/
theorem exec_mem {i : Instr} {s t : State} (h : exec i s = .next t) : MemEffect s t := by
  cases i with
  | ping data => cases h; exact .same rfl rfl rfl
  | getInfo body => cases h; exact .same rfl rfl rfl
  | heapInfo body => cases h; exact .same rfl rfl rfl
  | alloc o => cases h; exact allocEffect_mem o s
  | free o => cases h; exact freeEffect_mem o s
  | writeMem o => cases h; exact writeMemEffect_mem o s
  | readMem o => cases h; exact readMemEffect_mem o s
  | exec o =>
    cases h
    cases o with
    | short raw => exact .same rfl rfl rfl
    | bare a => exact callEffect_mem a 0 s
    | flagged a mf x => exact callEffect_mem a mf s
  | trackerAdd a sz => cases h; exact .same rfl rfl rfl
  | trackerRemove a => cases h; exact .same rfl rfl rfl
  | trackerContains a => cases h; exact .same rfl rfl rfl
  | trackerValidate a sz => cases h; exact .same rfl rfl rfl

/-! ### The table -/

/-- The table keeps its length, and its slots stay legal. -/
structure TableEffect (s t : State) : Prop where
  length : t.table.length = s.table.length
  legal  : (∀ v ∈ s.table, v.legal) → ∀ v ∈ t.table, v.legal

theorem TableEffect.same {s t : State} (h : t.table = s.table) : TableEffect s t :=
  ⟨by rw [h], by rw [h]; exact id⟩

theorem lookupAdd_table (s : State) (a sz : Word) (ha : a ≠ 0) : TableEffect s (s.lookupAdd a sz) := by
  cases h : tableAdd s.table a sz with
  | none => exact .same (by simp [State.lookupAdd, h])
  | some U =>
    refine ⟨by simp [State.lookupAdd, h, length_tableAdd h], ?_⟩
    intro hl v hv
    obtain ⟨pre, t, post, h1, h2, h3, h4⟩ := tableAdd_eq_some.mp h
    simp only [State.lookupAdd, h, Option.getD_some, h4, List.mem_append, List.mem_cons] at hv
    rcases hv with hv | rfl | hv
    · exact hl v (by simp [h1, hv])
    · simpa [Slot.legal] using ha
    · exact hl v (by simp [h1, hv])

theorem lookupRemove_table (s : State) (a : Word) : TableEffect s (s.lookupRemove a) := by
  cases h : tableRemove s.table a with
  | none => exact .same (by simp [State.lookupRemove, h])
  | some U =>
    refine ⟨by simp [State.lookupRemove, h, length_tableRemove h], ?_⟩
    intro hl v hv
    obtain ⟨pre, t, post, h1, h2, h3, h4, h5⟩ := tableRemove_eq_some.mp h
    simp only [State.lookupRemove, h, Option.getD_some, h5, List.mem_append, List.mem_cons] at hv
    rcases hv with hv | rfl | hv
    · exact hl v (by simp [h1, hv])
    · simp [Slot.free, Slot.legal]
    · exact hl v (by simp [h1, hv])

theorem trackAllocation_table (s : State) (a size : Word) (ha : a ≠ 0) : TableEffect s (trackAllocation s a size) := by
  have := lookupAdd_table s a size ha
  unfold trackAllocation
  dsimp only
  split <;> exact ⟨this.1, this.2⟩

theorem requestAllocation_table (f : AllocFields) (s : State) : TableEffect s (requestAllocation f s) := by
  unfold requestAllocation
  dsimp only
  split
  · split
    · exact .same rfl
    · have := trackAllocation_table (s.callAlloc f.size f.caps f.alignment) s.allocAnswer f.size ‹_›
      exact ⟨this.1, this.2⟩
  · exact .same rfl

theorem untrack_table (a : Word) (s : State) : TableEffect s (untrack a s) := by
  have := lookupRemove_table (s.lookupContains a) a
  unfold untrack
  dsimp only
  split
  · exact ⟨this.1, this.2⟩
  · exact .same rfl

theorem writeMemEffect_table (o : Form WriteFields) (s : State) : (writeMemEffect o s).table = s.table := by
  cases o with
  | short raw => rfl
  | full f D =>
    simp only [writeMemEffect, checkedWrite, State.checkRange_eq, transferWrite, finishWrite]
    repeat' split
    all_goals simp

theorem readMemEffect_table (o : Form ReadFields) (s : State) : (readMemEffect o s).table = s.table := by
  cases o with
  | short raw => rfl
  | full f x =>
    simp only [readMemEffect, State.checkRange_eq, transferRead]
    repeat' split
    all_goals simp

theorem enterCallee_table (a : Word) (s : State) : (enterCallee a s).table = s.table := by
  unfold enterCallee
  split <;> rfl

theorem callEffect_table (a : Word) (mf : Byte) (s : State) : (callEffect a mf s).table = s.table := by
  simp only [callEffect, State.checkEntry_eq]
  repeat' split
  all_goals simp [enterCallee_table]

/-- Every instruction keeps the table's length and its slots legal, unless a request adds address 0. -/
theorem exec_table {i : Instr} {s t : State} (h : exec i s = .next t)
    (hz : ∀ a sz, i = .trackerAdd a sz → a ≠ 0) : TableEffect s t := by
  cases i with
  | ping data => cases h; exact .same rfl
  | getInfo body => cases h; exact .same rfl
  | heapInfo body => cases h; exact .same rfl
  | alloc o =>
    cases h
    cases o with
    | short raw => exact .same rfl
    | full f x =>
      unfold allocEffect
      dsimp only
      split
      · exact .same rfl
      all_goals exact requestAllocation_table f s
  | free o =>
    cases h
    cases o with
    | short raw => exact .same rfl
    | full f x =>
      unfold freeEffect
      dsimp only
      split
      · exact .same rfl
      all_goals exact untrack_table _ s
  | writeMem o => cases h; exact .same (writeMemEffect_table o s)
  | readMem o => cases h; exact .same (readMemEffect_table o s)
  | exec o =>
    cases h
    cases o with
    | short raw => exact .same rfl
    | bare a => exact .same (callEffect_table a 0 s)
    | flagged a mf x => exact .same (callEffect_table a mf s)
  | trackerAdd a sz => cases h; exact lookupAdd_table s a sz (hz a sz rfl)
  | trackerRemove a => cases h; exact lookupRemove_table s a
  | trackerContains a => cases h; exact .same rfl
  | trackerValidate a sz => cases h; exact .same rfl

/-! ### The command's progress -/

/-- The line size in use is at least 1 when the default is (R180). -/
theorem one_le_effectiveLine {s : State} (h : 1 ≤ s.cfg.cacheLineDefault.toNat) : 1 ≤ s.effectiveLine.toNat := by
  unfold State.effectiveLine lineInUse
  split
  · split
    · exact h
    · rename_i S _ hS
      exact Nat.one_le_iff_ne_zero.mpr fun h0 => hS (BitVec.eq_of_toNat_eq h0)
  · exact h

/-- How far a command has come after a step that leaves the framer in its state: not begun, as before, or at the transaction
that its own rule gives it next (R154 to R156). -/
inductive ProgressEffect (i : Instr) (s t : State) : Prop where
  | fresh (h : t.phase = .fresh)
  | same (h : t.phase = s.phase) (e : ∀ o, i ≠ .writeMem o)
  | allocRelease (o : Form AllocFields) (hi : i = .alloc o) (a : Word) (h : t.phase = .release a)
  | freeRelease (o : Form FreeFields) (hi : i = .free o) (a : Word) (h : t.phase = .release a)
  | written (o : Form WriteFields) (hi : i = .writeMem o) (h : t.phase = .written)
  | lineKnown (o : Form WriteFields) (hi : i = .writeMem o) (h : t.phase = .lineKnown s.effectiveLine)

theorem enterCallee_phase (a : Word) (s : State) :
    (enterCallee a s).phase = .fresh ∨ (enterCallee a s).phase = s.phase := by
  unfold enterCallee
  split
  · exact .inl rfl
  · exact .inr rfl

theorem callEffect_phase (a : Word) (mf : Byte) (s : State) :
    (callEffect a mf s).phase = .fresh ∨ (callEffect a mf s).phase = s.phase := by
  have hp : (s.checkEntry a).phase = s.phase := by rw [State.checkEntry_eq]
  unfold callEffect
  split
  · exact enterCallee_phase a s
  · split
    · exact hp ▸ enterCallee_phase a (s.checkEntry a)
    · exact .inl rfl

/-- How far each instruction comes in one step. -/
theorem exec_progress {i : Instr} {s t : State} (h : exec i s = .next t) : ProgressEffect i s t := by
  cases i with
  | ping data => cases h; exact .fresh rfl
  | getInfo body => cases h; exact .fresh rfl
  | heapInfo body => cases h; exact .fresh rfl
  | alloc o =>
    cases h
    cases o with
    | short raw => exact .fresh rfl
    | full f x =>
      simp only [allocEffect, requestAllocation, trackAllocation]
      repeat' split
      all_goals first | exact .fresh rfl | exact .allocRelease _ rfl _ rfl
  | free o =>
    cases h
    cases o with
    | short raw => exact .fresh rfl
    | full f x =>
      simp only [freeEffect, untrack]
      repeat' split
      all_goals first | exact .fresh rfl | exact .freeRelease _ rfl _ rfl
  | writeMem o =>
    cases h
    cases o with
    | short raw => exact .fresh rfl
    | full f D =>
      simp only [writeMemEffect, checkedWrite, State.checkRange_eq, transferWrite, finishWrite]
      repeat' split
      all_goals first | exact .fresh rfl | exact .written _ rfl rfl | exact .lineKnown _ rfl rfl
  | readMem o =>
    cases h
    cases o with
    | short raw => exact .fresh rfl
    | full f x =>
      simp only [readMemEffect, State.checkRange_eq, transferRead]
      repeat' split
      all_goals exact .fresh (by simp)
  | exec o =>
    cases h
    have K : ∀ a mf, ProgressEffect (.exec o) s (callEffect a mf s) := fun a mf =>
      (callEffect_phase a mf s).elim .fresh fun h => .same h (by simp)
    cases o with
    | short raw => exact .fresh rfl
    | bare a => exact K a 0
    | flagged a mf x => exact K a mf
  | trackerAdd a sz => cases h; exact .same rfl (by simp)
  | trackerRemove a => cases h; exact .same rfl (by simp)
  | trackerContains a => cases h; exact .same rfl (by simp)
  | trackerValidate a sz => cases h; exact .same rfl (by simp)

end Sys2Proof.Machine
end

