-- ==== Sys2Proof/Laws/PerInstr.lean ====
section
/-! SUPPORT. Facts of every instruction as syntax, one lemma per constructor. -/

namespace Sys2Proof.Laws.EncodedLength

/-- The payload that the encoder writes for a command has the length that `Instr.payloadLen` gives (R70). -/
def Statement (i : Instr) : Prop :=
  ∀ ids c f P, encode ids i = .packet c f P → P.length = i.payloadLen

theorem ping (data : Bytes) : Statement (.ping data) := by
  rintro ids c f P ⟨⟩; rfl

theorem getInfo (body : Bytes) : Statement (.getInfo body) := by
  rintro ids c f P ⟨⟩; rfl

theorem alloc (o : Form AllocFields) : Statement (.alloc o) := by
  rintro ids c f P ⟨⟩
  cases o <;> simp [allocBytes, Instr.payloadLen, Form.payloadLen, Cmd.fixedLen]
  omega

theorem free (o : Form FreeFields) : Statement (.free o) := by
  rintro ids c f P ⟨⟩
  cases o <;> simp [freeBytes, Instr.payloadLen, Form.payloadLen, Cmd.fixedLen]

theorem writeMem (o : Form WriteFields) : Statement (.writeMem o) := by
  rintro ids c f P ⟨⟩
  cases o <;> simp [writeBytes, Instr.payloadLen, Form.payloadLen, Cmd.fixedLen]
  omega

theorem readMem (o : Form ReadFields) : Statement (.readMem o) := by
  rintro ids c f P ⟨⟩
  cases o <;> simp [readBytes, Instr.payloadLen, Form.payloadLen, Cmd.fixedLen]
  omega

theorem exec (o : ExecForm) : Statement (.exec o) := by
  rintro ids c f P ⟨⟩
  cases o <;> simp [execBytes, Instr.payloadLen, ExecForm.payloadLen]
  omega

theorem heapInfo (body : Bytes) : Statement (.heapInfo body) := by
  rintro ids c f P ⟨⟩; rfl

theorem trackerAdd (a sz : Word) : Statement (.trackerAdd a sz) := by
  rintro ids c f P ⟨⟩

theorem trackerRemove (a : Word) : Statement (.trackerRemove a) := by
  rintro ids c f P ⟨⟩

theorem trackerContains (a : Word) : Statement (.trackerContains a) := by
  rintro ids c f P ⟨⟩

theorem trackerValidate (a sz : Word) : Statement (.trackerValidate a sz) := by
  rintro ids c f P ⟨⟩

end Sys2Proof.Laws.EncodedLength
end

