-- ==== Sys2Proof/Tests/Slice0.lean ====
section
/-! SUPPORT. The model's own tests: ill-formed instructions refused, words written out from the spec's encodings decoded, one
step per test on a small state with results taken from 95_test_vectors.md, and a witness for every statement that has
hypotheses. -/

namespace Sys2Proof.Tests

open Sys2Proof Sys2Proof.Machine

/-! ## Helpers -/

/-- The slot that most vectors start from. -/
def slot : Slot := ⟨0x4FF00000, 256, true⟩

/-- A running block in the test configuration with a table of four slots, small buffers and an answer ready on every port. -/
def engine : State :=
  { State.reset with
    cfg := { standardConfig with tableCapacity := 4, rxBufSize := 32, txBufSize := 32, transportLimit := 32 }
    run := .running
    maxPayload := 32
    rxbuf := List.replicate 32 0
    txbuf := List.replicate 32 0
    table := [slot, Slot.free, Slot.free, Slot.free]
    ans :=
      { allocs := [0x4FF00100, 0x4FF00200], lines := [some 64], syncs := [true], execs := [.returns 42 []]
        heaps := [⟨1000, 2000, 30, 40⟩], served := [true, true], buffers := [true, true], drops := [true] } }

/-- The block in `DISPATCH`. -/
def busy : State := { engine with st := .dispatch }

/-- The block in a framer state with some bytes queued. -/
def framing (st : FramerState) (q : Bytes) : State := { engine with st := st, q := q }

/-- The block with another table. -/
def withTable (T : List Slot) : State := { busy with table := T }

/-- The block with no entry in use. -/
def empty : State := withTable [Slot.free, Slot.free, Slot.free, Slot.free]

/-- The block with every slot in use. -/
def full : State := withTable [⟨1, 1, true⟩, ⟨2, 1, true⟩, ⟨3, 1, true⟩, ⟨4, 1, true⟩]

/-- The next state of an outcome, or the state given. -/
def after (s : State) : Host.Outcome State Fault Refusal → State
  | .next t => t
  | .fault _ => s
  | .refused _ => s

/-- Whether an outcome is a next state. -/
def isNext : Host.Outcome State Fault Refusal → Bool
  | .next _ => true
  | .fault _ => false
  | .refused _ => false

theorem next_of_isNext {o : Host.Outcome State Fault Refusal} (h : isNext o = true) : ∃ t, o = .next t := by
  cases o with
  | next t => exact ⟨t, rfl⟩
  | fault f => cases h
  | refused r => cases h

/-- The state after a command's steps, up to the number given: one step, and one more for as long as the command goes on. -/
def settle : Nat → Instr → State → State
  | 0, _, s => s
  | k + 1, i, s => if (after s (exec i s)).phase = .fresh then after s (exec i s) else settle k i (after s (exec i s))

/-- The state after a whole command. -/
def done (i : Instr) (s : State) : State := settle 3 i s

/-- The response flags and payload after a command. -/
def answer (i : Instr) (s : State) : Byte × Bytes := ((done i s).tflags, (done i s).tpay)

/-- The block dispatching a FREE of its one entry, and a WRITEMEM with skip-bounds. -/
def freeing : State := { busy with hdr := ⟨4, 0, 4, 0, 0, 0⟩, rxbuf := [0, 0, 0xF0, 0x4F] ++ List.replicate 28 0 }
def writing : State :=
  { busy with hdr := ⟨5, 0, 9, 0, 0, 0⟩, rxbuf := [0, 0, 0xF0, 0x4F, 1, 0, 0, 0, 7] ++ List.replicate 23 0 }

/-- Two writes of one byte. -/
def write5 : Instr := .writeMem (.full ⟨0x4FF00000, 0, 0, 0, 0⟩ [5])
def write7 : Instr := .writeMem (.full ⟨0x4FF00000, 0, 0, 0, 0⟩ [7])

/-! ## WellFormed smoke: an ill-formed term for each check -/

theorem test_wf_refuses_long_short_alloc : (Instr.alloc (.short (List.replicate 12 0))).wf = false := by decide
theorem test_wf_refuses_long_short_free : (Instr.free (.short [0, 0, 0, 0])).wf = false := by decide
theorem test_wf_refuses_long_short_write : (Instr.writeMem (.short (List.replicate 8 0))).wf = false := by decide
theorem test_wf_refuses_long_short_read : (Instr.readMem (.short (List.replicate 12 0))).wf = false := by decide
theorem test_wf_refuses_long_short_exec : (Instr.exec (.short [0, 0, 0, 0])).wf = false := by decide

/-- A payload longer than the length field can say (R71) is ill-formed. -/
theorem test_wf_refuses_a_payload_above_max32 : (Instr.ping (List.replicate 4294967296 0)).wf = false := by
  simp only [Instr.wf, Instr.payloadLen, List.length_replicate, max32]; rfl

theorem test_fits_refuses_above_the_maximum : (Instr.ping [1, 2, 3]).fits 2 = false := by decide
theorem test_wf_accepts_short_forms : (Instr.alloc (.short [1])).wf = true := by decide
theorem test_configOk_refuses_16 : configOk { standardConfig with rxBufSize := 16 } = false := by decide
theorem test_configOk_refuses_no_slot : configOk { standardConfig with tableCapacity := 0 } = false := by decide
theorem test_configOk_refuses_line_0 : configOk { standardConfig with cacheLineDefault := 0 } = false := by decide
theorem test_configOk_refuses_depth_0 : configOk { standardConfig with rxFifoDepth := 0 } = false := by decide
theorem test_configOk_refuses_one_id_twice :
    configOk { standardConfig with cmdIds := { CmdIds.decided with exec := 0x01 } } = false := by decide

/-! ## Decoding: packets written out from R70 to R84 (the bytes of 95_test_vectors.md) -/

theorem test_decode_ping :
    decodeBytes standardConfig 128 [0xA5, 0x5A, 0x01, 0x00, 0x02, 0x00, 0x00, 0x00, 0x68, 0x69, 0xD4, 0x00, 0x77]
      = .ok (.ping [0x68, 0x69], [0x77]) := by decide

theorem test_decode_getInfo :
    decodeBytes standardConfig 128 [0xA5, 0x5A, 0x02, 0x00, 0x03, 0x00, 0x00, 0x00, 0xAA, 0xBB, 0xCC, 0x36, 0x02]
      = .ok (.getInfo [0xAA, 0xBB, 0xCC], []) := by decide

theorem test_decode_alloc :
    decodeBytes standardConfig 128
        [0xA5, 0x5A, 0x03, 0x00, 0x0C, 0x00, 0x00, 0x00, 0x10, 0x00, 0x00, 0x00, 0x00, 0x08, 0x00, 0x00,
         0x00, 0x00, 0x00, 0x80, 0xA7, 0x00]
      = .ok (.alloc (.full ⟨16, 0x800, 0x80000000⟩ []), []) := by decide

theorem test_decode_free :
    decodeBytes standardConfig 128
        [0xA5, 0x5A, 0x04, 0x00, 0x04, 0x00, 0x00, 0x00, 0x00, 0x00, 0xF0, 0x4F, 0x47, 0x01]
      = .ok (.free (.full ⟨0x4FF00000⟩ []), []) := by decide

theorem test_decode_writeMem :
    decodeBytes standardConfig 128
        [0xA5, 0x5A, 0x05, 0x00, 0x09, 0x00, 0x00, 0x00, 0x00, 0x00, 0xF0, 0x4F, 0xFE, 0x01, 0x02, 0x03, 0x99, 0xEA, 0x02]
      = .ok (.writeMem (.full ⟨0x4FF00000, 0xFE, 0x01, 0x02, 0x03⟩ [0x99]), []) := by decide

theorem test_decode_readMem :
    decodeBytes standardConfig 128
        [0xA5, 0x5A, 0x06, 0x00, 0x0C, 0x00, 0x00, 0x00, 0x00, 0x00, 0xF0, 0x3F, 0x02, 0x00, 0x00, 0x00,
         0x01, 0x00, 0x00, 0x00, 0x44, 0x01]
      = .ok (.readMem (.full ⟨0x3FF00000, 2, 0x01, 0, 0, 0⟩ []), []) := by decide

theorem test_decode_exec_bare :
    decodeBytes standardConfig 128
        [0xA5, 0x5A, 0x07, 0x00, 0x04, 0x00, 0x00, 0x00, 0x80, 0x00, 0xF0, 0x4F, 0xCA, 0x01]
      = .ok (.exec (.bare 0x4FF00080), []) := by decide

theorem test_decode_exec_flagged :
    decodeBytes standardConfig 128
        [0xA5, 0x5A, 0x07, 0x00, 0x05, 0x00, 0x00, 0x00, 0x00, 0x00, 0x00, 0x40, 0x01, 0x4D, 0x00]
      = .ok (.exec (.flagged 0x40000000 0x01 []), []) := by decide

theorem test_decode_heapInfo :
    decodeBytes standardConfig 128 [0xA5, 0x5A, 0x08, 0x00, 0x01, 0x00, 0x00, 0x00, 0x00, 0x09, 0x00]
      = .ok (.heapInfo [0], []) := by decide

theorem test_decode_tracker_requests :
    decode .decided (.request ⟨0b00#2, 5, 6⟩) = .ok (.trackerAdd 5 6) ∧
    decode .decided (.request ⟨0b01#2, 5, 6⟩) = .ok (.trackerRemove 5) ∧
    decode .decided (.request ⟨0b10#2, 5, 6⟩) = .ok (.trackerContains 5) ∧
    decode .decided (.request ⟨0b11#2, 5, 6⟩) = .ok (.trackerValidate 5 6) := by decide

/-- Another table of ids and codes (D4, D7): the id it gives PING selects PING, 0x01 is then unknown, and the report carries
the table's own code. -/
def otherTables : Config :=
  { engine.cfg with
    cmdIds := ⟨0x10, 0x20, 0x30, 0x40, 0x50, 0x60, 0x70, 0x80⟩, errCodes := ⟨11, 12, 13, 14, 15, 16⟩ }

theorem test_other_ids :
    decodeCommand otherTables.cmdIds 0x10 [7] = .ok (.ping [7]) ∧
    decodeCommand otherTables.cmdIds 0x01 [7] = .error (.unknownCommand 0x01) ∧
    (after busy (step { busy with cfg := otherTables, hdr := ⟨0x01, 0, 0, 0, 0, 0⟩ })).tpay = [12, 0, 0, 0] ∧
    answer (.free (.short [])) { busy with cfg := otherTables } = (0x01, [13, 0, 0, 0]) := by decide

theorem test_decode_short_alloc :
    decodeBytes standardConfig 128 [0xA5, 0x5A, 0x03, 0x00, 0x04, 0x00, 0x00, 0x00, 0x00, 0x00, 0x00, 0x00, 0x07, 0x00]
      = .ok (.alloc (.short [0, 0, 0, 0]), []) := by decide

theorem test_decode_bad_checksum :
    decodeBytes standardConfig 128 [0xA5, 0x5A, 0x01, 0x00, 0x02, 0x00, 0x00, 0x00, 0x68, 0x69, 0xD5, 0x00]
      = .error (.badChecksum 0x01) := by decide

theorem test_decode_unknown_command :
    decodeBytes standardConfig 128 [0xA5, 0x5A, 0x09, 0x00, 0x00, 0x00, 0x00, 0x00, 0x09, 0x00]
      = .error (.unknownCommand 0x09) := by decide

theorem test_decode_oversized :
    decodeBytes standardConfig 128 [0xA5, 0x5A, 0x01, 0x00, 0x81, 0x00, 0x00, 0x00] = .error (.oversized 129) := by decide

theorem test_decode_bad_magic : decodeBytes standardConfig 128 [0xA5, 0x00, 0x5A, 0, 0, 0, 0, 0, 0, 0] = .error .badMagic := by
  decide

theorem test_decode_truncated : decodeBytes standardConfig 128 [0xA5, 0x5A, 0x01, 0, 2, 0, 0, 0, 0x68] = .error .truncated := by
  decide

/-- The notation's pseudo-instructions (V24, V98, V110, V119). -/
theorem test_pseudo_instructions :
    encodeBytes standardConfig (writeMemSkip 0x40800000 [0x55])
      = some [0xA5, 0x5A, 0x05, 0, 0x09, 0, 0, 0, 0x00, 0x00, 0x80, 0x40, 0x01, 0, 0, 0, 0x55, 0x24, 0x01] ∧
    encodeBytes standardConfig (readMemSkip 0x3FF00000 2)
      = some [0xA5, 0x5A, 0x06, 0, 0x0C, 0, 0, 0, 0, 0, 0xF0, 0x3F, 2, 0, 0, 0, 1, 0, 0, 0, 0x44, 0x01] ∧
    encodeBytes standardConfig (execSkip 0x40000000)
      = some [0xA5, 0x5A, 0x07, 0, 0x05, 0, 0, 0, 0, 0, 0, 0x40, 1, 0x4D, 0x00] ∧
    badSumBytes standardConfig (.ping [0x68, 0x69])
      = some [0xA5, 0x5A, 0x01, 0x00, 0x02, 0x00, 0x00, 0x00, 0x68, 0x69, 0xD5, 0x00] := by decide

/-- The opcode table's words: a packet row, and the two rows of the lookup engine that no packet row shares (log entry 22). -/
theorem test_table_words :
    decodeTableWord 8 0x04 = some (.free (.full ⟨0⟩ [])) ∧ decodeTableWord 16 0x03 = some (.alloc (.full ⟨0, 0, 0⟩ [])) ∧
    decodeTableWord 8 0b00 = some (.trackerAdd 0 0) ∧ decodeTableWord 8 0b11 = some (.trackerValidate 0 0) ∧
    decodeTableWord 8 0x09 = none := by decide

theorem test_withFetchWord_runs_its_word :
    (after State.reset (step (State.reset.withFetchWord 8 0x04))).st = .respond ∧
    (after State.reset (step (State.reset.withFetchWord 8 0b00))).tres = .ok := by decide

/-! ## The checksum (V12, V13, V14) -/

theorem test_csum_257 : csum (List.replicate 257 0xFF) = 0xFFFF := by decide +kernel
theorem test_csum_wraps : csum (List.replicate 258 0xFF) = 0x00FE := by decide +kernel
theorem test_csum_largest_at_128 : csum (List.replicate 134 0xFF) = 0x857A := by decide +kernel

/-! ## The framer, one step each (V17, V18, V32 to V35, V24) -/

theorem test_sync2_retests_the_byte : (after engine (step (framing .sync2 [0xA5, 0x5A]))).st = .sync2 := by decide
theorem test_sync2_other_byte : (after engine (step (framing .sync2 [0x00]))).st = .sync1 := by decide

theorem test_header_at_the_maximum :
    (after engine (step { framing .hdr [0] with idx := 5, hdr := ⟨1, 0, 32, 0, 0, 9⟩ })).st = .payload := by decide

theorem test_header_above_the_maximum :
    (after engine (step { framing .hdr [0] with idx := 5, hdr := ⟨1, 0, 33, 0, 0, 9⟩ })).st = .drain ∧
    (after engine (step { framing .hdr [0] with idx := 5, hdr := ⟨1, 0, 33, 0, 0, 9⟩ })).drain = 35 := by decide

theorem test_drain_needs_33_bits :
    (after engine (step { framing .hdr [0xFF] with idx := 5, hdr := ⟨1, 0, 0xFF, 0xFF, 0xFF, 0⟩ })).drain = 4294967297 := by
  decide

theorem test_drain_ends : (after engine (step { framing .drain [0xA5] with drain := 1 })).st = .sync1 := by decide

theorem test_payload_byte :
    (after engine (step { framing .payload [0x69] with idx := 1, hdr := ⟨1, 0, 2, 0, 0, 0⟩, acc := 0x6B })).acc = 0xD4 ∧
    (after engine (step { framing .payload [0x69] with idx := 1, hdr := ⟨1, 0, 2, 0, 0, 0⟩, acc := 0x6B })).st = .csum := by
  decide

theorem test_checksum_bytes :
    (after engine (step { framing .csum [0xD4] with rcs := 0x1234 })).rcs = 0x12D4 ∧
    (after engine (step { framing .csum [0xA5] with idx := 1, rcs := 0x1200 })).rcs = 0xA500 := by decide

theorem test_verify_mismatch :
    (after engine (step { framing .verify [] with acc := 0xD4, rcs := 0xD5, hdr := ⟨9, 0, 2, 0, 0, 0⟩ })).tpay = [1, 0, 0, 0] ∧
    (after engine (step { framing .verify [] with acc := 0xD4, rcs := 0xD5, hdr := ⟨9, 0, 2, 0, 0, 0⟩ })).tcmd = 9 := by
  decide

theorem test_respond_bytes :
    (after engine (step { framing .respond [] with tcmd := 1, tflags := 1, tlen := 4, txbuf := [1, 0, 0, 0, 9] })).out
      = [0xA5, 0x5A, 0x01, 0x01, 0x04, 0x00, 0x00, 0x00, 0x01, 0x00, 0x00, 0x00, 0x07, 0x00] := by decide

/-! ## The commands (V68 to V125) -/

theorem test_ping : answer (.ping [0x68, 0x69]) busy = (0x00, [0x68, 0x69]) := by decide
theorem test_ping_empty : answer (.ping []) busy = (0x00, []) := by decide

theorem test_getInfo :
    answer (.getInfo []) { busy with maxPayload := 128, cfg := standardConfig }
      = (0x00, [1, 0, 0, 0, 0x80, 0, 0, 0, 0x40, 0, 0, 0, 0x40, 0, 0, 0, 0, 1, 0, 0]) := by decide

theorem test_getInfo_fallback :
    ((answer (.getInfo []) { busy with
        cfg := { standardConfig with cacheLineDefault := 32 }, ans := { busy.ans with lines := [some 0] } }).2.drop 8).take 4
      = [0x20, 0, 0, 0] := by decide

theorem test_heapInfo :
    answer (.heapInfo [0]) busy
      = (0x00, [0xE8, 3, 0, 0, 0xD0, 7, 0, 0, 0x1E, 0, 0, 0, 0x28, 0, 0, 0]) := by decide

theorem test_alloc :
    answer (.alloc (.full ⟨16, 0, 0x80000000⟩ [])) busy = (0x00, [0x00, 0x01, 0xF0, 0x4F, 0, 0, 0, 0]) ∧
    (after busy (exec (.alloc (.full ⟨16, 0, 1⟩ [])) busy)).table = [slot, ⟨0x4FF00100, 16, true⟩, Slot.free, Slot.free] := by
  decide

theorem test_alloc_full_table_releases :
    answer (.alloc (.full ⟨256, 0, 16⟩ [])) full = (0x01, [4, 0, 0, 0]) ∧
    (done (.alloc (.full ⟨256, 0, 16⟩ [])) full).log = [.alloc 256 0 16 0x4FF00100, .free 0x4FF00100] := by decide

theorem test_free_then_again :
    answer (.free (.full ⟨0x4FF00000⟩ [])) busy = (0x00, [0, 0, 0, 0]) ∧
    answer (.free (.full ⟨0x4FF00000⟩ [])) empty = (0x01, [5, 0, 0, 0]) := by decide

/-- "The allocator is told only after the table entry is gone" (R155): after one step the entry is gone and it is not told. -/
theorem test_free_untracks_first :
    (after busy (exec (.free (.full ⟨0x4FF00000⟩ [])) busy)).table = empty.table ∧
    (after busy (exec (.free (.full ⟨0x4FF00000⟩ [])) busy)).log = [] ∧
    (done (.free (.full ⟨0x4FF00000⟩ [])) busy).log = [.free 0x4FF00000] := by decide

theorem test_free_interior : answer (.free (.full ⟨0x4FF00004⟩ [])) busy = (0x01, [5, 0, 0, 0]) := by decide

theorem test_writeMem :
    answer (.writeMem (.full ⟨0x4FF000FC, 0, 0, 0, 0⟩ [0xAA, 0xBB, 0xCC, 0xDD])) busy = (0x00, [4, 0, 0, 0, 0, 0, 0, 0]) ∧
    (done (.writeMem (.full ⟨0x4FF000FC, 0, 0, 0, 0⟩ [0xAA, 0xBB, 0xCC, 0xDD])) busy).log
      = [.memWrite 0x4FF000FC [0xAA, 0xBB, 0xCC, 0xDD], .lineSize (some 64), .sync 0x4FF000C0 64 true] := by decide

theorem test_writeMem_past_the_top_faults :
    (after empty (exec (.writeMem (.full ⟨0xFFFFFFFE, 1, 0, 0, 0⟩ [1, 2, 3, 4])) empty)).why = some ⟨0xFFFFFFFE, .write⟩ ∧
    (after empty (exec (.writeMem (.full ⟨0xFFFFFFFE, 1, 0, 0, 0⟩ [1, 2, 3, 4])) empty)).mem = [] := by decide

theorem test_readMem :
    answer (.readMem (.full ⟨0x4FF00001, 2, 0, 0, 0, 0⟩ [])) { busy with mem := [(0x4FF00000, 0x13), (0x4FF00001, 5)] }
      = (0x00, [5, 0]) := by decide

theorem test_readMem_size_limit_with_skip :
    answer (.readMem (.full ⟨0x4FF00000, 33, 1, 0, 0, 0⟩ [])) busy = (0x01, [3, 0, 0, 0]) := by decide

theorem test_exec :
    answer (.exec (.bare 0x4FF000FF)) busy = (0x00, [0x2A, 0, 0, 0]) ∧
    answer (.exec (.flagged 0x4FF00100 0xFE [])) busy = (0x01, [5, 0, 0, 0]) := by decide

theorem test_exec_needs_a_start :
    answer (.exec (.bare 0x4FF00080)) { busy with cfg := { busy.cfg with execRequireStart := true } } = (0x01, [5, 0, 0, 0]) := by
  decide

/-- A port that cannot answer keeps its command waiting (R12), and no other. -/
theorem test_unready_port_waits :
    (after engine (step { writing with ready := { Ready.all with memory := false } })).mem = [] ∧
    (after engine (step { writing with ready := { Ready.all with cache := false } })).phase = .written ∧
    (after engine (step { writing with ready := { Ready.all with memory := false }, turns := [.port .memory true] })).ready
      = .all := by decide

/-- A power-on between two transactions of one command (R12, R224): the bytes stay written and the command is gone. -/
theorem test_power_on_within_a_command :
    (after engine (step { after engine (step writing) with turns := [.powerOn []] })).mem = [(0x4FF00000, 7)] ∧
    (after engine (step { after engine (step writing) with turns := [.powerOn []] })).phase = .fresh := by decide

/-- After a failed sync a fetch may see contents from before an earlier good one (R64). -/
theorem test_failed_sync_shows_any_older_contents :
    ((done write7 { done write5 busy with st := .dispatch, ans := { busy.ans with syncs := [false] } }).fetchMaySee
        0x4FF00000 0) = true ∧
    ((done write7 { done write5 busy with st := .dispatch, ans := { busy.ans with syncs := [false] } }).fetchMaySee
        0x4FF00000 5) = true ∧
    ((done write5 busy).fetchMaySee 0x4FF00000 0) = false := by decide

/-! ## The lookup engine (V38, V40, V44, V46, V49 to V62) -/

theorem test_trackerAdd :
    (after busy (exec (.trackerAdd 0x4FF00200 8) (withTable [Slot.free, ⟨0x4FF00100, 16, true⟩]))).table
      = [⟨0x4FF00200, 8, true⟩, ⟨0x4FF00100, 16, true⟩] ∧
    (after busy (exec (.trackerAdd 5 1) full)).tres = .tableFull := by decide

theorem test_trackerRemove :
    (after busy (exec (.trackerRemove 0x4FF00000) (withTable [slot, slot]))).table = [Slot.free, slot] ∧
    (after busy (exec (.trackerRemove 0x4FF00004) busy)).tres = .notFound := by decide

theorem test_trackerContains :
    (after busy (exec (.trackerContains 0x4FF00000) busy)).tres = .bit true ∧
    (after busy (exec (.trackerContains 0x4FF00004) busy)).tres = .bit false := by decide

theorem test_trackerValidate :
    (after busy (exec (.trackerValidate 0x4FF00100 0) busy)).tres = .bit true ∧
    (after busy (exec (.trackerValidate 0x4FF00000 257) busy)).tres = .bit false ∧
    (after busy (exec (.trackerValidate 0xFFFFFF00 1) (withTable [⟨0xFFFFFF00, 256, true⟩]))).tres = .bit false := by decide

/-! ## The cache range (V134, V135, V138, V139) -/

theorem test_alignedRange :
    alignedRange 0x4FF00040 0 64 = (0x4FF00040, 0) ∧ alignedRange 0x4FF00021 0 64 = (0x4FF00000, 64) ∧
    alignedRange 0x1001 1 3 = (0xFFF, 3) ∧ alignedRange 0xFFFFFFC0 64 64 = (0xFFFFFFC0, 64) := by decide

/-! ## Witnesses: concrete states and operands that meet each statement's hypotheses -/

theorem awake_of {s : State} (h : s.run = .running ∧ s.why = none ∧ s.hung = none ∧ s.treq = none) : s.Awake :=
  ⟨h.1, h.2.1, h.2.2.1, h.2.2.2⟩

theorem alone_of {s : State} (h : s.turns = [] ∧ s.link = []) : s.Alone := ⟨h.1, h.2⟩

theorem built_of {s : State} (h : configOk s.cfg = true ∧ s.maxPayload = negotiatedMax s.cfg ∧
    s.rxbuf.length = s.cfg.rxBufSize.toNat ∧ s.txbuf.length = s.cfg.txBufSize.toNat ∧
    s.table.length = s.cfg.tableCapacity.toNat) : s.Built :=
  ⟨h.1, h.2.1, h.2.2.1, h.2.2.2.1, h.2.2.2.2⟩

/-- The invariant of a running block, from facts that evaluation decides. -/
theorem inv_of {s : State} (hb : s.Built) (hq : s.treq = none) (hf : s.FramerBounds)
    (h : s.mem.wf ∧ pastWf s.past ∧ dirtyWf s.dirty ∧ s.phase = .fresh ∧ (s.run = .faulted ↔ s.why.isSome = true) ∧ s.q.length ≤ s.cfg.rxFifoDepth ∧
      (s.run = .idle ∨ s.run = .failed → s.st = .sync1) ∧ (∀ t ∈ s.table, t.legal) ∧
      (s.hung.isSome = true → s.run = .running ∧ s.st = .dispatch)) : s.Inv :=
  ⟨h.1, h.2.1, h.2.2.1, h.2.2.2.2.1, h.2.2.2.2.2.1, fun _ => hb, h.2.2.2.2.2.2.1, h.2.2.2.2.2.2.2.1, by simp [hq], hf,
    h.2.2.2.2.2.2.2.2, by simp [State.ProgressOk, h.2.2.2.1]⟩

theorem engine_inv : engine.Inv := inv_of (built_of (by decide)) rfl trivial (by decide)

theorem busy_inv : busy.Inv := inv_of (built_of (by decide)) rfl (by simp [State.FramerBounds, busy]; decide) (by decide)

/-- The block after a fault. -/
def faulted : State := { busy with run := .faulted, why := some ⟨0xFFFFFFFC, .write⟩ }

theorem faulted_inv : faulted.Inv := inv_of (built_of (by decide)) rfl (by simp [State.FramerBounds, faulted, busy]; decide) (by decide)

/-- The block inside a callee that never returns. -/
def hanging : State := { busy with hung := some 0x4FF00000 }

theorem hanging_inv : hanging.Inv := inv_of (built_of (by decide)) rfl (by simp [State.FramerBounds, hanging, busy]; decide) (by decide)

/-- The block before a start, with the answers its buffer allocations get. -/
def idle (buffers : List Bool) : State :=
  { State.reset with cfg := engine.cfg, ans := { Answers.nothing with buffers := buffers } }

theorem witness_StepKeepsTheInvariant : busy.Inv ∧ ∃ t, step busy = .next t := ⟨busy_inv, _, rfl⟩

/-- A block in `VERIFY` whose sum is right. -/
def verifying : State := { framing .verify [] with hdr := ⟨1, 0, 1, 0, 0, 0⟩, acc := 2, rcs := 2 }

theorem witness_StepKeepsTheSumRight : verifying.Inv ∧ verifying.SumRight ∧ ∃ t, step verifying = .next t :=
  ⟨inv_of (built_of (by decide)) rfl (by simp [State.FramerBounds, verifying, framing]; decide) (by decide),
    by simp only [State.SumRight, verifying, framing]; decide, _, rfl⟩

theorem witness_UnspecifiedRegistersAreNeverRead :
    engine.specified = { engine with idx := 7, acc := 9, rxbuf := List.replicate 32 5 }.specified ∧
    engine ≠ { engine with idx := 7, acc := 9, rxbuf := List.replicate 32 5 } := by decide

theorem witness_StartProcedure :
    configOk (idle [true, true]).cfg = true ∧ (idle [true, true]).run = .idle ∧
    (idle [true, true]).bufferObtained 32 = true ∧ ((idle [true, true]).obtainBuffer 32).bufferObtained 32 = true ∧
    ((idle [true, false, false]).obtainBuffer 32).bufferObtained 32 = false ∧
    { idle [] with run := .failed }.why = none ∧ engine.run = .running ∧ faulted.run = .faulted := by decide

theorem witness_NegotiatedMaximumIsFixed :
    isNext (idle [true, true]).start = true ∧ (after engine (idle [true, true]).start).run = .running ∧
    isNext (step engine) = true ∧ (after State.reset (step engine)).run = .running ∧
    min (min 16 128) 128 < 20 := by decide

theorem witness_PowerOnDiscardsTheBlock :
    isNext { idle [true, true] with table := [] }.start = true ∧
    (after engine { idle [true, true] with table := [] }.start).run = .running := by decide

theorem witness_StepIsOneAgentsMove :
    { engine with turns := [.hostRecv] }.turns = [.hostRecv] ∧ engine.Alone ∧
    { engine with link := [1] }.workerReady = false ∧ { busy with link := [1] }.workerReady = true ∧
    { busy with link := [1], lead := 2 }.workerReady = true ∧ { busy with link := [1], lead := 2 }.turns = [] := by
  refine ⟨rfl, alone_of (by decide), by decide, by decide, by decide, rfl⟩

/-- A worker that can move does so after the producer's two moves (R231). -/
theorem test_lead_counts_down :
    (after engine (runFor 2 { busy with link := [1, 2, 3], lead := 2 })).q = [1, 2] ∧
    (after engine (runFor 3 { busy with link := [1, 2, 3], lead := 2 })).st = .respond := by decide

theorem witness_ConfigurationIsReadOnly : ∃ t, step busy = .next t := ⟨_, rfl⟩

theorem witness_InputQueueIsAFifo :
    { engine with link := [1, 2] }.q.length < engine.cfg.rxFifoDepth ∧
    { engine with cfg := { engine.cfg with rxFifoDepth := 1 }, link := [1, 2], q := [9] }.cfg.rxFifoDepth ≤ [9].length ∧
    { idle [] with link := [1] }.run = .idle ∧ { idle [] with link := [1] }.q.length < (idle []).cfg.rxFifoDepth ∧
    isNext (step { engine with link := [1, 2] }) = true := by decide

theorem witness_OnlyRespondEmits :
    isNext (step (framing .respond [])) = true ∧ (after engine (step (framing .respond []))).out ≠ (framing .respond []).out ∧
    (after engine (step { engine with out := [1, 2], turns := [.hostRecv] })).out ≠ [1, 2] := by decide

theorem witness_FramerStepsByBytes :
    (idle []).why = none ∧ (idle []).run ≠ .running ∧ faulted.why ≠ none ∧ (framing .drain []).Awake ∧
    (framing .drain []).st.consumes = true ∧ (framing .hdr [0xA5]).q = 0xA5 :: [] ∧ busy.st.consumes = false :=
  ⟨by decide, by decide, by decide, awake_of (by decide), by decide, by decide, by decide⟩

theorem witness_Sync1HuntsForMagic : (framing .sync1 [0xA5, 1]).Awake ∧ (framing .sync1 [0xA5, 1]).q = 0xA5 :: [1] :=
  ⟨awake_of (by decide), rfl⟩

theorem witness_Sync2MatchesOrRetests :
    (framing .sync2 [0x5A]).Awake ∧ (0x5A : Byte) = (framing .sync2 [0x5A]).cfg.magic1 ∧
    (0xA5 : Byte) ≠ (framing .sync2 [0xA5]).cfg.magic1 := ⟨awake_of (by decide), by decide, by decide⟩

theorem witness_HeaderIsSixBytes :
    (framing .hdr [0]).Awake ∧ { framing .hdr [0] with idx := 4 }.idx < 5 ∧
    (32#32).toNat < ((Header.mk 1 0 33 0 0 9).set 5 0).len.toNat ∧
    ((Header.mk 1 0 32 0 0 9).set 5 0).len.toNat ≤ (32#32).toNat ∧ ((Header.mk 1 0 32 0 0 9).set 5 0).len.toNat ≠ 0 ∧
    ((Header.mk 1 0 0 0 0 9).set 5 0).len.toNat = 0 :=
  ⟨awake_of (by decide), by decide, by decide, by decide, by decide, by decide⟩

theorem witness_PayloadByteIsStored :
    (framing .payload [7]).Awake ∧ 1 + 1 = (Header.mk 1 0 2 0 0 0).len.toNat ∧ 0 + 1 ≠ (Header.mk 1 0 2 0 0 0).len.toNat :=
  ⟨awake_of (by decide), by decide, by decide⟩

theorem witness_ChecksumFieldIsLittleEndian :
    (framing .csum [7]).Awake ∧ (framing .csum [7]).idx = 0 ∧ { framing .csum [7] with idx := 1 }.Awake :=
  ⟨awake_of (by decide), by decide, awake_of (by decide)⟩

theorem witness_DrainCountsDown :
    { framing .drain [7] with drain := 1 }.Awake ∧ 0 < { framing .drain [7] with drain := 1 }.drain ∧
    1 < { framing .drain [7] with drain := 2 }.drain := ⟨awake_of (by decide), by decide, by decide⟩

theorem witness_VerifyComparesTheSums :
    verifying.Awake ∧ verifying.st = .verify ∧ verifying.acc = verifying.rcs ∧
    { verifying with rcs := 0x102 }.acc ≠ { verifying with rcs := 0x102 }.rcs :=
  ⟨awake_of (by decide), by decide, by decide, by decide⟩

theorem witness_RespondEmitsOnePacket : (framing .respond []).Awake ∧ (framing .respond []).st = .respond :=
  ⟨awake_of (by decide), by decide⟩

theorem witness_ChecksumIsTheByteSum : ([1, 2] : Bytes).Perm [2, 1] := by decide

/-- A packet queued before a following byte. -/
def queued : State := framing .sync1 (packetBytes engine.cfg 1 0 [0x68, 0x69] ++ [0xA5])

theorem witness_PacketReachesTheDispatcher :
    queued.Awake ∧ queued.Alone ∧ queued.st = .sync1 ∧ [0x68, 0x69].length ≤ queued.maxPayload.toNat ∧
    [0x68, 0x69].length ≤ queued.rxbuf.length ∧ queued.q = packetBytes queued.cfg 1 0 [0x68, 0x69] ++ [0xA5] :=
  ⟨awake_of (by decide), alone_of (by decide), by decide, by decide, by decide, rfl⟩

/-- An oversized packet of 33 bytes queued before a well-formed one. -/
def oversized : State :=
  framing .sync1 ([0xA5, 0x5A, 1, 0] ++ le32 33 ++ List.replicate 35 0xA5 ++ (packetBytes engine.cfg 1 0 [1] ++ []))

theorem witness_OversizedPacketIsDrained :
    oversized.Awake ∧ oversized.Alone ∧ oversized.st = .sync1 ∧ oversized.maxPayload.toNat < (33#32).toNat ∧
    (List.replicate 35 (0xA5 : Byte)).length = (33#32).toNat + 2 ∧ ([1] : Bytes).length ≤ oversized.maxPayload.toNat ∧
    ([1] : Bytes).length ≤ oversized.rxbuf.length ∧
    oversized.q = [oversized.cfg.magic0, oversized.cfg.magic1, 1, 0] ++ le32 33 ++ List.replicate 35 0xA5
      ++ (packetBytes oversized.cfg 1 0 [1] ++ []) :=
  ⟨awake_of (by decide), alone_of (by decide), by decide, by decide, by decide, by decide, by decide, rfl⟩

/-- The queued packet with bit 7 of its second payload byte flipped (V2). -/
def flipped : State := framing .sync1 ((packetBytes engine.cfg 1 0 [0x68, 0x69]).set 9 0xE9 ++ [])

theorem witness_FlippedPayloadBitIsReported :
    flipped.Awake ∧ flipped.Alone ∧ flipped.st = .sync1 ∧ 1 < [0x68, 0x69].length ∧
    flipped.q = (packetBytes flipped.cfg 1 0 [0x68, 0x69]).set (8 + 1) (([0x68, 0x69] : Bytes).getD 1 0 ^^^ (1#8 <<< 7)) ++ [] :=
  ⟨awake_of (by decide), alone_of (by decide), by decide, by decide, by decide⟩

theorem witness_DecodeInvertsEncode :
    CmdIds.decided.distinct = true ∧ otherTables.cmdIds.distinct = true ∧
    (Instr.exec (.flagged 0x40000000 1 [2])).wf = true ∧ (Instr.trackerValidate 1 0xFFFFFFFF).wf = true := by decide

theorem witness_PacketDecodesToItsCommand :
    standardConfig.cmdIds.distinct = true ∧ (Instr.free (.full ⟨0x4FF00000⟩ [])).fits 4 = true ∧
    encodeBytes standardConfig (.free (.full ⟨0x4FF00000⟩ []))
      = some [0xA5, 0x5A, 0x04, 0x00, 0x04, 0x00, 0x00, 0x00, 0x00, 0x00, 0xF0, 0x4F, 0x47, 0x01] := by decide

theorem witness_CommandIdsAreExact :
    (0x00 : Byte).toNat = 0 ∧ 9 ≤ (0x09 : Byte).toNat ∧ 9 ≤ (0xFF : Byte).toNat ∧ otherTables.cmdIds.distinct = true ∧
    ∀ k, cmdId otherTables.cmdIds k ≠ 0x01 := by
  refine ⟨by decide, by decide, by decide, by decide, fun k => ?_⟩
  cases k <;> decide

theorem witness_OperandFieldsStandWhereTheTablesSay :
    (List.replicate 11 (0 : Byte)).length < 12 ∧ (List.replicate 7 (0 : Byte)).length < 8 ∧
    (List.replicate 3 (0 : Byte)).length < 4 := by decide

theorem witness_ReservedBitsAreIgnored :
    (0xFE : Byte).getLsbD 0 = (0x00 : Byte).getLsbD 0 ∧ (0xFF : Byte).getLsbD 0 = (0x01 : Byte).getLsbD 0 := by decide

theorem witness_RequestFlagsAreIgnored :
    busy.Awake ∧ (busy.st = .hdr → 2 ≤ busy.idx) ∧ { framing .hdr [1] with idx := 2 }.Awake ∧ (framing .payload [1]).Awake ∧
    (framing .csum [1]).Awake ∧ (framing .verify []).Awake ∧ (framing .respond []).Awake :=
  ⟨awake_of (by decide), by decide, awake_of (by decide), awake_of (by decide), awake_of (by decide),
    awake_of (by decide), awake_of (by decide)⟩

theorem witness_TrackerAddTakesTheLowestFreeSlot :
    busy.table = [slot] ++ Slot.free :: [Slot.free, Slot.free] ∧ (∀ u ∈ [slot], u.used = true) ∧ Slot.free.used = false ∧
    (∀ t ∈ full.table, t.used = true) := by decide

theorem witness_TrackerRemoveFreesTheLowestMatch :
    (withTable [slot, slot]).table = [] ++ slot :: [slot] ∧ slot.used = true ∧ slot.addr = 0x4FF00000 ∧
    ¬TrackedStart busy.table 0x4FF00004 := by
  refine ⟨by decide, by decide, by decide, ?_⟩
  unfold TrackedStart; decide

theorem witness_TrackerContainsIsExact :
    TrackedStart busy.table 0x4FF00000 ∧ ¬TrackedStart busy.table 0x4FF00004 ∧ (∀ t ∈ busy.table, t.legal) := by
  unfold TrackedStart; decide

theorem witness_TrackerValidateIsArithmetic :
    Tracked busy.table (0x4FF00100#32).toNat (0#32).toNat ∧ ¬Tracked busy.table (0x4FF00100#32).toNat (1#32).toNat := by
  unfold Tracked; decide

theorem witness_UsedSlotsCountAllocations :
    isNext (exec (.trackerAdd 5 1) full) = true ∧ isNext (exec (.trackerRemove 0x4FF00000) busy) = true := by decide

theorem witness_StepRunsTheDecodedInstruction :
    busy.Awake ∧ busy.Alone ∧
    decodeCommand busy.cfg.cmdIds { busy with hdr := ⟨1, 0, 0, 0, 0, 0⟩ }.hdr.cmd [] = .ok (.ping []) ∧
    busy.enables (.ping []) = true ∧
    ({ busy with ready := { Ready.all with cache := false } } : State).enables (.getInfo []) = false ∧
    { busy with hdr := ⟨1, 0, 0, 0, 0, 0⟩, turns := [.worker] }.Awake ∧
    { engine with treq := some ⟨0b01#2, 0x4FF00000, 0⟩ }.Alone :=
  ⟨awake_of (by decide), alone_of (by decide), by decide, by decide, by decide, awake_of (by decide),
    alone_of (by decide)⟩

theorem witness_UnknownCommandIsReported :
    busy.Awake ∧ busy.st = .dispatch ∧ busy.cfg.cmdIds = .decided ∧ busy.hdr.cmd.toNat = 0 ∧
    9 ≤ { busy with hdr := ⟨9, 0, 0, 0, 0, 0⟩ }.hdr.cmd.toNat ∧ ∀ k, cmdId otherTables.cmdIds k ≠ 0x01 :=
  ⟨awake_of (by decide), by decide, by decide, by decide, by decide, fun k => by cases k <;> decide⟩

/-- A request to allocate with every slot in use, and the block after its first step. -/
def alloc256 : Instr := .alloc (.full ⟨256, 0, 16⟩ [])
def releasing : State := after full (exec alloc256 full)

theorem witness_ErrorReportsArePrecise :
    busy.st = .dispatch ∧ releasing.st = .dispatch ∧ releasing.phase = .release 0x4FF00100 ∧
    (after full (exec alloc256 releasing)).st = .respond ∧ (after full (exec alloc256 releasing)).tflags = 0x01 ∧
    (after busy (exec (.free (.short [])) busy)).tflags = 0x01 ∧
    isNext (exec (.free (.full ⟨0x4FF00100⟩ [])) releasing) = true ∧
    isNext (exec write5 { busy with phase := .lineKnown 64 }) = true ∧
    isNext (exec write5 { busy with phase := .written }) = true := by decide

theorem witness_CommandsNeverStopTheWorker : busy.Awake ∧ busy.Alone ∧ busy.ready = .all ∧ busy.st = .dispatch :=
  ⟨awake_of (by decide), alone_of (by decide), by decide, by decide⟩

theorem witness_GetInfoAnswersFiveWords :
    (∀ w, busy.lineAnswer = some w → w.toNat ≠ 0 → (64 : Word) = w) ∧
    ({ busy with ans := { busy.ans with lines := [some 0] } } : State).lineAnswer = some 0 ∧
    ({ busy with ans := { busy.ans with lines := [none] } } : State).lineAnswer = none :=
  ⟨fun w h _ => by simpa [State.lineAnswer, busy, engine] using h, by decide, by decide⟩

theorem isPowerOfTwo_16 : IsPowerOfTwo 16 := ⟨4, rfl⟩
theorem isPowerOfTwo_top : IsPowerOfTwo 0x80000000 := ⟨31, rfl⟩

theorem not_isPowerOfTwo_zero : ¬IsPowerOfTwo 0 := fun ⟨k, hk⟩ => by
  have := Nat.two_pow_pos k
  rw [show (0 : Word).toNat = 0 from rfl] at hk
  omega

theorem witness_AllocOutcomes :
    busy.phase = .fresh ∧ ¬IsPowerOfTwo 0 ∧ IsPowerOfTwo 16 ∧ ({ busy with ans := { busy.ans with allocs := [0] } } : State).allocAnswer = 0 ∧
    busy.allocAnswer ≠ 0 ∧ busy.table = [slot] ++ Slot.free :: [Slot.free, Slot.free] ∧ full.allocAnswer ≠ 0 ∧
    (∀ v ∈ full.table, v.used = true) :=
  ⟨rfl, not_isPowerOfTwo_zero, isPowerOfTwo_16, by decide, by decide, by decide, by decide, by decide⟩

theorem witness_FreeOutcomes :
    busy.phase = .fresh ∧ ¬TrackedStart busy.table 0x4FF00004 ∧ busy.table = [] ++ slot :: [Slot.free, Slot.free, Slot.free] ∧ slot.used = true ∧
    slot.addr = 0x4FF00000 ∧ (∀ t ∈ busy.table, t.legal) := by
  unfold TrackedStart; decide

theorem witness_SecondFreeIsRejected :
    busy.phase = .fresh ∧ busy.table.countP (fun v => v.used && v.addr == 0x4FF00000) = 1 ∧
    isNext (execFor 2 (.free (.full ⟨0x4FF00000⟩ [])) busy) = true := by decide

/-- A platform that serves no transaction. -/
def unserved : State := { busy with ans := { busy.ans with served := [false] } }

theorem witness_WriteMemOutcomes :
    busy.phase = .fresh ∧ ¬Tracked busy.table 0x4FF00100 1 ∧ Tracked busy.table 0x4FF00100 0 ∧
    (0x00 : Byte).getLsbD 0 = false ∧ (0x01 : Byte).getLsbD 0 = true ∧ 2 ^ 32 < 0xFFFFFFFF + 2 ∧
    unserved.servedAnswer = false ∧ busy.servedAnswer = true ∧
    (after busy (exec write5 busy)).lineAnswer = some 64 ∧ (64#32).toNat ≠ 0 := by
  unfold Tracked; decide

/-- A write that is served. -/
def write1 : Instr := .writeMem (.full ⟨0x4FF00000, 0, 0, 0, 0⟩ [0x11, 0x22])

theorem witness_WriteMemWritesItsRangeOnly :
    busy.mem.wf ∧ busy.st = .dispatch ∧ isNext (exec write1 busy) = true ∧ (after busy (exec write1 busy)).phase = .written ∧
    (done write1 busy).st = .respond ∧ (done write1 busy).tflags = 0x00 ∧
    (after busy (exec (.writeMem (.full ⟨0xFFFFFFFF, 1, 0, 0, 0⟩ [1, 2])) busy)).run = .faulted ∧
    (after busy (exec (.writeMem (.full ⟨0xFFFFFFFF, 1, 0, 0, 0⟩ [1, 2])) busy)).phase ≠ .written := by decide

theorem witness_ReadMemOutcomes :
    busy.maxPayload.toNat < (33#32).toNat ∧ (32#32).toNat ≤ busy.maxPayload.toNat ∧ ¬Tracked busy.table 0x4FF000FF 2 ∧
    Tracked busy.table 0x4FF000FF 1 ∧ 2 ^ 32 < 0xFFFFFFFF + 2 ∧ unserved.servedAnswer = false := by
  unfold Tracked; decide

theorem witness_ExecOutcomes :
    ¬Tracked busy.table 0x4FF00100 1 ∧ Tracked busy.table 0x4FF000FF 1 ∧ busy.execAnswer = .returns 42 [] ∧
    ({ busy with ans := { busy.ans with execs := [.never] } } : State).execAnswer = .never := by
  unfold Tracked; decide

theorem witness_UntrackedRangesAreRejected :
    busy.phase = .fresh ∧ busy.st = .dispatch ∧
    isNext (exec (.writeMem (.full ⟨0x50000000, 0, 0, 0, 0⟩ [1])) busy) = true ∧ ¬Tracked busy.table 0x50000000 1 ∧
    isNext (exec (.readMem (.full ⟨0x50000000, 1, 0, 0, 0, 0⟩ [])) busy) = true ∧
    isNext (exec (.exec (.flagged 0x50000000 0 [])) busy) = true ∧
    isNext (exec (.exec (.flagged 0x50000000 1 [])) busy) = true := by
  unfold Tracked; decide

/-- The block after the write, dispatching again. -/
def written : State := { done write1 busy with st := .dispatch, ans := busy.ans }

theorem witness_ReadAfterWriteAnswersTheData :
    busy.mem.wf ∧ isNext (execFor 3 write1 busy) = true ∧ (after busy (execFor 3 write1 busy)).st = .respond ∧
    (after busy (execFor 3 write1 busy)).tflags = 0x00 ∧ written.mem = (after busy (execFor 3 write1 busy)).mem ∧
    (after busy (exec (.readMem (.full ⟨0x4FF00000, 2, 0, 0, 0, 0⟩ [])) written)).st = .respond ∧
    (after busy (exec (.readMem (.full ⟨0x4FF00000, 2, 0, 0, 0, 0⟩ [])) written)).tflags = 0x00 := by decide

/-- A sync that fails. -/
def unsynced : State := { busy with ans := { busy.ans with syncs := [false] } }

theorem witness_FetchCoherenceFollowsTheSync :
    busy.mem.wf ∧ 1 ≤ busy.cfg.cacheLineDefault.toNat ∧ busy.cfg.errCodes.cacheSync ≠ 0 ∧
    (after busy (execFor 3 write1 busy)).tpay.drop 4 = [0, 0, 0, 0] ∧
    (after busy (execFor 3 write1 unsynced)).tpay.drop 4 = [6, 0, 0, 0] := by decide

theorem witness_CacheSyncIsOneQueryAndOneSync :
    ({ busy with phase := .written } : State).phase = .written ∧
    (∀ w, busy.lineAnswer = some w → w.toNat ≠ 0 → (64 : Word) = w) ∧
    ({ busy with ans := { busy.ans with lines := [none] } } : State).lineAnswer = none ∧
    ({ busy with ans := { busy.ans with lines := [some 0] } } : State).lineAnswer = some 0 ∧
    1 ≤ busy.cfg.cacheLineDefault.toNat ∧ ({ busy with phase := .lineKnown 64 } : State).phase = .lineKnown 64 :=
  ⟨rfl, fun w h _ => by simpa [State.lineAnswer, busy, engine] using h, by decide, by decide, by decide, rfl⟩

theorem witness_AlignedRangeIsTheLeastCover : 1 ≤ 1 ∧ 1 ≤ 64 := by decide

theorem witness_EachCommandUsesItsOwnPorts :
    isNext (exec write1 busy) = true ∧ nextPort write1 busy = some .memory ∧
    nextPort write1 { busy with phase := .written } = some .cache ∧ nextPort (.ping []) busy = none ∧
    nextPort (.heapInfo []) busy = some .heap ∧ nextPort (.exec (.bare 0x4FF00000)) busy = some .exec ∧
    nextPort alloc256 full = some .allocator ∧
    (after busy (exec write1 { busy with phase := .lineKnown 64 })).st = .respond ∧
    (after busy (exec write1 { busy with phase := .lineKnown 64 })).tflags = 0x00 := by decide

theorem witness_TableAndMemoryChangeOnlyByTheirCommands :
    isNext (step freeing) = true ∧ (after busy (step freeing)).table ≠ freeing.table ∧
    isNext (step writing) = true ∧ (after busy (step writing)).mem ≠ writing.mem := by decide

theorem witness_FaultMarkIsNeverCleared :
    faulted.Inv ∧ faulted.why = some ⟨0xFFFFFFFC, .write⟩ ∧ ∃ t, step { faulted with turns := [.hostRecv] } = .next t :=
  ⟨faulted_inv, rfl, _, rfl⟩

theorem witness_HungCalleeKeepsTheBlock : hanging.Inv ∧ hanging.hung = some 0x4FF00000 ∧ ∃ t, step hanging = .next t :=
  ⟨hanging_inv, rfl, _, rfl⟩

theorem witness_QuiescentPointWaits :
    engine.Awake ∧ engine.quiescent = true ∧ { engine with turns := [.hostRecv, .worker] }.quiescent = true ∧
    { engine with turns := [.worker, .start] }.quiescent = true ∧ { engine with turns := [.producer] }.quiescent = true ∧
    { engine with turns := [.hostRecv, .hostSend 1] }.quiescent = false :=
  ⟨awake_of (by decide), by decide, by decide, by decide, by decide, by decide⟩

end Sys2Proof.Tests
end

section
/-! What one step can do, said once: the ways in which a move of an agent can end, each with the state that it answers. -/

namespace Sys2Proof.Machine

/-! ### What a move leaves alone -/

/-- A state that differs at most in what is not the block's own: a start's answer, the link and the output stream, and the
model's own fields. -/
abbrev Outside (s t : State) : Prop :=
  t = { s with
    startRes := t.startRes, link := t.link, out := t.out, turns := t.turns, ans := t.ans, draws := t.draws, log := t.log
    ready := t.ready, lead := t.lead }

/-- A byte taken changes the framer's own registers and the receive buffer only (R100 to R109). -/
theorem takeByte_frame (s : State) (b : Byte) :
    ∃ st idx hdr acc rcs drain rxbuf, s.takeByte b = { s with
      st := st, idx := idx, hdr := hdr, acc := acc, rcs := rcs, drain := drain, rxbuf := rxbuf } := by
  unfold State.takeByte
  cases s.st with
  | sync1 => exact ⟨_, _, _, _, _, _, _, rfl⟩
  | sync2 =>
    simp only [State.takeSync2]
    split <;> exact ⟨_, _, _, _, _, _, _, rfl⟩
  | hdr =>
    simp only [State.takeHeader, State.headerComplete]
    split_ifs <;> exact ⟨_, _, _, _, _, _, _, rfl⟩
  | payload =>
    simp only [State.takePayload]
    split <;> exact ⟨_, _, _, _, _, _, _, rfl⟩
  | csum =>
    simp only [State.takeCsum]
    split <;> exact ⟨_, _, _, _, _, _, _, rfl⟩
  | drain => exact ⟨_, _, _, _, _, _, _, rfl⟩
  | verify => exact ⟨_, _, _, _, _, _, _, rfl⟩
  | dispatch => exact ⟨_, _, _, _, _, _, _, rfl⟩
  | respond => exact ⟨_, _, _, _, _, _, _, rfl⟩

/-- A request at the lookup engine's port changes the table and the engine's answer only (R130, R93). -/
theorem exec_decodeRequest_frame {r : TrackerRequest} {s t : State} (h : exec (decodeRequest r) s = .next t) :
    ∃ T x, t = { s with table := T, tres := x } := by
  unfold decodeRequest at h
  split_ifs at h <;> cases h <;> exact ⟨_, _, rfl⟩

/-- The producer delivers the link's first byte where there is room, and else changes nothing of the block (R31). -/
theorem produce_cases (s : State) :
    (∃ b rest, s.link = b :: rest ∧ s.queueRoom = true ∧ s.produce = { s with q := s.q ++ [b], link := rest }) ∨
    Outside s s.produce := by
  unfold State.produce
  split
  · exact .inr rfl
  · rename_i b rest hl
    split
    · exact .inl ⟨b, rest, hl, ‹_›, rfl⟩
    · exact .inr rfl

/-- A buffer's allocation changes nothing of the block (R220). -/
theorem obtainBuffer_outside (s : State) (n : Word) : Outside s (s.obtainBuffer n) := by
  unfold State.obtainBuffer
  split <;> rfl

theorem Outside.trans {s t u : State} (h : Outside s t) (k : Outside t u) : Outside s u := by
  rw [k, h]

/-- The start procedure is the two buffers' allocations, then success or failure (R220). -/
theorem boot_cases (s : State) :
    ∃ u, Outside s u ∧ (s.boot = u.started ∨ ∃ rx tx, s.boot = u.startFailed rx tx) := by
  refine ⟨_, (obtainBuffer_outside s s.cfg.rxBufSize).trans (obtainBuffer_outside _ s.cfg.txBufSize), ?_⟩
  simp only [State.boot]
  split
  · exact .inl rfl
  · exact .inr ⟨_, _, rfl⟩

/-- A start that answers: turned away, or the procedure, from `IDLE` or `FAILED` under an accepted configuration (R220 to
R223). -/
theorem start_cases {s t : State} (h : s.start = .next t) :
    Outside s t ∨ ((s.run = .idle ∨ s.run = .failed) ∧ configOk s.cfg = true ∧ t = s.boot) := by
  unfold State.start at h
  split at h
  · cases h; exact .inl rfl
  · cases h; exact .inl rfl
  all_goals
    split at h <;> cases h
    exact .inr ⟨by simp [*], ‹_›, rfl⟩

/-! ### How a move can end -/

/-- The ways in which an agent's move from `s` can end in `t`. -/
inductive Moved (s t : State) : Turn → Prop
  /-- Nothing of the block changes: a wait, a move of the host or of a port, a byte that is not queued, a start turned away. -/
  | outside {m : Turn} (h : Outside s t) : Moved s t m
  | delivered (b : Byte) (rest : Bytes) (link : s.link = b :: rest) (room : s.queueRoom = true)
      (h : t = { s with q := s.q ++ [b], link := rest }) : Moved s t .producer
  | served (r : TrackerRequest) (req : s.treq = some r)
      (h : exec (decodeRequest r) { s with treq := none } = .next t) : Moved s t .worker
  | took (awake : s.Awake) (consumes : s.st.consumes = true) (b : Byte) (rest : Bytes) (q : s.q = b :: rest)
      (h : t = { s with q := rest }.takeByte b) : Moved s t .worker
  | compared (awake : s.Awake) (st : s.st = .verify) (h : t = s.verifySum) : Moved s t .worker
  | ran (awake : s.Awake) (st : s.st = .dispatch) (k : Cmd) (cmd : cmdId s.cfg.cmdIds k = s.hdr.cmd)
      (h : exec (commandInstr k s.payload) s = .next t) : Moved s t .worker
  | unknown (awake : s.Awake) (h : t = s.unknownCommand) : Moved s t .worker
  | responded (awake : s.Awake) (st : s.st = .respond) (h : t = s.finishResponse) : Moved s t .worker
  | started (idle : s.run = .idle ∨ s.run = .failed) (config : configOk s.cfg = true) (u : State) (o : Outside s u)
      (h : t = u.started) : Moved s t .start
  | startFailed (idle : s.run = .idle ∨ s.run = .failed) (u : State) (o : Outside s u) (rx tx : Bool)
      (h : t = u.startFailed rx tx) : Moved s t .start
  | poweredOn (w : List (Word × Byte)) (h : t = s.powerOn w) : Moved s t (.powerOn w)

theorem framerStep_moved {s t : State} (ha : s.Awake) (h : s.framerStep = .next t) : Moved s t .worker := by
  obtain ⟨-, -, rfl⟩ | ⟨hc, b, rest, hq, rfl⟩ | ⟨hs, rfl⟩ | ⟨hs, i, hi, ⟨-, h⟩ | ⟨-, rfl⟩⟩ | ⟨-, -, rfl⟩ |
    ⟨hs, rfl⟩ :=
    framerStep_cases h
  · exact .outside rfl
  · exact .took ha hc b rest hq rfl
  · exact .compared ha hs rfl
  · obtain ⟨k, hk, rfl⟩ := decodeCommand_ok hi
    exact .ran ha hs k hk h
  · exact .outside rfl
  · exact .unknown ha rfl
  · exact .responded ha hs rfl

theorem workerStep_moved {s t : State} (h : s.workerStep = .next t) : Moved s t .worker := by
  obtain ⟨-, ⟨-, rfl⟩ | ⟨r, -, -, hr, h⟩ | ⟨ha, h⟩⟩ := workerStep_cases h
  · exact .outside rfl
  · exact .served r hr h
  · exact framerStep_moved ha h

/-- Every move ends in one of those ways. -/
theorem move_moved {s t : State} {m : Turn} (h : s.move m = .next t) : Moved s t m := by
  cases m with
  | worker => exact workerStep_moved h
  | producer =>
    cases h
    rcases produce_cases s with ⟨b, rest, hl, hr, e⟩ | o
    · exact .delivered b rest hl hr e
    · exact .outside o
  | hostSend b => cases h; exact .outside rfl
  | hostRecv => cases h; exact .outside rfl
  | start =>
    obtain o | ⟨hi, hc, rfl⟩ := start_cases h
    · exact .outside o
    · obtain ⟨u, o, e | ⟨rx, tx, e⟩⟩ := boot_cases s
      · exact .started hi hc u o e
      · exact .startFailed hi u o rx tx e
  | port p b => cases h; exact .outside rfl
  | powerOn w => cases h; exact .poweredOn w rfl

/-- A step ends as a move does that is the next of `turns`, or, with none given, the worker's or the producer's. -/
theorem step_moved {s t : State} (h : step s = .next t) :
    ∃ u m, SameButTurns s u ∧ Moved u t m ∧
      ((∃ ts, s.turns = m :: ts) ∨ (s.turns = [] ∧ (m = .worker ∨ m = .producer))) := by
  obtain ⟨u, m, hu, hm, ht⟩ := step_cases h
  exact ⟨u, m, hu, move_moved hm, ht⟩

end Sys2Proof.Machine
end

section
/-! The configuration, the input queue, the table and device memory: what changes them. -/

namespace Sys2Proof.Machine

/-! ### A byte taken, and the comparison of the sums -/

section
variable (s : State) (b : Byte)

@[simp] theorem takeByte_cfg : (s.takeByte b).cfg = s.cfg := by
  obtain ⟨_, _, _, _, _, _, _, e⟩ := takeByte_frame s b
  rw [e]

@[simp] theorem takeByte_q : (s.takeByte b).q = s.q := by
  obtain ⟨_, _, _, _, _, _, _, e⟩ := takeByte_frame s b
  rw [e]

@[simp] theorem takeByte_table : (s.takeByte b).table = s.table := by
  obtain ⟨_, _, _, _, _, _, _, e⟩ := takeByte_frame s b
  rw [e]

@[simp] theorem takeByte_mem : (s.takeByte b).mem = s.mem := by
  obtain ⟨_, _, _, _, _, _, _, e⟩ := takeByte_frame s b
  rw [e]
end

/-- `VERIFY` goes to `DISPATCH`, or answers in the response register (R110). -/
theorem verifySum_cases (s : State) :
    (s.acc = s.rcs ∧ s.verifySum = { s with st := .dispatch }) ∨
    (s.acc ≠ s.rcs ∧ s.verifySum = s.reportError s.hdr.cmd .checksum) := by
  unfold State.verifySum
  split
  · exact .inl ⟨‹_›, rfl⟩
  · exact .inr ⟨‹_›, rfl⟩

@[simp] theorem verifySum_cfg (s : State) : s.verifySum.cfg = s.cfg := by
  rcases verifySum_cases s with ⟨-, e⟩ | ⟨-, e⟩ <;> simp [e]

@[simp] theorem verifySum_q (s : State) : s.verifySum.q = s.q := by
  rcases verifySum_cases s with ⟨-, e⟩ | ⟨-, e⟩ <;> simp [e]

@[simp] theorem verifySum_table (s : State) : s.verifySum.table = s.table := by
  rcases verifySum_cases s with ⟨-, e⟩ | ⟨-, e⟩ <;> simp [e]

@[simp] theorem verifySum_mem (s : State) : s.verifySum.mem = s.mem := by
  rcases verifySum_cases s with ⟨-, e⟩ | ⟨-, e⟩ <;> simp [e]

/-! ### What a move does to each of them -/

/-- No move writes the configuration (R34). -/
theorem moved_cfg {s t : State} {m : Turn} (h : Moved s t m) : t.cfg = s.cfg := by
  cases h with
  | outside h => rw [h]
  | delivered b rest link room h => rw [h]
  | served r req h => exact (exec_next h).1.cfg
  | took awake consumes b rest q h => rw [h, takeByte_cfg]
  | compared awake st h => rw [h, verifySum_cfg]
  | ran awake st k cmd h => exact (exec_next h).1.cfg
  | unknown awake h => rw [h]; rfl
  | responded awake st h => rw [h]; rfl
  | started idle config u o h => rw [h, o]; rfl
  | startFailed idle u o rx tx h => rw [h, o]; rfl
  | poweredOn w h => rw [h]; rfl

/-- What a move does to the input queue: nothing, an append of the link's first byte, the removal of its oldest byte, or a
start or a power-on that empties it (R31). -/
theorem moved_q {s t : State} {m : Turn} (h : Moved s t m) :
    t.q = s.q ∨ (∃ b, s.link = b :: t.link ∧ t.q = s.q ++ [b]) ∨ (∃ b, s.q = b :: t.q) ∨
    (t.q = [] ∧ (m = .start ∨ ∃ w, m = .powerOn w)) := by
  cases h with
  | outside h => exact .inl (by rw [h])
  | delivered b rest link room h => exact .inr (.inl ⟨b, by rw [h, link], by rw [h]⟩)
  | served r req h => exact .inl (exec_next h).1.q
  | took awake consumes b rest q h => exact .inr (.inr (.inl ⟨b, by rw [h, takeByte_q, q]⟩))
  | compared awake st h => exact .inl (by rw [h, verifySum_q])
  | ran awake st k cmd h => exact .inl (exec_next h).1.q
  | unknown awake h => exact .inl (by rw [h]; rfl)
  | responded awake st h => exact .inl (by rw [h]; rfl)
  | started idle config u o h => exact .inr (.inr (.inr ⟨by rw [h]; rfl, .inl rfl⟩))
  | startFailed idle u o rx tx h => exact .inl (by rw [h, o]; rfl)
  | poweredOn w h => exact .inr (.inr (.inr ⟨by rw [h]; rfl, .inr ⟨w, rfl⟩⟩))

/-- A start or a power-on is a move that `turns` gives; no default picks it (R199). -/
theorem turns_of_outer {s : State} {m : Turn}
    (h : (∃ ts, s.turns = m :: ts) ∨ (s.turns = [] ∧ (m = .worker ∨ m = .producer)))
    (hm : m = .start ∨ ∃ w, m = .powerOn w) : ∃ ts, s.turns = .start :: ts ∨ ∃ w, s.turns = .powerOn w :: ts := by
  obtain ⟨ts, e⟩ | ⟨-, rfl | rfl⟩ := h
  · rcases hm with rfl | ⟨w, rfl⟩
    · exact ⟨ts, .inl e⟩
    · exact ⟨ts, .inr ⟨w, e⟩⟩
  · simp at hm
  · simp at hm

/-! ### The table and device memory, command by command -/

theorem allocEffect_keeps_mem (o : Form AllocFields) (s : State) : (allocEffect o s).mem = s.mem := by
  cases o with
  | short raw => rfl
  | full f x =>
    simp only [allocEffect, requestAllocation, trackAllocation]
    repeat' split
    all_goals simp

theorem freeEffect_keeps_mem (o : Form FreeFields) (s : State) : (freeEffect o s).mem = s.mem := by
  cases o with
  | short raw => rfl
  | full f x =>
    simp only [freeEffect, untrack]
    repeat' split
    all_goals simp

theorem readMemEffect_keeps_mem (o : Form ReadFields) (s : State) : (readMemEffect o s).mem = s.mem := by
  cases o with
  | short raw => rfl
  | full f x =>
    obtain ⟨-, e⟩ | ⟨-, r, ⟨-, e⟩ | ⟨-, -, e⟩ | ⟨-, -, e⟩⟩ := readMemEffect_cases f x s <;> rw [e] <;> rfl

/-- WRITEMEM and an EXEC callee store; no other command does (R50, R66). -/
theorem exec_keeps_mem {k : Cmd} {P : Bytes} {s t : State} (hw : k ≠ .writeMem) (he : k ≠ .exec)
    (h : exec (commandInstr k P) s = .next t) : t.mem = s.mem := by
  cases k with
  | writeMem => exact absurd rfl hw
  | exec => exact absurd rfl he
  | alloc => cases h; exact allocEffect_keeps_mem _ s
  | free => cases h; exact freeEffect_keeps_mem _ s
  | readMem => cases h; exact readMemEffect_keeps_mem _ s
  | ping => cases h; rfl
  | getInfo => cases h; rfl
  | heapInfo => cases h; rfl

/-- ALLOC and FREE write the table; no other command does (R30, R130). -/
theorem exec_keeps_table {k : Cmd} {P : Bytes} {s t : State} (ha : k ≠ .alloc) (hf : k ≠ .free)
    (h : exec (commandInstr k P) s = .next t) : t.table = s.table := by
  cases k with
  | alloc => exact absurd rfl ha
  | free => exact absurd rfl hf
  | writeMem => cases h; exact writeMemEffect_table _ s
  | readMem => cases h; exact readMemEffect_table _ s
  | exec =>
    cases h
    cases execForm P with
    | short raw => rfl
    | bare a => exact callEffect_table a 0 s
    | flagged a mf x => exact callEffect_table a mf s
  | ping => cases h; rfl
  | getInfo => cases h; rfl
  | heapInfo => cases h; rfl

/-- What changes the table: ALLOC and FREE, the lookup engine's own port, a start and a power-on. -/
theorem moved_table {s t : State} {m : Turn} (h : Moved s t m) (hne : t.table ≠ s.table) :
    (s.st = .dispatch ∧ (s.hdr.cmd = s.cfg.cmdIds.alloc ∨ s.hdr.cmd = s.cfg.cmdIds.free)) ∨ s.treq ≠ none ∨
    m = .start ∨ ∃ w, m = .powerOn w := by
  cases h with
  | outside h => exact absurd (by rw [h]) hne
  | delivered b rest link room h => exact absurd (by rw [h]) hne
  | served r req h => exact .inr (.inl (by simp [req]))
  | took awake consumes b rest q h => exact absurd (by rw [h, takeByte_table]) hne
  | compared awake st h => exact absurd (by rw [h, verifySum_table]) hne
  | ran awake st k cmd h =>
    refine .inl ⟨st, ?_⟩
    by_cases ha : k = .alloc
    · exact .inl (by rw [← cmd, ha]; rfl)
    by_cases hf : k = .free
    · exact .inr (by rw [← cmd, hf]; rfl)
    exact absurd (exec_keeps_table ha hf h) hne
  | unknown awake h => exact absurd (by rw [h]; rfl) hne
  | responded awake st h => exact absurd (by rw [h]; rfl) hne
  | started idle config u o h => exact .inr (.inr (.inl rfl))
  | startFailed idle u o rx tx h => exact .inr (.inr (.inl rfl))
  | poweredOn w h => exact .inr (.inr (.inr ⟨w, rfl⟩))

/-- What changes device memory: WRITEMEM, an EXEC callee, and a power-on. -/
theorem moved_mem {s t : State} {m : Turn} (h : Moved s t m) (hne : t.mem ≠ s.mem) :
    (s.st = .dispatch ∧ (s.hdr.cmd = s.cfg.cmdIds.writeMem ∨ s.hdr.cmd = s.cfg.cmdIds.exec)) ∨
    ∃ w, m = .powerOn w := by
  cases h with
  | outside h => exact absurd (by rw [h]) hne
  | delivered b rest link room h => exact absurd (by rw [h]) hne
  | served r req h =>
    obtain ⟨T, x, e⟩ := exec_decodeRequest_frame h
    exact absurd (by rw [e]) hne
  | took awake consumes b rest q h => exact absurd (by rw [h, takeByte_mem]) hne
  | compared awake st h => exact absurd (by rw [h, verifySum_mem]) hne
  | ran awake st k cmd h =>
    refine .inl ⟨st, ?_⟩
    by_cases hw : k = .writeMem
    · exact .inl (by rw [← cmd, hw]; rfl)
    by_cases he : k = .exec
    · exact .inr (by rw [← cmd, he]; rfl)
    exact absurd (exec_keeps_mem hw he h) hne
  | unknown awake h => exact absurd (by rw [h]; rfl) hne
  | responded awake st h => exact absurd (by rw [h]; rfl) hne
  | started idle config u o h => exact absurd (by rw [h, o]; rfl) hne
  | startFailed idle u o rx tx h => exact absurd (by rw [h, o]; rfl) hne
  | poweredOn w h => exact .inr ⟨w, rfl⟩

/-! ### The statements -/

/-- Settles O9: every way a move can end keeps the configuration. -/
theorem configurationIsReadOnly : Obligations.ConfigurationIsReadOnly := by
  unfold Obligations.ConfigurationIsReadOnly
  intro s t h
  obtain ⟨u, m, hu, hm, -⟩ := step_moved h
  rw [moved_cfg hm, hu]

theorem produce_append {s : State} {b : Byte} {rest : Bytes} (hl : s.link = b :: rest) (hr : s.queueRoom = true) :
    s.produce = { s with q := s.q ++ [b], link := rest } := by
  unfold State.produce
  rw [hl]
  exact if_pos hr

theorem produce_noRoom {s : State} {b : Byte} {rest : Bytes} (hl : s.link = b :: rest) (hr : s.queueRoom = false) :
    s.produce = { s with
      link := if s.dropAnswer then rest else b :: rest
      ans := { s.ans with drops := s.ans.drops.tail }
      draws := s.draws + 1 } := by
  unfold State.produce
  rw [hl]
  exact if_neg (by simp [hr])

/-- Settles O10: the producer's two cases by whether the queue has room, and what each way a move can end does to the queue. -/
theorem inputQueueIsAFifo : Obligations.InputQueueIsAFifo := by
  unfold Obligations.InputQueueIsAFifo
  refine ⟨fun s b rest hl hr hq => produce_append hl ?_, fun s b rest hl hr => produce_noRoom hl ?_, fun s t h => ?_⟩
  · rcases hr with hr | hr <;> simp [State.queueRoom, hr, hq]
  · rcases hr with hq | hr | hr
    · simp [State.queueRoom, Nat.not_lt.mpr hq]
    · simp [State.queueRoom, hr]
    · simp [State.queueRoom, hr]
  · obtain ⟨u, m, hu, hm, ht⟩ := step_moved h
    have hq : u.q = s.q := by rw [hu]
    have hl : u.link = s.link := by rw [hu]
    have K := moved_q hm
    rw [hq, hl] at K
    exact K.imp_right (Or.imp_right (Or.imp_right fun ⟨he, hs⟩ => ⟨he, turns_of_outer ht hs⟩))

/-- Settles O57: what each way a move can end does to the table and to device memory. -/
theorem tableAndMemoryChangeOnlyByTheirCommands : Obligations.TableAndMemoryChangeOnlyByTheirCommands := by
  unfold Obligations.TableAndMemoryChangeOnlyByTheirCommands
  intro s t h
  obtain ⟨u, m, hu, hm, ht⟩ := step_moved h
  have hT := moved_table hm
  have hM := moved_mem hm
  rw [hu] at hT hM
  refine ⟨fun hne => (hT hne).imp_right (Or.imp_right (turns_of_outer ht)), fun hne => (hM hne).imp_right ?_⟩
  rintro ⟨w, rfl⟩
  obtain ⟨ts, e⟩ | ⟨-, e | e⟩ := ht
  · exact ⟨ts, w, e⟩
  · cases e
  · cases e

end Sys2Proof.Machine
end

section
/-! The block's invariant: what it says of each register, and that each way a move can end keeps it. -/

namespace Sys2Proof.Machine

/-! ### The negotiated maximum -/

theorem toNat_minWord (a b : Word) : (minWord a b).toNat = min a.toNat b.toNat := by
  unfold minWord
  split <;> omega

/-- `MAX_PAYLOAD` is the least of the three sizes (R223). -/
theorem toNat_negotiatedMax (c : Config) :
    (negotiatedMax c).toNat = min (min c.rxBufSize.toNat c.txBufSize.toNat) c.transportLimit.toNat := by
  simp only [negotiatedMax, toNat_minWord]

/-- What a built engine is rests on its configuration, its maximum and three lengths. -/
theorem State.Built.congr {s t : State} (b : s.Built) (cfg : t.cfg = s.cfg) (max : t.maxPayload = s.maxPayload)
    (rx : t.rxbuf.length = s.rxbuf.length) (tx : t.txbuf.length = s.txbuf.length)
    (slots : t.table.length = s.table.length) : t.Built :=
  ⟨cfg ▸ b.config, by rw [max, cfg, b.maximum], by rw [rx, cfg, b.receive], by rw [tx, cfg, b.transmit],
    by rw [slots, cfg, b.slots]⟩

theorem State.Built.twenty_le {s : State} (b : s.Built) : 20 ≤ s.maxPayload.toNat := by
  have h := b.config
  simp only [configOk, Bool.and_eq_true, decide_eq_true_eq] at h
  rw [b.maximum]
  exact h.1.1.1.1

theorem State.Built.line_pos {s : State} (b : s.Built) : 1 ≤ s.cfg.cacheLineDefault.toNat := by
  have h := b.config
  simp only [configOk, Bool.and_eq_true, decide_eq_true_eq] at h
  exact h.1.1.2

theorem State.Built.max_le_rxbuf {s : State} (b : s.Built) : s.maxPayload.toNat ≤ s.rxbuf.length := by
  rw [b.maximum, b.receive, toNat_negotiatedMax]
  omega

theorem State.Built.max_le_txbuf {s : State} (b : s.Built) : s.maxPayload.toNat ≤ s.txbuf.length := by
  rw [b.maximum, b.transmit, toNat_negotiatedMax]
  omega

/-! ### The length of an answer -/

/-- A full ALLOC answers 4 or 8 bytes (R154). -/
theorem requestAllocation_length (f : AllocFields) (s : State) :
    (requestAllocation f s).st = s.st ∨ (requestAllocation f s).tlen ≤ 8 := by
  obtain ⟨-, e⟩ | ⟨-, -, e⟩ | ⟨-, -, -, e⟩ | ⟨-, -, -, e⟩ := requestAllocation_cases f s <;> rw [e]
  · exact .inr (by simp)
  · exact .inr (by simp)
  · exact .inl rfl
  · exact .inr (by simp)

theorem allocEffect_length (o : Form AllocFields) (s : State) :
    (allocEffect o s).st = s.st ∨ (allocEffect o s).tlen ≤ 8 := by
  cases o with
  | short raw => exact .inr (by simp [allocEffect])
  | full f x =>
    unfold allocEffect
    dsimp only
    split
    · exact .inr (by simp)
    all_goals exact requestAllocation_length f s

theorem freeEffect_length (o : Form FreeFields) (s : State) :
    (freeEffect o s).st = s.st ∨ (freeEffect o s).tlen ≤ 4 := by
  have K : ∀ a, (untrack a s).st = s.st ∨ (untrack a s).tlen ≤ 4 := by
    intro a
    obtain ⟨-, e⟩ | ⟨-, e⟩ := untrack_cases a s <;> rw [e]
    · exact .inr (by simp)
    · exact .inl rfl
  cases o with
  | short raw => exact .inr (by simp [freeEffect])
  | full f x =>
    unfold freeEffect
    dsimp only
    split
    · exact .inr (by simp)
    all_goals exact K _

theorem writeMemEffect_length (o : Form WriteFields) (s : State) :
    (writeMemEffect o s).st = s.st ∨ (writeMemEffect o s).tlen ≤ 8 := by
  have K : ∀ f D, (checkedWrite f D s).st = s.st ∨ (checkedWrite f D s).tlen ≤ 8 := by
    intro f D
    obtain ⟨r, ⟨-, e⟩ | ⟨-, -, e⟩ | ⟨-, -, e⟩⟩ := checkedWrite_cases f D s <;> rw [e]
    · exact .inr (by simp)
    · exact .inl rfl
    · exact .inl rfl
  cases o with
  | short raw => exact .inr (by simp [writeMemEffect])
  | full f D =>
    unfold writeMemEffect
    dsimp only
    split
    · exact K f D
    · exact K f D
    · exact .inl rfl
    · exact .inr (by simp [finishWrite])

/-- READMEM answers an error of 4 bytes, or as many bytes as were asked for, which the maximum bounds (R157). -/
theorem readMemEffect_length (o : Form ReadFields) (s : State) :
    (readMemEffect o s).st = s.st ∨ (readMemEffect o s).tlen ≤ 4 ∨ (readMemEffect o s).tlen ≤ s.maxPayload.toNat := by
  cases o with
  | short raw => exact .inr (.inl (by simp [readMemEffect]))
  | full f x =>
    obtain ⟨-, e⟩ | ⟨hm, r, ⟨-, e⟩ | ⟨-, -, e⟩ | ⟨-, -, e⟩⟩ := readMemEffect_cases f x s <;> rw [e]
    · exact .inr (.inl (by simp))
    · exact .inr (.inl (by simp))
    · exact .inl rfl
    · exact .inr (.inr (by simpa using hm))

theorem execEffect_length (o : ExecForm) (s : State) :
    (execEffect o s).st = s.st ∨ (execEffect o s).tlen ≤ 4 := by
  have K : ∀ a mf, (callEffect a mf s).st = s.st ∨ (callEffect a mf s).tlen ≤ 4 := by
    intro a mf
    obtain ⟨r, ⟨-, e⟩ | ⟨-, v, w, -, e⟩ | ⟨-, -, e⟩⟩ := callEffect_cases a mf s <;> rw [e]
    · exact .inr (by simp)
    · exact .inr (by simp)
    · exact .inl rfl
  cases o with
  | short raw => exact .inr (by simp [execEffect])
  | bare a => exact K a 0
  | flagged a mf x => exact K a mf

/-- A command's answer fits the negotiated maximum, as its request does (R105, R150, R223). -/
theorem exec_answer_fits {k : Cmd} {P : Bytes} {s t : State} (h : exec (commandInstr k P) s = .next t)
    (hmax : 20 ≤ s.maxPayload.toNat) (hP : P.length ≤ s.maxPayload.toNat) :
    t.st = s.st ∨ t.tlen ≤ s.maxPayload.toNat := by
  cases k with
  | ping => cases h; exact .inr hP
  | getInfo => cases h; exact .inr (by simpa [infoBytes] using hmax)
  | heapInfo => cases h; exact .inr (by simp [heapBytes]; omega)
  | alloc => cases h; exact (allocEffect_length _ s).imp_right (by omega)
  | free => cases h; exact (freeEffect_length _ s).imp_right (by omega)
  | writeMem => cases h; exact (writeMemEffect_length _ s).imp_right (by omega)
  | readMem => cases h; exact (readMemEffect_length _ s).imp_right (by omega)
  | exec => cases h; exact (execEffect_length _ s).imp_right (by omega)

/-! ### What the invariant leaves out of reach -/

/-- No command is in progress outside a running block's `DISPATCH`. -/
theorem State.ProgressOk.fresh {s : State} (h : s.ProgressOk) (hn : ¬(s.run = .running ∧ s.st = .dispatch)) :
    s.phase = .fresh := by
  unfold State.ProgressOk at h
  split at h
  · assumption
  · exact absurd ⟨h.1, h.2.1⟩ hn
  · exact absurd ⟨h.1, h.2.1⟩ hn
  · exact absurd ⟨h.1, h.2.1⟩ hn

theorem progressOk_of_fresh {s : State} (h : s.phase = .fresh) : s.ProgressOk := by
  simp [State.ProgressOk, h]

/-- No callee hangs outside a running block. -/
theorem State.Inv.hung_none {s : State} (h : s.Inv) (hn : s.run ≠ .running) : s.hung = none := by
  by_contra hh
  exact hn (h.inCallee (Option.isSome_iff_ne_none.mpr hh)).1

/-- The fault mark is clear in a block that is not faulted. -/
theorem State.Inv.why_none {s : State} (h : s.Inv) (hn : s.run ≠ .faulted) : s.why = none := by
  by_contra hh
  exact hn (h.mark.mpr (Option.isSome_iff_ne_none.mpr hh))

/-! ### The invariant, move by move -/

theorem inv_outside {s t : State} (o : Outside s t) (h : s.Inv) : t.Inv := by
  rw [o]
  exact ⟨h.memory, h.older, h.unsynced, h.mark, h.queue, fun r => (h.built r).congr rfl rfl rfl rfl rfl, h.atRest,
    h.slots, h.request, h.framer, h.inCallee, h.progress⟩

theorem inv_queue {s : State} (h : s.Inv) {q : Bytes} (hq : q.length ≤ s.cfg.rxFifoDepth) (l : Bytes) :
    State.Inv { s with q := q, link := l } :=
  ⟨h.memory, h.older, h.unsynced, h.mark, hq, fun r => (h.built r).congr rfl rfl rfl rfl rfl, h.atRest,
    h.slots, h.request, h.framer, h.inCallee, h.progress⟩

theorem inv_pop {s : State} (h : s.Inv) {b : Byte} {rest : Bytes} (q : s.q = b :: rest) :
    State.Inv { s with q := rest } := by
  have hq := h.queue
  rw [q, List.length_cons] at hq
  exact inv_queue h (by omega) s.link

theorem awake_pop {s : State} (h : s.Awake) (q : Bytes) : State.Awake { s with q := q } :=
  ⟨h.running, h.clear, h.free, h.request⟩

/-- A request to add at the lookup engine's port is the one with `op` 0 (R93). -/
theorem decodeRequest_add {r : TrackerRequest} {a sz : Word} (h : decodeRequest r = .trackerAdd a sz) :
    r.op = 0b00#2 ∧ r.a = a := by
  unfold decodeRequest at h
  split_ifs at h
  cases h
  exact ⟨‹_›, rfl⟩

theorem inv_served {s t : State} {r : TrackerRequest} (h : s.Inv) (hr : s.treq = some r)
    (e : exec (decodeRequest r) { s with treq := none } = .next t) : t.Inv := by
  have hT := exec_table e fun a sz hi => by
    obtain ⟨hop, rfl⟩ := decodeRequest_add hi
    exact h.request r hr hop
  obtain ⟨T, x, rfl⟩ := exec_decodeRequest_frame e
  exact ⟨h.memory, h.older, h.unsynced, h.mark, h.queue,
    fun r => (h.built r).congr rfl rfl rfl rfl hT.length, h.atRest, hT.legal h.slots, by simp, h.framer,
    h.inCallee, h.progress⟩

/-- An answer that fits the maximum keeps the invariant of a running block. -/
theorem inv_respondWith {s : State} (h : s.Inv) (ha : s.Awake) {c f : Byte} {p : Bytes}
    (hp : p.length ≤ s.maxPayload.toNat) (hf : f = flagsOk ∨ f = flagsError) : (s.respondWith c f p).Inv := by
  have b := h.built (.inl ha.running)
  have hx : (p ++ s.txbuf.drop p.length).length = s.txbuf.length := by
    rw [length_respond_buffer]
    exact max_eq_right (hp.trans b.max_le_txbuf)
  exact ⟨h.memory, h.older, h.unsynced, h.mark, h.queue, fun _ => b.congr rfl rfl rfl hx rfl,
    by simp [ha.running], h.slots, h.request, ⟨hp, hf⟩, by simp [ha.free], progressOk_of_fresh rfl⟩

theorem inv_reportError {s : State} (h : s.Inv) (ha : s.Awake) (c : Byte) (e : ErrCode) : (s.reportError c e).Inv :=
  inv_respondWith h ha (by have := (h.built (.inl ha.running)).twenty_le; simp; omega) (.inr rfl)

theorem inv_finishResponse {s : State} (h : s.Inv) (ha : s.Awake) (hs : s.st = .respond) : s.finishResponse.Inv :=
  ⟨h.memory, h.older, h.unsynced, h.mark, h.queue, fun r => (h.built r).congr rfl rfl rfl rfl rfl, fun _ => rfl,
    h.slots, h.request, trivial, by simp [State.finishResponse, ha.free],
    progressOk_of_fresh (h.progress.fresh (by simp [hs]))⟩

theorem inv_verifySum {s : State} (h : s.Inv) (ha : s.Awake) (hs : s.st = .verify) : s.verifySum.Inv := by
  obtain ⟨-, e⟩ | ⟨-, e⟩ := verifySum_cases s <;> rw [e]
  · have hb := h.framer
    simp only [State.FramerBounds, hs] at hb
    exact ⟨h.memory, h.older, h.unsynced, h.mark, h.queue, fun r => (h.built r).congr rfl rfl rfl rfl rfl,
      by simp [ha.running], h.slots, h.request, hb, by simp [ha.free],
      progressOk_of_fresh (h.progress.fresh (by simp [hs]))⟩
  · exact inv_reportError h ha _ _

/-! ### The invariant and a byte taken -/

/-- The header's last step leaves the registers in the bounds of the state it goes to (R105). -/
theorem headerComplete_bounds (s : State) : s.headerComplete.FramerBounds := by
  have hl := s.hdr.len.isLt
  unfold State.headerComplete
  split_ifs with hmax hzero
  · simp only [State.FramerBounds, max32]
    omega
  · simp only [State.FramerBounds]
    omega
  · have : s.hdr.len.toNat ≠ 0 := fun h => hzero (BitVec.eq_of_toNat_eq h)
    simp only [State.FramerBounds]
    omega

/-- A byte taken leaves the framer's registers in their bounds (R100 to R109). -/
theorem takeByte_bounds {s : State} (h : s.FramerBounds) (hc : s.st.consumes = true) (b : Byte) :
    (s.takeByte b).FramerBounds := by
  unfold State.FramerBounds at h
  unfold State.takeByte
  cases hs : s.st <;> simp only [hs] at h ⊢
  case sync1 =>
    unfold State.takeSync1
    split <;> simp [State.FramerBounds]
  case sync2 =>
    unfold State.takeSync2
    split
    · simp [State.FramerBounds]
    · split <;> simp [State.FramerBounds]
  case hdr =>
    simp only [State.takeHeader]
    split
    · simpa [State.FramerBounds, hs] using ‹_›
    · exact headerComplete_bounds _
  case payload =>
    simp only [State.takePayload]
    split
    · exact ⟨by simp, h.2⟩
    · simp only [State.FramerBounds, hs]
      omega
  case csum =>
    simp only [State.takeCsum]
    split
    · simp only [State.FramerBounds, hs]
      omega
    · exact h.2
  case drain =>
    simp only [State.takeDrain]
    split
    · trivial
    · simp only [State.FramerBounds]
      omega
  all_goals simp [hs, FramerState.consumes] at hc

theorem length_takeByte_rxbuf (s : State) (b : Byte) : (s.takeByte b).rxbuf.length = s.rxbuf.length := by
  unfold State.takeByte
  cases s.st <;> dsimp only
  case sync2 =>
    unfold State.takeSync2
    split <;> rfl
  case hdr =>
    simp only [State.takeHeader, State.headerComplete]
    split_ifs <;> rfl
  case payload =>
    simp only [State.takePayload]
    split <;> simp
  case csum =>
    unfold State.takeCsum
    split <;> rfl
  all_goals rfl

theorem inv_takeByte {s : State} (h : s.Inv) (ha : s.Awake) (hc : s.st.consumes = true) (b : Byte) :
    (s.takeByte b).Inv := by
  have hb := takeByte_bounds h.framer hc b
  have hx := length_takeByte_rxbuf s b
  have hp : s.phase = .fresh := h.progress.fresh fun ⟨_, hs⟩ => by simp [hs, FramerState.consumes] at hc
  obtain ⟨_, _, _, _, _, _, _, e⟩ := takeByte_frame s b
  rw [e] at hb hx ⊢
  exact ⟨h.memory, h.older, h.unsynced, h.mark, h.queue, fun r => (h.built r).congr rfl rfl hx rfl rfl,
    by simp [ha.running], h.slots, h.request, hb, by simp [ha.free], progressOk_of_fresh hp⟩

/-! ### The invariant and a command's step -/

/-- The command of an instruction whose step goes on is the one that the header names (R150). -/
theorem progressOk_ran {s t : State} {k : Cmd} {P : Bytes} (h : s.ProgressOk) (hc : 1 ≤ s.cfg.cacheLineDefault.toNat)
    (hk : cmdId s.cfg.cmdIds k = s.hdr.cmd) (hr : t.run = .running) (hs : t.st = .dispatch) (sr : s.run = .running)
    (ss : s.st = .dispatch) (hcfg : t.cfg = s.cfg) (hhdr : t.hdr = s.hdr) (hp : ProgressEffect (commandInstr k P) s t) :
    t.ProgressOk := by
  cases hp with
  | fresh hf => exact progressOk_of_fresh hf
  | same hf _ => simpa only [State.ProgressOk, hf, hcfg, hhdr, hr, hs, sr, ss] using h
  | allocRelease o hi a hf =>
    cases k <;> cases hi
    simp [State.ProgressOk, hf, hr, hs, hcfg, hhdr, ← hk, cmdId]
  | freeRelease o hi a hf =>
    cases k <;> cases hi
    simp [State.ProgressOk, hf, hr, hs, hcfg, hhdr, ← hk, cmdId]
  | written o hi hf =>
    cases k <;> cases hi
    simp [State.ProgressOk, hf, hr, hs, hcfg, hhdr, ← hk, cmdId]
  | lineKnown o hi hf =>
    cases k <;> cases hi
    simp [State.ProgressOk, hf, hr, hs, hcfg, hhdr, ← hk, cmdId, one_le_effectiveLine hc]

theorem commandInstr_ne_add (k : Cmd) (P : Bytes) (a sz : Word) : commandInstr k P ≠ .trackerAdd a sz := by
  cases k <;> simp [commandInstr]

theorem inv_ran {s t : State} {k : Cmd} (h : s.Inv) (ha : s.Awake) (hs : s.st = .dispatch)
    (hk : cmdId s.cfg.cmdIds k = s.hdr.cmd) (e : exec (commandInstr k s.payload) s = .next t) : t.Inv := by
  obtain ⟨hm, he⟩ := exec_next e
  have hM := exec_mem e
  have hT := exec_table e fun a sz hi => absurd hi (commandInstr_ne_add k _ a sz)
  have b := h.built (.inl ha.running)
  have hlen : s.hdr.len.toNat ≤ s.maxPayload.toNat := by simpa only [State.FramerBounds, hs] using h.framer
  have hfits := exec_answer_fits e b.twenty_le ((List.length_take_le _ _).trans hlen)
  have hP := fun hr ht => progressOk_ran h.progress b.line_pos hk hr ht ha.running hs hm.cfg hm.hdr (exec_progress e)
  have hB : t.txbuf.length = s.txbuf.length → t.Built := fun hx =>
    b.congr hm.cfg hm.maxPayload (by rw [hm.rxbuf]) hx hT.length
  have hD : t.st = s.st → t.FramerBounds := fun ht => by
    simpa only [State.FramerBounds, ht, hs, hm.hdr, hm.maxPayload] using hlen
  have hQ : t.q.length ≤ t.cfg.rxFifoDepth := by rw [hm.q, hm.cfg]; exact h.queue
  have hR := hm.treq ▸ h.request
  have hN : t.st = s.st → t.run = s.run → t.why = s.why →
      (t.tcmd = s.tcmd ∧ t.tflags = s.tflags ∧ t.tlen = s.tlen ∧ t.txbuf = s.txbuf) → t.Inv := by
    rintro st run why ⟨-, -, -, hx⟩
    refine ⟨hM.mem h.memory, hM.past h.older, hM.dirty h.unsynced, ?_, hQ, fun _ => hB (by rw [hx]), ?_, hT.legal h.slots, hR,
      hD st, fun _ => ⟨run.trans ha.running, st.trans hs⟩, hP (run.trans ha.running) (st.trans hs)⟩
    · rw [run, why]; exact h.mark
    · simp [run, ha.running]
  cases he with
  | answered st run why hung phase flags buffer =>
    have hl : t.tlen ≤ s.maxPayload.toNat := hfits.resolve_left (by simp [st, hs])
    have hx : t.txbuf.length = s.txbuf.length := by rw [buffer, max_eq_right (hl.trans b.max_le_txbuf)]
    refine ⟨hM.mem h.memory, hM.past h.older, hM.dirty h.unsynced, ?_, hQ, fun _ => hB hx, ?_, hT.legal h.slots, hR, ?_, ?_,
      progressOk_of_fresh phase⟩
    · rw [run, why]; exact h.mark
    · simp [run, ha.running]
    · simp only [State.FramerBounds, st, hm.maxPayload]
      exact ⟨hl, flags⟩
    · simp [hung, ha.free]
  | faulted st run why hung phase tx =>
    obtain ⟨-, -, -, hx⟩ := tx
    exact ⟨hM.mem h.memory, hM.past h.older, hM.dirty h.unsynced, by simp [run, why], hQ, fun _ => hB (by rw [hx]),
      by simp [run], hT.legal h.slots, hR, hD st, by simp [hung, ha.free], progressOk_of_fresh phase⟩
  | hangs st run why hung phase tx => exact hN st run why tx
  | stays st run why hung tx => exact hN st run why tx

/-! ### The invariant, start and power-on -/

theorem inv_started {s : State} (h : s.Inv) (hr : s.run = .idle ∨ s.run = .failed) (hc : configOk s.cfg = true) :
    s.started.Inv := by
  have hn : s.run ≠ .running := by rcases hr with hr | hr <;> simp [hr]
  have hp : s.phase = .fresh := h.progress.fresh fun hs => hn hs.1
  refine ⟨h.memory, h.older, h.unsynced, by simp [State.started], by simp [State.started], fun _ => ?_, fun _ => rfl, ?_,
    h.request, trivial, by simp [State.started, h.hung_none hn], progressOk_of_fresh hp⟩
  · exact ⟨hc, rfl, by simp [State.started, freshBuffer], by simp [State.started, freshBuffer], by simp [State.started]⟩
  · intro t ht
    rw [List.eq_of_mem_replicate ht]
    simp [Slot.legal, Slot.free]

theorem inv_startFailed {s : State} (h : s.Inv) (hr : s.run = .idle ∨ s.run = .failed) (rx tx : Bool) :
    (s.startFailed rx tx).Inv := by
  have hn : s.run ≠ .running := by rcases hr with hr | hr <;> simp [hr]
  have hf : s.run ≠ .faulted := by rcases hr with hr | hr <;> simp [hr]
  have hp : s.phase = .fresh := h.progress.fresh fun hs => hn hs.1
  exact ⟨h.memory, h.older, h.unsynced, by simp [State.startFailed, h.why_none hf], h.queue, by simp [State.startFailed],
    fun _ => h.atRest hr, h.slots, h.request, h.framer, by simp [State.startFailed, h.hung_none hn],
    progressOk_of_fresh hp⟩

theorem inv_reset : State.reset.Inv :=
  ⟨Memory.wf_nil, List.Pairwise.nil, List.Pairwise.nil, by simp [State.reset], by simp [State.reset], by simp [State.reset],
    fun _ => rfl, by simp [State.reset], by simp [State.reset], trivial, by simp [State.reset], trivial⟩

theorem inv_powerOn {s : State} (h : s.Inv) (w : List (Word × Byte)) : (s.powerOn w).Inv := by
  have hM := storeCells_mem s (cs := calleeCells w) fun c hc => calleeCells_le hc
  have i := inv_reset
  exact ⟨hM.mem h.memory, hM.past h.older, hM.dirty h.unsynced, i.mark, by simp [State.powerOn, State.reset],
    by simp [State.powerOn, State.reset], i.atRest, i.slots, i.request, i.framer, i.inCallee, i.progress⟩

/-! ### The statements -/

/-- Every way in which a move can end keeps the invariant. -/
theorem inv_moved {s t : State} {m : Turn} (h : s.Inv) (hm : Moved s t m) : t.Inv := by
  cases hm with
  | outside o => exact inv_outside o h
  | delivered b rest link room e =>
    simp only [State.queueRoom, Bool.and_eq_true, decide_eq_true_eq] at room
    rw [e]
    exact inv_queue h (by simpa using room.2) rest
  | served r req e => exact inv_served h req e
  | took awake consumes b rest q e => exact e ▸ inv_takeByte (inv_pop h q) (awake_pop awake rest) consumes b
  | compared awake st e => exact e ▸ inv_verifySum h awake st
  | ran awake st k cmd e => exact inv_ran h awake st cmd e
  | unknown awake e => exact e ▸ inv_reportError h awake _ _
  | responded awake st e => exact e ▸ inv_finishResponse h awake st
  | started idle config u o e =>
    have hu : u.run = s.run ∧ u.cfg = s.cfg := by rw [o]; exact ⟨rfl, rfl⟩
    exact e ▸ inv_started (inv_outside o h) (hu.1 ▸ idle) (hu.2 ▸ config)
  | startFailed idle u o rx tx e =>
    have hu : u.run = s.run := by rw [o]
    exact e ▸ inv_startFailed (inv_outside o h) (hu ▸ idle) rx tx
  | poweredOn w e => exact e ▸ inv_powerOn h w

/-- Settles O1: every part of the invariant is read off the reset state. -/
theorem resetMeetsTheInvariants : Obligations.ResetMeetsTheInvariants := by
  unfold Obligations.ResetMeetsTheInvariants
  exact ⟨inv_reset, trivial, rfl, rfl⟩

theorem outside_of_sameButTurns {s u : State} (h : SameButTurns s u) : Outside s u := by
  rw [h]

/-- Settles O2: picking the agent changes nothing of the block, and every way in which its move can end keeps the invariant. -/
theorem stepKeepsTheInvariant : Obligations.StepKeepsTheInvariant := by
  unfold Obligations.StepKeepsTheInvariant
  intro s t hi h
  obtain ⟨u, m, hu, hm, -⟩ := step_moved h
  exact inv_moved (inv_outside (outside_of_sameButTurns hu) hi) hm

end Sys2Proof.Machine
end

section
/-! The accumulator: what each byte adds to it, and that every way in which a move can end keeps it the sum of the covered
bytes (R24, R113). -/

namespace Sys2Proof.Machine

/-! ### The covered bytes, one byte at a time -/

/-- The sum that `HDR` starts from is that of no header byte (R102). -/
theorem csum_coveredBytes_nil (cfg : Config) : csum (coveredBytes cfg []) = accInit cfg := by
  unfold coveredBytes accInit
  split <;> simp [csum_nil]

/-- One more covered byte is one more addend (R104, R106). -/
theorem csum_coveredBytes_snoc (cfg : Config) (B : Bytes) (b : Byte) :
    csum (coveredBytes cfg (B ++ [b])) = accAdd (csum (coveredBytes cfg B)) b := by
  unfold coveredBytes accAdd
  split
  · rw [← List.append_assoc, csum_snoc]
  · rw [csum_snoc]

/-- The latch's bytes up to the one just set are those before it and the new one (R104). -/
theorem take_toBytes_set (h : Header) {i : Nat} (hi : i ≤ 5) (b : Byte) :
    (h.set i b).toBytes.take (i + 1) = h.toBytes.take i ++ [b] := by
  obtain rfl | rfl | rfl | rfl | rfl | rfl : i = 0 ∨ i = 1 ∨ i = 2 ∨ i = 3 ∨ i = 4 ∨ i = 5 := by omega
  all_goals rfl

/-- A list's elements up to the one just set are those before it and the new one. -/
theorem take_set_succ {l : Bytes} {i : Nat} (hi : i < l.length) (b : Byte) :
    (l.set i b).take (i + 1) = l.take i ++ [b] := by
  rw [List.take_add_one, List.take_set_of_le (le_refl i)]
  simp [hi]

/-! ### What keeps the sum right -/

/-- The sum is right in a state without covered bytes, as a state that takes none of them into the sum is. -/
theorem sumRight_of_unsummed {s : State} (h : s.st = .sync1 ∨ s.st = .sync2 ∨ s.st = .drain ∨ s.st = .respond) :
    s.SumRight := by
  rcases h with h | h | h | h <;> simp [State.SumRight, h]

/-- Whether the sum is right rests on the framer's registers, the receive buffer and the configuration only. -/
theorem State.SumRight.congr {s t : State} (h : s.SumRight) (st : t.st = s.st) (cfg : t.cfg = s.cfg) (idx : t.idx = s.idx)
    (hdr : t.hdr = s.hdr) (acc : t.acc = s.acc) (rcs : t.rcs = s.rcs) (rxbuf : t.rxbuf = s.rxbuf) : t.SumRight := by
  simpa only [State.SumRight, State.summed, State.payload, st, cfg, idx, hdr, acc, rcs, rxbuf] using h

/-- The header's last byte completes the sum of the header, and the payload to come adds nothing yet (R105). -/
theorem sumRight_headerComplete {s : State} (h : s.acc = csum (coveredBytes s.cfg s.hdr.toBytes)) :
    s.headerComplete.SumRight := by
  unfold State.headerComplete
  split_ifs with hmax hzero
  · trivial
  · simpa [State.SumRight, State.summed, State.payload, hzero] using h
  · simpa [State.SumRight, State.summed] using h

/-- A header byte joins the sum (R104). -/
theorem sumRight_takeHeader {s : State} (h : s.SumRight) (hs : s.st = .hdr) (hi : s.idx ≤ 5) (b : Byte) :
    (s.takeHeader b).SumRight := by
  simp only [State.SumRight, State.summed, hs] at h
  have hsum : accAdd s.acc b = csum (coveredBytes s.cfg ((s.hdr.set s.idx b).toBytes.take (s.idx + 1))) := by
    rw [take_toBytes_set _ hi, csum_coveredBytes_snoc, h]
  simp only [State.takeHeader]
  split
  · simpa only [State.SumRight, State.summed, hs] using hsum
  · rw [List.take_of_length_le (by simp only [Header.toBytes, List.length_cons, List.length_nil]; omega)] at hsum
    exact sumRight_headerComplete hsum

/-- A payload byte joins the sum (R106). -/
theorem sumRight_takePayload {s : State} (h : s.SumRight) (hs : s.st = .payload) (hi : s.idx < s.rxbuf.length) (b : Byte) :
    (s.takePayload b).SumRight := by
  simp only [State.SumRight, State.summed, hs] at h
  have hsum : accAdd s.acc b =
      csum (coveredBytes s.cfg (s.hdr.toBytes ++ (s.rxbuf.set s.idx b).take (s.idx + 1))) := by
    rw [take_set_succ hi, ← List.append_assoc, csum_coveredBytes_snoc, h]
  simp only [State.takePayload]
  split
  · rename_i hlast
    rw [hlast] at hsum
    exact hsum
  · simpa only [State.SumRight, State.summed, hs] using hsum

/-- The checksum field adds nothing to the sum (R107, R108). -/
theorem sumRight_takeCsum {s : State} (h : s.SumRight) (hs : s.st = .csum) (b : Byte) : (s.takeCsum b).SumRight := by
  simp only [State.SumRight, State.summed, hs] at h
  unfold State.takeCsum
  split
  · simpa only [State.SumRight, State.summed, State.payload, hs] using h
  · exact h

/-- A byte taken keeps the accumulator the sum of the covered bytes received (R101 to R109). -/
theorem sumRight_takeByte {s : State} (hi : s.Inv) (ha : s.Awake) (h : s.SumRight) (hc : s.st.consumes = true) (b : Byte) :
    (s.takeByte b).SumRight := by
  have hb := hi.framer
  simp only [State.FramerBounds] at hb
  unfold State.takeByte
  cases hs : s.st <;> simp only [hs] at hb ⊢
  case sync1 =>
    unfold State.takeSync1
    split <;> trivial
  case sync2 =>
    unfold State.takeSync2
    split
    · exact (csum_coveredBytes_nil s.cfg).symm
    · split <;> trivial
  case hdr => exact sumRight_takeHeader h hs hb b
  case payload =>
    exact sumRight_takePayload h hs (hb.1.trans_le (hb.2.trans (hi.built (.inl ha.running)).max_le_rxbuf)) b
  case csum => exact sumRight_takeCsum h hs b
  case drain =>
    unfold State.takeDrain
    split <;> trivial
  all_goals simp [hs, FramerState.consumes] at hc

/-- Only a packet whose sums agree goes to `DISPATCH` (R110). -/
theorem sumRight_verifySum {s : State} (h : s.SumRight) (hs : s.st = .verify) : s.verifySum.SumRight := by
  simp only [State.SumRight, State.summed, hs] at h
  obtain ⟨hsame, e⟩ | ⟨-, e⟩ := verifySum_cases s <;> rw [e]
  · exact ⟨h, hsame.symm⟩
  · trivial

/-- A command leaves the framer's registers alone, and stays in its state or answers (R111). -/
theorem sumRight_exec {i : Instr} {s t : State} (h : s.SumRight) (e : exec i s = .next t) : t.SumRight := by
  obtain ⟨hm, he⟩ := exec_next e
  have K : t.st = s.st → t.SumRight := fun st => h.congr st hm.cfg hm.idx hm.hdr hm.acc hm.rcs hm.rxbuf
  cases he with
  | answered st => exact sumRight_of_unsummed (by simp [st])
  | faulted st => exact K st
  | hangs st => exact K st
  | stays st => exact K st

/-- Every way in which a move can end keeps the sum right. -/
theorem sumRight_moved {s t : State} {m : Turn} (hi : s.Inv) (h : s.SumRight) (hm : Moved s t m) : t.SumRight := by
  cases hm with
  | outside o => rw [o]; exact h
  | delivered b rest link room e => exact e ▸ h
  | served r req e => exact sumRight_exec (s := { s with treq := none }) h e
  | took awake consumes b rest q e => exact e ▸ sumRight_takeByte (inv_pop hi q) (awake_pop awake rest) h consumes b
  | compared awake st e => exact e ▸ sumRight_verifySum h st
  | ran awake st k cmd e => exact sumRight_exec h e
  | unknown awake e => exact e ▸ trivial
  | responded awake st e => exact e ▸ trivial
  | started idle config u o e => exact e ▸ trivial
  | startFailed idle u o rx tx e =>
    have hs : u.st = s.st := by rw [o]
    exact sumRight_of_unsummed (.inl (by rw [e]; exact hs.trans (hi.atRest idle)))
  | poweredOn w e => exact e ▸ trivial

/-- Settles O3: the invariant bounds the framer's indices, so that every byte taken joins the sum at its own place, and a
packet passes `VERIFY` with equal sums only. -/
theorem stepKeepsTheSumRight : Obligations.StepKeepsTheSumRight := by
  unfold Obligations.StepKeepsTheSumRight
  intro s t hi hsum h
  obtain ⟨u, m, hu, hm, -⟩ := step_moved h
  refine sumRight_moved (inv_outside (outside_of_sameButTurns hu) hi) ?_ hm
  rw [hu]
  exact hsum

end Sys2Proof.Machine
end

section
/-! Registers that R37 leaves unspecified: two states agree on the specified part exactly when they agree outside these
registers and on those that a rule has written; and what every move reads is in that part (R38). -/

namespace Sys2Proof.Machine

/-! ### Blanked buffers -/

@[simp] theorem length_blankFrom (n : Nat) (l : Bytes) : (blankFrom n l).length = l.length := by
  simp only [blankFrom, List.length_append, List.length_take, List.length_replicate]
  omega

theorem take_blankFrom (n : Nat) (l : Bytes) : (blankFrom n l).take n = l.take n := by
  rcases Nat.le_total n l.length with h | h
  · rw [blankFrom, List.take_left' (by simp [h])]
  · simp [blankFrom, Nat.sub_eq_zero_of_le h, List.take_of_length_le h]

/-- Two buffers are alike below `n` when they have one length and the same first `n` bytes. -/
theorem blankFrom_eq_iff {n : Nat} {l m : Bytes} :
    blankFrom n l = blankFrom n m ↔ l.length = m.length ∧ l.take n = m.take n := by
  constructor
  · intro h
    exact ⟨by rw [← length_blankFrom n l, h, length_blankFrom], by rw [← take_blankFrom n l, h, take_blankFrom]⟩
  · rintro ⟨hl, ht⟩
    rw [blankFrom, blankFrom, hl, ht]

theorem blankFrom_zero (l : Bytes) : blankFrom 0 l = List.replicate l.length 0 := rfl

/-! ### The two parts of agreement -/

/-- Two states hold the same in every register that a rule has written and a later step may read (R37, R38). -/
def SameWritten (s t : State) : Prop :=
  match s.st with
  | .sync1 => True
  | .sync2 => True
  | .hdr => s.idx = t.idx ∧ s.acc = t.acc ∧ s.hdr.upTo s.idx = t.hdr.upTo s.idx
  | .payload => s.idx = t.idx ∧ s.acc = t.acc ∧ s.hdr = t.hdr ∧ s.rxbuf.take s.idx = t.rxbuf.take s.idx
  | .csum => s.idx = t.idx ∧ s.acc = t.acc ∧ s.hdr = t.hdr ∧
      (s.idx ≠ 0 → s.rcs.extractLsb' 0 8 = t.rcs.extractLsb' 0 8) ∧ s.payload = t.payload
  | .verify => s.acc = t.acc ∧ s.hdr = t.hdr ∧ s.rcs = t.rcs ∧ s.payload = t.payload
  | .dispatch => s.hdr = t.hdr ∧ s.payload = t.payload
  | .respond => s.tcmd = t.tcmd ∧ s.tflags = t.tflags ∧ s.tlen = t.tlen ∧ s.tpay = t.tpay
  | .drain => s.drain = t.drain

/-- Two states agree on all that R37 specifies. -/
structure Agree (s t : State) : Prop where
  rest    : s.unwritten = t.unwritten
  written : SameWritten s t

theorem specified_st (s : State) : s.specified.st = s.st := by
  unfold State.specified
  split <;> rfl

theorem unwritten_unwritten (s : State) : s.unwritten.unwritten = s.unwritten := by
  simp [State.unwritten, blankFrom_zero]

theorem unwritten_specified (s : State) : s.specified.unwritten = s.unwritten := by
  unfold State.specified
  split <;> simp [State.unwritten, blankFrom_zero]

/-- What does not read the registers that R37 leaves unspecified is alike in states that differ in them only. -/
theorem eq_of_rest {α : Type} {s t : State} (h : s.unwritten = t.unwritten) (f : State → α)
    (hf : ∀ w, f w.unwritten = f w) : f s = f t := by
  rw [← hf s, h, hf]

theorem length_rxbuf_of_rest {s t : State} (h : s.unwritten = t.unwritten) : s.rxbuf.length = t.rxbuf.length :=
  eq_of_rest h (fun w => w.rxbuf.length) fun w => length_blankFrom 0 w.rxbuf

theorem length_txbuf_of_rest {s t : State} (h : s.unwritten = t.unwritten) : s.txbuf.length = t.txbuf.length :=
  eq_of_rest h (fun w => w.txbuf.length) fun w => length_blankFrom 0 w.txbuf

/-- Receive buffers alike below the payload's end hold one payload. -/
theorem payload_of_blank {s t : State} (hh : s.hdr = t.hdr)
    (hx : blankFrom s.hdr.len.toNat s.rxbuf = blankFrom t.hdr.len.toNat t.rxbuf) : s.payload = t.payload := by
  rw [← hh] at hx
  rw [State.payload, State.payload, ← hh, (blankFrom_eq_iff.mp hx).2]

/-- States with one specified part hold the same in every register written. -/
theorem sameWritten_of_specified {s t : State} (h : s.specified = t.specified) : SameWritten s t := by
  have hst : s.st = t.st := by rw [← specified_st s, h, specified_st]
  unfold State.specified at h
  rw [← hst] at h
  unfold SameWritten
  cases hs : s.st <;> simp only [hs] at h ⊢
  case hdr =>
    have hi : s.idx = t.idx := (congrArg State.idx h :)
    have hh : s.hdr.upTo s.idx = t.hdr.upTo t.idx := (congrArg State.hdr h :)
    exact ⟨hi, (congrArg State.acc h :), hi ▸ hh⟩
  case payload =>
    have hi : s.idx = t.idx := (congrArg State.idx h :)
    have hx : blankFrom s.idx s.rxbuf = blankFrom t.idx t.rxbuf := (congrArg State.rxbuf h :)
    rw [← hi] at hx
    exact ⟨hi, (congrArg State.acc h :), (congrArg State.hdr h :), (blankFrom_eq_iff.mp hx).2⟩
  case csum =>
    have hi : s.idx = t.idx := (congrArg State.idx h :)
    have hr : (if s.idx = 0 then 0 else half16 (s.rcs.extractLsb' 0 8) 0) =
        if t.idx = 0 then 0 else half16 (t.rcs.extractLsb' 0 8) 0 := (congrArg State.rcs h :)
    refine ⟨hi, (congrArg State.acc h :), (congrArg State.hdr h :), fun hne => ?_,
      payload_of_blank (congrArg State.hdr h :) (congrArg State.rxbuf h :)⟩
    rw [← hi, if_neg hne, if_neg hne] at hr
    simpa only [extract_low_half16] using congrArg (BitVec.extractLsb' 0 8) hr
  case verify =>
    exact ⟨(congrArg State.acc h :), (congrArg State.hdr h :), (congrArg State.rcs h :),
      payload_of_blank (congrArg State.hdr h :) (congrArg State.rxbuf h :)⟩
  case dispatch =>
    exact ⟨(congrArg State.hdr h :), payload_of_blank (congrArg State.hdr h :) (congrArg State.rxbuf h :)⟩
  case respond =>
    have hl : s.tlen = t.tlen := (congrArg State.tlen h :)
    have hx : blankFrom s.tlen s.txbuf = blankFrom t.tlen t.txbuf := (congrArg State.txbuf h :)
    rw [← hl] at hx
    exact ⟨(congrArg State.tcmd h :), (congrArg State.tflags h :), hl,
      by simp only [State.tpay, ← hl, (blankFrom_eq_iff.mp hx).2]⟩
  case drain => exact (congrArg State.drain h :)

/-- States that agree have one specified part. -/
theorem Agree.specified_eq {s t : State} (h : Agree s t) : s.specified = t.specified := by
  obtain ⟨hr, hw⟩ := h
  have hst : s.st = t.st := eq_of_rest hr State.st fun _ => rfl
  have hx : ∀ n, s.rxbuf.take n = t.rxbuf.take n → blankFrom n s.rxbuf = blankFrom n t.rxbuf := fun n h =>
    blankFrom_eq_iff.mpr ⟨length_rxbuf_of_rest hr, h⟩
  have hp : s.hdr = t.hdr → s.payload = t.payload → blankFrom s.hdr.len.toNat s.rxbuf = blankFrom t.hdr.len.toNat t.rxbuf :=
    fun hh hp => hh ▸ hx _ (by rw [State.payload, State.payload, ← hh] at hp; exact hp)
  unfold SameWritten at hw
  unfold State.specified
  rw [← hst]
  cases hs : s.st <;> simp only [hs] at hw ⊢
  case sync1 => exact hr
  case sync2 => exact hr
  case hdr =>
    obtain ⟨hi, ha, hh⟩ := hw
    rw [hr, ← hi, ha, hh]
  case payload =>
    obtain ⟨hi, ha, hh, hb⟩ := hw
    rw [hr, ← hi, ha, hh, hx _ hb]
  case csum =>
    obtain ⟨hi, ha, hh, hc, hb⟩ := hw
    have hc : (if s.idx = 0 then 0 else half16 (s.rcs.extractLsb' 0 8) 0) =
        if s.idx = 0 then 0 else half16 (t.rcs.extractLsb' 0 8) 0 := by
      split
      · rfl
      · rw [hc ‹_›]
    rw [hr, ← hi, ha, hp hh hb, hh, hc]
  case verify =>
    obtain ⟨ha, hh, hc, hb⟩ := hw
    rw [hr, ha, hp hh hb, hh, hc]
  case dispatch =>
    obtain ⟨hh, hb⟩ := hw
    rw [hr, hp hh hb, hh]
  case respond =>
    obtain ⟨hc, hf, hl, hb⟩ := hw
    have hb : blankFrom s.tlen s.txbuf = blankFrom t.tlen t.txbuf := hl ▸ blankFrom_eq_iff.mpr
      ⟨length_txbuf_of_rest hr, by rw [State.tpay, State.tpay, ← hl] at hb; exact hb⟩
    rw [hr, hc, hf, hb, hl]
  case drain => rw [hr, hw]

/-- The specified part is the rest and the registers written. -/
theorem specified_eq_iff {s t : State} : s.specified = t.specified ↔ Agree s t :=
  ⟨fun h => ⟨by rw [← unwritten_specified s, h, unwritten_specified], sameWritten_of_specified h⟩, Agree.specified_eq⟩

end Sys2Proof.Machine
end

section
/-! The framer and R37's registers: each of its states, taking a byte or acting within, writes what a later step reads from what
the specified part holds (R101 to R112). -/

namespace Sys2Proof.Machine

/-! ### Updates that agreement survives -/

/-- States with one rest differ at most in the registers that R37 leaves unspecified. -/
theorem eq_patch_of_rest {s t : State} (h : s.unwritten = t.unwritten) :
    t = { s with
      idx := t.idx, hdr := t.hdr, acc := t.acc, rcs := t.rcs, drain := t.drain, tcmd := t.tcmd, tflags := t.tflags
      tlen := t.tlen, rxbuf := t.rxbuf, txbuf := t.txbuf } := by
  cases s
  cases t
  simp only [State.unwritten, State.mk.injEq] at h ⊢
  simp only [h, and_self]

/-- States that differ only in registers that R37 leaves unspecified have one rest, if their buffers have one length. -/
theorem rest_patch (s : State) (st : FramerState) {i j : Nat} {h k : Header} {a b r q : Half} {d e : Nat}
    {c c' f f' : Byte} {l l' : Nat} {x x' y y' : Bytes} (hx : x.length = x'.length) (hy : y.length = y'.length) :
    State.unwritten { s with
      st := st, idx := i, hdr := h, acc := a, rcs := r, drain := d, tcmd := c, tflags := f, tlen := l, rxbuf := x
      txbuf := y } =
    State.unwritten { s with
      st := st, idx := j, hdr := k, acc := b, rcs := q, drain := e, tcmd := c', tflags := f', tlen := l', rxbuf := x'
      txbuf := y' } := by
  simp only [State.unwritten, blankFrom_zero, hx, hy]

/-- The framer's state register changes alike. -/
theorem rest_st {s t : State} (h : s.unwritten = t.unwritten) (x : FramerState) :
    State.unwritten { s with st := x } = State.unwritten { t with st := x } :=
  congrArg (fun w : State => { w with st := x }) h

/-- A hunting framer holds nothing that R37 leaves unspecified. -/
theorem sameWritten_hunting {s t : State} (h : s.st = .sync1 ∨ s.st = .sync2) : SameWritten s t := by
  rcases h with h | h <;> simp [SameWritten, h]

/-- An answer writes the whole response register (R27, R196). -/
theorem agree_respondWith {s t : State} (h : s.unwritten = t.unwritten) (c f : Byte) (p : Bytes) :
    Agree (s.respondWith c f p) (t.respondWith c f p) := by
  have hx : blankFrom 0 (p ++ s.txbuf.drop p.length) = blankFrom 0 (p ++ t.txbuf.drop p.length) := by
    simp [blankFrom_zero, length_txbuf_of_rest h]
  refine ⟨congrArg₂ (fun (w : State) x => { w with st := .respond, phase := .fresh, txbuf := x }) h hx, ?_⟩
  simp [SameWritten, State.tpay]

theorem agree_reportError {s t : State} (h : s.unwritten = t.unwritten) {c d : Byte} (hc : c = d) (e : ErrCode) :
    Agree (s.reportError c e) (t.reportError d e) := by
  have hcfg : s.cfg = t.cfg := eq_of_rest h State.cfg fun _ => rfl
  rw [State.reportError_eq, State.reportError_eq, hcfg, hc]
  exact agree_respondWith h d flagsError _

/-! ### The header latch -/

theorem upTo_of_le {h : Header} {i : Nat} (hi : 6 ≤ i) : h.upTo i = h := by
  simp [Header.upTo, show 0 < i by omega, show 1 < i by omega, show 2 < i by omega, show 3 < i by omega,
    show 4 < i by omega, show 5 < i by omega]

/-- A header byte joins the bytes latched before it (R104). -/
theorem upTo_set (h : Header) (i : Nat) (b : Byte) : (h.set i b).upTo (i + 1) = (h.upTo i).set i b := by
  rcases Nat.lt_or_ge i 6 with hi | hi
  · obtain rfl | rfl | rfl | rfl | rfl | rfl : i = 0 ∨ i = 1 ∨ i = 2 ∨ i = 3 ∨ i = 4 ∨ i = 5 := by omega
    all_goals rfl
  · rw [upTo_of_le hi, upTo_of_le (by omega)]

/-! ### Byte-consuming states -/

theorem agree_takeSync1 {s t : State} (h : s.unwritten = t.unwritten) (b : Byte) :
    Agree (s.takeSync1 b) (t.takeSync1 b) := by
  refine ⟨congrArg (fun w : State => w.takeSync1 b) h, sameWritten_hunting ?_⟩
  simp only [State.takeSync1]
  split <;> simp

theorem agree_takeSync2 {s t : State} (h : s.unwritten = t.unwritten) (b : Byte) :
    Agree (s.takeSync2 b) (t.takeSync2 b) := by
  have hx := length_rxbuf_of_rest h
  have hy := length_txbuf_of_rest h
  rw [eq_patch_of_rest h]
  simp only [State.takeSync2]
  split
  · exact ⟨rest_patch s .hdr hx hy, rfl, rfl, rfl⟩
  · refine ⟨rest_patch s _ hx hy, sameWritten_hunting ?_⟩
    dsimp only
    split <;> simp

theorem agree_headerComplete {s t : State} (h : s.unwritten = t.unwritten) (ha : s.acc = t.acc) (hh : s.hdr = t.hdr) :
    Agree s.headerComplete t.headerComplete := by
  have hx := length_rxbuf_of_rest h
  have hy := length_txbuf_of_rest h
  rw [eq_patch_of_rest h, ← ha, ← hh]
  simp only [State.headerComplete]
  split_ifs with hm hz
  · exact ⟨rest_patch s .drain hx hy, rfl⟩
  · exact ⟨rest_patch s .csum hx hy, rfl, rfl, rfl, fun hne => absurd (rfl) hne,
      by simp [State.payload, hz]⟩
  · exact ⟨rest_patch s .payload hx hy, rfl, rfl, rfl, rfl⟩

theorem agree_takeHeader {s t : State} (h : Agree s t) (hs : s.st = .hdr) (b : Byte) :
    Agree (s.takeHeader b) (t.takeHeader b) := by
  obtain ⟨hr, hw⟩ := h
  simp only [SameWritten, hs] at hw
  obtain ⟨hi, ha, hh⟩ := hw
  have hup : (s.hdr.set s.idx b).upTo (s.idx + 1) = (t.hdr.set s.idx b).upTo (s.idx + 1) := by
    rw [upTo_set, upTo_set, hh]
  simp only [State.takeHeader, ← hi, ← ha]
  split
  · refine ⟨hr, ?_⟩
    simp only [SameWritten, hs]
    exact ⟨trivial, trivial, hup⟩
  · rw [upTo_of_le (by omega), upTo_of_le (by omega)] at hup
    exact agree_headerComplete hr (rfl) hup

/-- A receive buffer's bytes up to the one just written rest on those before it and the buffer's length. -/
theorem take_set_congr {l m : Bytes} {i : Nat} (hl : l.length = m.length) (h : l.take i = m.take i) (b : Byte) :
    (l.set i b).take (i + 1) = (m.set i b).take (i + 1) := by
  rcases Nat.lt_or_ge i l.length with hi | hi
  · rw [take_set_succ hi, take_set_succ (hl ▸ hi), h]
  · rw [List.take_of_length_le hi, List.take_of_length_le (hl ▸ hi)] at h
    rw [h]

theorem agree_takePayload {s t : State} (h : Agree s t) (hs : s.st = .payload) (b : Byte) :
    Agree (s.takePayload b) (t.takePayload b) := by
  obtain ⟨hr, hw⟩ := h
  simp only [SameWritten, hs] at hw
  obtain ⟨hi, ha, hh, hb⟩ := hw
  have hx := length_rxbuf_of_rest hr
  have hy := length_txbuf_of_rest hr
  have hb := take_set_congr hx hb b
  have hl : (s.rxbuf.set s.idx b).length = (t.rxbuf.set s.idx b).length := by simpa using hx
  rw [eq_patch_of_rest hr, ← hi, ← ha, ← hh]
  simp only [State.takePayload]
  split
  · rename_i hlast
    rw [hlast] at hb
    exact ⟨rest_patch s .csum hl hy, rfl, rfl, rfl, fun hne => absurd (rfl) hne, hb⟩
  · refine ⟨rest_patch s s.st hl hy, ?_⟩
    simp only [SameWritten, hs]
    exact ⟨trivial, trivial, trivial, hb⟩

theorem agree_takeCsum {s t : State} (h : Agree s t) (hs : s.st = .csum) (b : Byte) :
    Agree (s.takeCsum b) (t.takeCsum b) := by
  obtain ⟨hr, hw⟩ := h
  simp only [SameWritten, hs] at hw
  obtain ⟨hi, ha, hh, hc, hb⟩ := hw
  simp only [State.takeCsum, ← hi]
  split
  · refine ⟨hr, ?_⟩
    simp only [SameWritten, hs]
    exact ⟨trivial, ha, hh, fun _ => by simp only [setLowByte, extract_low_half16], hb⟩
  · rename_i hne
    exact ⟨rest_st hr .verify, ha, hh, by simp only [setHighByte, hc hne], hb⟩

theorem agree_takeDrain {s t : State} (h : Agree s t) (hs : s.st = .drain) : Agree s.takeDrain t.takeDrain := by
  obtain ⟨hr, hw⟩ := h
  simp only [SameWritten, hs] at hw
  simp only [State.takeDrain, ← hw]
  refine ⟨rest_st hr _, ?_⟩
  split
  · exact sameWritten_hunting (.inl (rfl))
  · exact rfl

theorem agree_takeByte {s t : State} (h : Agree s t) (b : Byte) : Agree (s.takeByte b) (t.takeByte b) := by
  have hst : s.st = t.st := eq_of_rest h.rest State.st fun _ => rfl
  unfold State.takeByte
  rw [← hst]
  cases hs : s.st with
  | sync1 => exact agree_takeSync1 h.rest b
  | sync2 => exact agree_takeSync2 h.rest b
  | hdr => exact agree_takeHeader h hs b
  | payload => exact agree_takePayload h hs b
  | csum => exact agree_takeCsum h hs b
  | drain => exact agree_takeDrain h hs
  | verify => exact h
  | dispatch => exact h
  | respond => exact h

/-! ### Internal actions -/

theorem agree_verifySum {s t : State} (h : Agree s t) (hs : s.st = .verify) : Agree s.verifySum t.verifySum := by
  obtain ⟨hr, hw⟩ := h
  simp only [SameWritten, hs] at hw
  obtain ⟨ha, hh, hc, hb⟩ := hw
  simp only [State.verifySum, ← ha, ← hc]
  split
  · exact ⟨rest_st hr .dispatch, hh, hb⟩
  · exact agree_reportError hr (congrArg Header.cmd hh) _

theorem agree_finishResponse {s t : State} (h : Agree s t) (hs : s.st = .respond) :
    Agree s.finishResponse t.finishResponse := by
  obtain ⟨hr, hw⟩ := h
  simp only [SameWritten, hs] at hw
  obtain ⟨hc, hf, hl, hp⟩ := hw
  have hcfg : s.cfg = t.cfg := eq_of_rest hr State.cfg fun _ => rfl
  have hout : s.out = t.out := eq_of_rest hr State.out fun _ => rfl
  have ho : s.out ++ packetBytes s.cfg s.tcmd s.tflags s.tpay = t.out ++ packetBytes t.cfg t.tcmd t.tflags t.tpay := by
    rw [hc, hf, hp, hcfg, hout]
  exact ⟨congrArg₂ (fun (w : State) o => { w with st := .sync1, out := o }) hr ho, trivial⟩

end Sys2Proof.Machine
end

section
/-! Commands, the other agents and R37's registers: a command reads none of them but through the payload it was decoded
from, and neither does another agent's move or the choice of who moves (R37, R38). -/

namespace Sys2Proof.Machine

/-! ### Commands -/

/-- How the ends `a` from a state and `b` from the same state unwritten go together: the same answer, or the same rest with the
framer where it was. -/
inductive Blind (st : FramerState) : State → State → Prop
  | answers (u : State) (c f : Byte) (p : Bytes) : Blind st (u.respondWith c f p) (u.unwritten.respondWith c f p)
  | keeps (u : State) (h : u.st = st) : Blind st u u.unwritten

/-- A choice that reads nothing unwritten goes the same way in both. -/
theorem blind_ite {st : FramerState} {a b a' b' : State} (c : Prop) [Decidable c] (h : Blind st a b)
    (h' : Blind st a' b') : Blind st (if c then a else a') (if c then b else b') := by
  split
  · exact h
  · exact h'

theorem blind_requestAllocation (f : AllocFields) (s : State) :
    Blind s.st (requestAllocation f s) (requestAllocation f s.unwritten) :=
  blind_ite (goodAlignment f.alignment = true)
    (blind_ite (s.allocAnswer = 0) (.answers (s.callAlloc f.size f.caps f.alignment) _ _ _)
      (blind_ite (((s.callAlloc f.size f.caps f.alignment).lookupAdd s.allocAnswer f.size).tres = .tableFull)
        (.keeps (((s.callAlloc f.size f.caps f.alignment).lookupAdd s.allocAnswer f.size).goOn (.release s.allocAnswer)) rfl)
        (.answers ((s.callAlloc f.size f.caps f.alignment).lookupAdd s.allocAnswer f.size) _ _ _)))
    (.answers s _ _ _)

theorem blind_allocEffect (o : Form AllocFields) (s : State) : Blind s.st (allocEffect o s) (allocEffect o s.unwritten) := by
  cases o with
  | short raw => exact .answers s _ _ _
  | full f x =>
    have hp : s.unwritten.phase = s.phase := rfl
    unfold allocEffect
    rw [hp]
    cases s.phase with
    | release a => exact .answers (s.callFree a) _ _ _
    | fresh => exact blind_requestAllocation f s
    | written => exact blind_requestAllocation f s
    | lineKnown S => exact blind_requestAllocation f s

theorem blind_untrack (a : Word) (s : State) : Blind s.st (untrack a s) (untrack a s.unwritten) :=
  blind_ite ((s.lookupContains a).tres = .bit true)
    (.keeps (((s.lookupContains a).lookupRemove a).goOn (.release a)) rfl) (.answers (s.lookupContains a) _ _ _)

theorem blind_freeEffect (o : Form FreeFields) (s : State) : Blind s.st (freeEffect o s) (freeEffect o s.unwritten) := by
  cases o with
  | short raw => exact .answers s _ _ _
  | full f x =>
    have hp : s.unwritten.phase = s.phase := rfl
    unfold freeEffect
    rw [hp]
    cases s.phase with
    | release a => exact .answers (s.callFree a) _ _ _
    | fresh => exact blind_untrack f.address s
    | written => exact blind_untrack f.address s
    | lineKnown S => exact blind_untrack f.address s

theorem checkRange_unwritten (s : State) (mf : Byte) (a n : Nat) :
    s.unwritten.checkRange mf a n = (s.checkRange mf a n).unwritten := by
  rw [State.checkRange_eq, State.checkRange_eq]
  rfl

theorem blind_checkedWrite (f : WriteFields) (D : Bytes) (s : State) :
    Blind s.st (checkedWrite f D s) (checkedWrite f D s.unwritten) := by
  have hst : (s.checkRange f.mflags f.address.toNat D.length).st = s.st := by rw [State.checkRange_eq]
  unfold checkedWrite
  rw [checkRange_unwritten]
  generalize s.checkRange f.mflags f.address.toNat D.length = t at hst ⊢
  exact blind_ite (s.admits f.mflags f.address.toNat D.length = true)
    (blind_ite (t.memFaults f.address D.length = true) (.keeps (t.memAbort f.address .write D.length) hst)
      (.keeps ((t.memWrite f.address D).goOn .written) hst))
    (.answers t _ _ _)

theorem blind_writeMemEffect (o : Form WriteFields) (s : State) :
    Blind s.st (writeMemEffect o s) (writeMemEffect o s.unwritten) := by
  cases o with
  | short raw => exact .answers s _ _ _
  | full f D =>
    have hp : s.unwritten.phase = s.phase := rfl
    unfold writeMemEffect
    rw [hp]
    cases s.phase with
    | fresh => exact blind_checkedWrite f D s
    | release a => exact blind_checkedWrite f D s
    | written => exact .keeps s.learnLine rfl
    | lineKnown S => exact .answers (s.syncLines f.address.toNat D.length S) _ _ _

theorem blind_readMemEffect (o : Form ReadFields) (s : State) :
    Blind s.st (readMemEffect o s) (readMemEffect o s.unwritten) := by
  cases o with
  | short raw => exact .answers s _ _ _
  | full f x =>
    have hst : (s.checkRange f.mflags f.address.toNat f.size.toNat).st = s.st := by rw [State.checkRange_eq]
    unfold readMemEffect
    dsimp only
    rw [checkRange_unwritten]
    generalize s.checkRange f.mflags f.address.toNat f.size.toNat = t at hst ⊢
    exact blind_ite (s.maxPayload.toNat < f.size.toNat) (.answers s _ _ _)
      (blind_ite (s.admits f.mflags f.address.toNat f.size.toNat = true)
        (blind_ite (t.memFaults f.address f.size.toNat = true) (.keeps (t.memAbort f.address .read f.size.toNat) hst)
          (.answers (t.memRead f.address f.size.toNat) _ _ _))
        (.answers t _ _ _))

theorem blind_enterCallee (a : Word) (s : State) : Blind s.st (enterCallee a s) (enterCallee a s.unwritten) := by
  have hx : s.unwritten.execAnswer = s.execAnswer := rfl
  unfold enterCallee
  rw [hx]
  cases s.execAnswer with
  | returns v w => exact .answers (s.calleeReturned a v w) _ _ _
  | never => exact .keeps (s.calleeHangs a) rfl

theorem checkEntry_unwritten (s : State) (a : Word) : s.unwritten.checkEntry a = (s.checkEntry a).unwritten := by
  rw [State.checkEntry_eq, State.checkEntry_eq]
  rfl

theorem blind_callEffect (a : Word) (mf : Byte) (s : State) : Blind s.st (callEffect a mf s) (callEffect a mf s.unwritten) := by
  have hst : (s.checkEntry a).st = s.st := by rw [State.checkEntry_eq]
  unfold callEffect
  rw [checkEntry_unwritten]
  exact blind_ite (skipBounds mf = true) (blind_enterCallee a s)
    (blind_ite (s.entryOk a = true) (hst ▸ blind_enterCallee a (s.checkEntry a)) (.answers (s.checkEntry a) _ _ _))

/-- A command's step reads no register that R37 leaves unspecified. -/
theorem exec_blind (k : Cmd) (P : Bytes) (s : State) :
    ∃ a b, exec (commandInstr k P) s = .next a ∧ exec (commandInstr k P) s.unwritten = .next b ∧ Blind s.st a b := by
  cases k with
  | ping => exact ⟨_, _, rfl, rfl, .answers s _ _ _⟩
  | getInfo => exact ⟨_, _, rfl, rfl, .answers s.queryLine _ _ _⟩
  | heapInfo => exact ⟨_, _, rfl, rfl, .answers s.callHeap _ _ _⟩
  | alloc => exact ⟨_, _, rfl, rfl, blind_allocEffect _ s⟩
  | free => exact ⟨_, _, rfl, rfl, blind_freeEffect _ s⟩
  | writeMem => exact ⟨_, _, rfl, rfl, blind_writeMemEffect _ s⟩
  | readMem => exact ⟨_, _, rfl, rfl, blind_readMemEffect _ s⟩
  | exec =>
    refine ⟨_, _, rfl, rfl, ?_⟩
    cases execForm P with
    | short raw => exact .answers s _ _ _
    | bare a => exact blind_callEffect a 0 s
    | flagged a mf x => exact blind_callEffect a mf s

/-! ### Agreement after a command's step -/

theorem Agree.symm {s t : State} (h : Agree s t) : Agree t s := specified_eq_iff.mp h.specified_eq.symm

theorem Agree.trans {s t u : State} (h : Agree s t) (k : Agree t u) : Agree s u :=
  specified_eq_iff.mp (h.specified_eq.trans k.specified_eq)

theorem Agree.outcome {s t : State} (h : Agree s t) : sameOutcome (.next s) (.next t) := h.specified_eq

/-- An update that writes no register R37 leaves unspecified, and reads none, keeps agreement. -/
theorem Agree.map {s t : State} (h : Agree s t) (f : State → State) (hr : ∀ w, (f w).unwritten = f w.unwritten)
    (hw : SameWritten s t → SameWritten (f s) (f t)) : Agree (f s) (f t) :=
  ⟨by rw [hr, hr, h.rest], hw h.written⟩

theorem Blind.cases {st : FramerState} {a b : State} (h : Blind st a b) :
    (b.st = .respond ∧ Agree a b) ∨ (a.st = st ∧ a.unwritten = b.unwritten) := by
  cases h with
  | answers u c f p => exact .inl ⟨rfl, agree_respondWith (unwritten_unwritten u).symm c f p⟩
  | keeps _ h => exact .inr ⟨h, (unwritten_unwritten a).symm⟩

/-- Of two ends that go with one, both answer, or both leave the framer in `DISPATCH` with its registers unmoved. -/
theorem agree_of_blind {s t a a' b : State} (h : Agree s t) (hs : s.st = .dispatch) (ha : Blind s.st a b)
    (ha' : Blind t.st a' b) (hm : Unmoved s a) (hm' : Unmoved t a') : Agree a a' := by
  have ht : t.st = .dispatch := (eq_of_rest h.rest State.st fun _ => rfl) ▸ hs
  obtain ⟨hr, k⟩ | ⟨st, k⟩ := ha.cases <;> obtain ⟨hr', k'⟩ | ⟨st', k'⟩ := ha'.cases
  · exact k.trans k'.symm
  · have : a'.st = b.st := eq_of_rest k' State.st fun _ => rfl
    simp [hr, st', ht] at this
  · have : a.st = b.st := eq_of_rest k State.st fun _ => rfl
    simp [hr', st, hs] at this
  · have hw := h.written
    simp only [SameWritten, hs] at hw
    obtain ⟨hh, hp⟩ := hw
    refine ⟨k.trans k'.symm, ?_⟩
    simp only [SameWritten, st, hs]
    exact ⟨by rw [hm.hdr, hm'.hdr, hh], by simpa only [State.payload, hm.hdr, hm'.hdr, hm.rxbuf, hm'.rxbuf] using hp⟩

theorem exec_agree {s t : State} (h : Agree s t) (hs : s.st = .dispatch) (k : Cmd) (P : Bytes) :
    sameOutcome (exec (commandInstr k P) s) (exec (commandInstr k P) t) := by
  obtain ⟨a, b, ea, eb, ha⟩ := exec_blind k P s
  obtain ⟨a', b', ea', eb', ha'⟩ := exec_blind k P t
  rw [h.rest, eb'] at eb
  cases eb
  rw [ea, ea']
  exact (agree_of_blind h hs ha ha' (exec_next ea).1 (exec_next ea').1).outcome

/-- A request at the lookup engine's port reads the table and itself only (R130). -/
theorem request_agree {s t : State} (h : Agree s t) (r : TrackerRequest) :
    sameOutcome (exec (decodeRequest r) s) (exec (decodeRequest r) t) := by
  unfold decodeRequest
  split_ifs
  · exact (h.map (fun w => w.lookupAdd r.a r.sz) (fun _ => rfl) id).outcome
  · exact (h.map (fun w => w.lookupRemove r.a) (fun _ => rfl) id).outcome
  · exact (h.map (fun w => w.lookupContains r.a) (fun _ => rfl) id).outcome
  · exact (h.map (fun w => w.lookupValidate r.a.toNat r.sz.toNat) (fun _ => rfl) id).outcome

/-! ### The worker -/

theorem enables_of_rest {s t : State} (h : s.unwritten = t.unwritten) (i : Instr) : s.enables i = t.enables i :=
  eq_of_rest h (fun w => w.enables i) fun _ => rfl

theorem dispatch_agree {s t : State} (h : Agree s t) (hs : s.st = .dispatch) : sameOutcome s.dispatch t.dispatch := by
  have hw := h.written
  simp only [SameWritten, hs] at hw
  obtain ⟨hh, hp⟩ := hw
  have hcfg : s.cfg = t.cfg := eq_of_rest h.rest State.cfg fun _ => rfl
  unfold State.dispatch
  rw [← hcfg, ← hh, ← hp]
  cases hd : decodeCommand s.cfg.cmdIds s.hdr.cmd s.payload with
  | ok i =>
    obtain ⟨k, -, rfl⟩ := decodeCommand_ok hd
    dsimp only
    rw [← enables_of_rest h.rest]
    split
    · exact exec_agree h hs k s.payload
    · exact h.outcome
  | error e => exact (agree_reportError h.rest (congrArg Header.cmd hh) _).outcome

/-- A byte-consuming state waits, or takes the same byte. -/
theorem consume_agree {s t : State} (h : Agree s t) (hc : s.st.consumes = true) : sameOutcome s.framerStep t.framerStep := by
  have hst : s.st = t.st := eq_of_rest h.rest State.st fun _ => rfl
  have hq : s.q = t.q := eq_of_rest h.rest State.q fun _ => rfl
  cases hs : s.q with
  | nil =>
    rw [framer_wait hc hs, framer_wait (hst ▸ hc) (hq ▸ hs)]
    exact h.outcome
  | cons b rest =>
    rw [framer_take hc hs, framer_take (hst ▸ hc) (hq ▸ hs)]
    exact (agree_takeByte (h.map (fun w => { w with q := rest }) (fun _ => rfl) id) b).outcome

theorem framerStep_agree {s t : State} (h : Agree s t) : sameOutcome s.framerStep t.framerStep := by
  have hst : s.st = t.st := eq_of_rest h.rest State.st fun _ => rfl
  by_cases hc : s.st.consumes = true
  · exact consume_agree h hc
  unfold State.framerStep
  rw [← hst]
  cases hs : s.st <;> simp only [hs, FramerState.consumes, not_true_eq_false] at hc
  case verify => exact (agree_verifySum h hs).outcome
  case dispatch => exact dispatch_agree h hs
  case respond => exact (agree_finishResponse h hs).outcome

theorem workerStep_faulted {s : State} {f : MemFault} (h : s.why = some f) :
    s.workerStep = .fault (.memFault f.addr f.dir) := by
  simp [State.workerStep, h]

theorem workerStep_waits {s : State} (h : s.why = none) (hn : ¬(s.run = .running ∧ s.hung = none)) :
    s.workerStep = .next s := by
  simp only [State.workerStep, h, if_neg hn]

theorem workerStep_serves {s : State} {r : TrackerRequest} (h : s.why = none) (hr : s.run = .running ∧ s.hung = none)
    (hq : s.treq = some r) : s.workerStep = exec (decodeRequest r) { s with treq := none } := by
  simp only [State.workerStep, h, if_pos hr, hq]

theorem workerStep_agree {s t : State} (h : Agree s t) : sameOutcome s.workerStep t.workerStep := by
  have hwhy : t.why = s.why := eq_of_rest h.symm.rest State.why fun _ => rfl
  have hrun : t.run = s.run := eq_of_rest h.symm.rest State.run fun _ => rfl
  have hhung : t.hung = s.hung := eq_of_rest h.symm.rest State.hung fun _ => rfl
  have htreq : t.treq = s.treq := eq_of_rest h.symm.rest State.treq fun _ => rfl
  cases hw : s.why with
  | some f =>
    rw [workerStep_faulted hw, workerStep_faulted (hwhy.trans hw)]
    exact rfl
  | none =>
    by_cases hr : s.run = .running ∧ s.hung = none
    · have hr' : t.run = .running ∧ t.hung = none := ⟨hrun.trans hr.1, hhung.trans hr.2⟩
      cases hq : s.treq with
      | some r =>
        rw [workerStep_serves hw hr hq, workerStep_serves (hwhy.trans hw) hr' (htreq.trans hq)]
        exact request_agree (h.map (fun w => { w with treq := none }) (fun _ => rfl) id) r
      | none =>
        rw [workerStep_awake ⟨hr.1, hw, hr.2, hq⟩, workerStep_awake ⟨hr'.1, hwhy.trans hw, hr'.2, htreq.trans hq⟩]
        exact framerStep_agree h
    · have hr' : ¬(t.run = .running ∧ t.hung = none) := by rwa [hrun, hhung]
      rw [workerStep_waits hw hr, workerStep_waits (hwhy.trans hw) hr']
      exact h.outcome

/-! ### The other agents -/

theorem produce_agree {s t : State} (h : Agree s t) : Agree s.produce t.produce := by
  have hl : s.link = t.link := eq_of_rest h.rest State.link fun _ => rfl
  have hroom : s.queueRoom = t.queueRoom := eq_of_rest h.rest State.queueRoom fun _ => rfl
  cases hs : s.link with
  | nil =>
    have e : ∀ w : State, w.link = [] → w.produce = w := fun w hw => by simp [State.produce, hw]
    rw [e s hs, e t (hl ▸ hs)]
    exact h
  | cons b rest =>
    cases hr : s.queueRoom with
    | true =>
      rw [produce_append hs hr, produce_append (hl ▸ hs) (hroom ▸ hr)]
      exact h.map (fun w => { w with q := w.q ++ [b], link := rest }) (fun _ => rfl) id
    | false =>
      rw [produce_noRoom hs hr, produce_noRoom (hl ▸ hs) (hroom ▸ hr)]
      exact h.map (fun w => { w with
        link := if w.dropAnswer then rest else b :: rest
        ans := { w.ans with drops := w.ans.drops.tail }
        draws := w.draws + 1 }) (fun _ => rfl) id

theorem obtainBuffer_unwritten (s : State) (n : Word) : s.unwritten.obtainBuffer n = (s.obtainBuffer n).unwritten := by
  unfold State.obtainBuffer
  exact (apply_ite State.unwritten (s.bufferAnswer = true) (s.bufAlloc n .large)
    ((s.bufAlloc n .large).bufAlloc n .small)).symm

/-- A start's allocations leave the registers alone (R220). -/
theorem obtainBuffer_agree {s t : State} (h : Agree s t) (n : Word) : Agree (s.obtainBuffer n) (t.obtainBuffer n) := by
  refine ⟨by rw [← obtainBuffer_unwritten, ← obtainBuffer_unwritten, h.rest], ?_⟩
  rw [obtainBuffer_outside s n, obtainBuffer_outside t n]
  exact h.written

theorem boot_agree {s t : State} (h : Agree s t) : Agree s.boot t.boot := by
  have hcfg : s.cfg = t.cfg := eq_of_rest h.rest State.cfg fun _ => rfl
  have ho : ∀ {u v : State}, Agree u v → ∀ n, u.bufferObtained n = v.bufferObtained n := fun k n =>
    eq_of_rest k.rest (fun w => w.bufferObtained n) fun _ => rfl
  have h1 := obtainBuffer_agree h s.cfg.rxBufSize
  have h2 := obtainBuffer_agree h1 s.cfg.txBufSize
  unfold State.boot
  dsimp only
  rw [← hcfg, ← ho h, ← ho h1]
  split
  · exact ⟨eq_of_rest h2.rest (fun w => w.started.unwritten) fun _ => rfl, trivial⟩
  · exact h2.map (fun w => w.startFailed _ _) (fun _ => rfl) id

theorem start_running {s : State} (h : s.run = .running) : s.start = .next { s with startRes := .alreadyRunning } := by
  unfold State.start
  split <;> simp_all

theorem start_faulted {s : State} (h : s.run = .faulted) : s.start = .next { s with startRes := .notPossible } := by
  unfold State.start
  split <;> simp_all

theorem start_boots {s : State} (h : s.run = .idle ∨ s.run = .failed) :
    s.start = if configOk s.cfg then .next s.boot else .refused .badConfiguration := by
  unfold State.start
  rcases h with h | h <;> rw [h]

theorem start_agree {s t : State} (h : Agree s t) : sameOutcome s.start t.start := by
  have hrun : t.run = s.run := eq_of_rest h.symm.rest State.run fun _ => rfl
  have hcfg : t.cfg = s.cfg := eq_of_rest h.symm.rest State.cfg fun _ => rfl
  have hboot : s.run = .idle ∨ s.run = .failed → sameOutcome s.start t.start := fun hr => by
    rw [start_boots hr, start_boots (hrun ▸ hr), hcfg]
    split
    · exact (boot_agree h).outcome
    · exact rfl
  cases hr : s.run with
  | running =>
    rw [start_running hr, start_running (hrun.trans hr)]
    exact (h.map (fun w => { w with startRes := .alreadyRunning }) (fun _ => rfl) id).outcome
  | faulted =>
    rw [start_faulted hr, start_faulted (hrun.trans hr)]
    exact (h.map (fun w => { w with startRes := .notPossible }) (fun _ => rfl) id).outcome
  | idle => exact hboot (.inl hr)
  | failed => exact hboot (.inr hr)

theorem move_agree {s t : State} (h : Agree s t) (m : Turn) : sameOutcome (s.move m) (t.move m) := by
  cases m with
  | worker => exact workerStep_agree h
  | producer => exact (produce_agree h).outcome
  | hostSend b => exact (h.map (fun w => w.hostSends b) (fun _ => rfl) id).outcome
  | hostRecv => exact (h.map State.hostReads (fun _ => rfl) id).outcome
  | start => exact start_agree h
  | port p b => exact (h.map (fun w => w.setReady p b) (fun _ => rfl) id).outcome
  | powerOn w =>
    have e : s.powerOn w = t.powerOn w := eq_of_rest h.rest (fun u => u.powerOn w) fun _ => rfl
    exact congrArg State.specified e

/-! ### The choice of who moves -/

theorem framerReady_agree {s t : State} (h : Agree s t) : s.framerReady = t.framerReady := by
  have hst : s.st = t.st := eq_of_rest h.rest State.st fun _ => rfl
  have hq : s.q = t.q := eq_of_rest h.rest State.q fun _ => rfl
  have hcfg : s.cfg = t.cfg := eq_of_rest h.rest State.cfg fun _ => rfl
  have hw := h.written
  unfold State.framerReady
  unfold SameWritten at hw
  rw [← hst, ← hq, ← hcfg]
  cases hs : s.st <;> simp only [hs] at hw ⊢
  case dispatch => simp only [hw.1, hw.2, enables_of_rest h.rest]

theorem workerReady_agree {s t : State} (h : Agree s t) : s.workerReady = t.workerReady := by
  have hwhy : s.why = t.why := eq_of_rest h.rest State.why fun _ => rfl
  have hrun : s.run = t.run := eq_of_rest h.rest State.run fun _ => rfl
  have hhung : s.hung = t.hung := eq_of_rest h.rest State.hung fun _ => rfl
  have htreq : s.treq = t.treq := eq_of_rest h.rest State.treq fun _ => rfl
  simp only [State.workerReady, hwhy, hrun, hhung, htreq, framerReady_agree h]

theorem step_given {s : State} {m : Turn} {ms : List Turn} (h : s.turns = m :: ms) :
    step s = { s with turns := ms }.move m := by
  simp only [step, h]

/-- With no move given, the default picks the same agent in both (R199, R231). -/
theorem step_agree_open {s t : State} (h : Agree s t) (hs : s.turns = []) (ht : t.turns = []) :
    sameOutcome (step s) (step t) := by
  have hlink : t.link = s.link := eq_of_rest h.symm.rest State.link fun _ => rfl
  have hlead : t.lead = s.lead := eq_of_rest h.symm.rest State.lead fun _ => rfl
  have hdraws : t.draws = s.draws := eq_of_rest h.symm.rest State.draws fun _ => rfl
  have hready := workerReady_agree h.symm
  by_cases hl : s.link = []
  · rw [step_alone ⟨hs, hl⟩, step_alone ⟨ht, hlink.trans hl⟩]
    exact workerStep_agree h
  have hl' : t.link ≠ [] := hlink ▸ hl
  cases hr : s.workerReady with
  | false =>
    rw [step_unready hs hl hr, step_unready ht hl' (hready.trans hr)]
    exact (produce_agree h).outcome
  | true =>
    obtain ⟨n, hn, e⟩ | ⟨hz, e⟩ := step_ready hs hl hr <;>
      obtain ⟨m, hm, e'⟩ | ⟨hz', e'⟩ := step_ready ht hl' (hready.trans hr)
    · obtain rfl : m = n := by omega
      rw [e, e']
      exact (produce_agree (h.map (fun w => { w with lead := m }) (fun _ => rfl) id)).outcome
    · omega
    · omega
    · rw [e, e', hdraws]
      exact workerStep_agree
        (h.map (fun w => { w with lead := Config.freeLead s.draws, draws := s.draws + 1 }) (fun _ => rfl) id)

/-- Settles O4: states with one specified part agree on all that the choice of the agent and its move read, and every move
leaves them agreeing. -/
theorem unspecifiedRegistersAreNeverRead : Obligations.UnspecifiedRegistersAreNeverRead := by
  unfold Obligations.UnspecifiedRegistersAreNeverRead
  intro s t hspec
  have h := specified_eq_iff.mp hspec
  have hturns : t.turns = s.turns := eq_of_rest h.symm.rest State.turns fun _ => rfl
  cases hs : s.turns with
  | nil => exact step_agree_open h hs (hturns.trans hs)
  | cons m ms =>
    rw [step_given hs, step_given (hturns.trans hs)]
    exact move_agree (h.map (fun w => { w with turns := ms }) (fun _ => rfl) id) m

end Sys2Proof.Machine
end

section
/-! WRITEMEM and READMEM: what each step of a write does to device memory, what a completed write leaves there, and what
an instruction fetch then sees (R52, R58, R63, R64). -/

namespace Sys2Proof.Machine

/-! ### The bytes of a transfer, and the older contents that it leaves -/

theorem Memory.getD_readBytes (m : Memory) {a i n : Nat} (h : i < n) : (m.readBytes a n).getD i 0 = m.read (a + i) := by
  induction n generalizing a i with
  | zero => omega
  | succ n ih =>
    cases i with
    | zero => rfl
    | succ i =>
      have := ih (a := a + 1) (i := i) (by omega)
      rw [Memory.readBytes, List.getD_cons_succ, this]
      congr 1; omega

/-- Byte `i` of a transfer reads at its own address (R58). -/
theorem Memory.read_transfer {m : Memory} (h : m.wf) {a i : Nat} {D : Bytes} (ha : a + D.length ≤ max32 + 1)
    (hi : i < D.length) : (m.storeAll (addressed a D)).read (a + i) = D.getD i 0 := by
  rw [← Memory.getD_readBytes _ hi, Memory.readBytes_transfer h ha]

theorem mem_pastAdd_iff {c d : Host.Cell} {l : List Host.Cell} : d ∈ pastAdd c l ↔ d = c ∨ d ∈ l := by
  refine ⟨mem_pastAdd, ?_⟩
  rintro (rfl | h)
  · exact self_mem_pastAdd d l
  · exact mem_pastAdd_of_mem h

/-- A transfer stores once at each of its addresses, so what it overwrites there is the byte from before it (R64). -/
theorem mem_pastAll_addressed {m : Memory} {l : List Host.Cell} {a x : Nat} {D : Bytes} {b : Byte} :
    (x, b) ∈ pastAll m l (addressed a D) ↔ (x, b) ∈ l ∨ (a ≤ x ∧ x < a + D.length ∧ b = m.read x) := by
  induction D generalizing m l a with
  | nil =>
    simp only [addressed, pastAll, List.length_nil]
    exact (or_iff_left (by omega)).symm
  | cons c D ih =>
    simp only [addressed, pastAll, ih, mem_pastAdd_iff, Prod.mk.injEq, List.length_cons]
    by_cases hx : x = a
    · subst hx
      have h1 : ¬ x + 1 ≤ x := by omega
      have h2 : x < x + (D.length + 1) := by omega
      simp [h1, h2, or_comm]
    · have h1 : a + 1 ≤ x ↔ a ≤ x := by omega
      have h2 : a + 1 + D.length = a + (D.length + 1) := by omega
      simp [hx, h1, h2, Memory.read_write_other m c hx]

theorem mem_dirtyAll_addressed {l : List Nat} {a x : Nat} {D : Bytes} (h : a ≤ x ∧ x < a + D.length) :
    x ∈ dirtyAll l (addressed a D) := by
  induction D generalizing l a with
  | nil => simp only [List.length_nil] at h; omega
  | cons c D ih =>
    simp only [List.length_cons] at h
    by_cases hx : x = a
    · exact mem_dirtyAll.mpr (.inr ⟨(a, c), List.mem_cons_self, hx.symm⟩)
    · exact ih (by omega)

theorem State.fetchMaySee_iff {s : State} {x : Nat} {b : Byte} :
    s.fetchMaySee x b = true ↔ b = s.mem.read x ∨ (x ∈ s.dirty ∧ (x, b) ∈ s.past) := by
  simp only [State.fetchMaySee, Bool.or_eq_true, beq_iff_eq, Bool.and_eq_true, List.contains_iff_mem, eq_comm (a := b)]

/-- The aligned range covers the range that it was made from (R181). -/
theorem alignedRange_covers {a L S x : Nat} (hS : 1 ≤ S) (h : a ≤ x ∧ x < a + L) :
    (alignedRange a L S).1 ≤ x ∧ x < (alignedRange a L S).1 + (alignedRange a L S).2 := by
  have hfloor : lineFloor a S ≤ a := Nat.div_mul_le_self a S
  have hceil : a + L ≤ lineCeil (a + L) S := by
    have := Nat.div_add_mod' (a + L + (S - 1)) S
    have := Nat.mod_lt (a + L + (S - 1)) hS
    unfold lineCeil
    omega
  simp only [alignedRange]
  omega

theorem le32_injective {v w : Word} (h : le32 v = le32 w) : v = w := by
  rw [← rdLE32_le32 v [], h, rdLE32_le32]

theorem le32_eq_zeros {v : Word} : le32 v = [0, 0, 0, 0] ↔ v = 0 :=
  ⟨fun h => le32_injective (w := 0) h, fun h => h ▸ rfl⟩

theorem tpay_respondWith (s : State) (c f : Byte) (p : Bytes) : (s.respondWith c f p).tpay = p := by
  simp [State.tpay]

/-! ### WRITEMEM, step by step -/

/-- The state after a copy that is served. -/
def copiedState (f : WriteFields) (D : Bytes) (s : State) (r : TrackerResult) : State :=
  ({ s with tres := r }.memWrite f.address D).goOn .written

/-- The ways in which one step of a WRITEMEM with a full payload can end (R156): its range is not admitted, its transfer
faults, its bytes are copied, the line size becomes known, or the sync is done and answered. -/
inductive WriteStep (f : WriteFields) (D : Bytes) (s : State) : State → Prop
  | rejected (phase : s.phase = .fresh ∨ ∃ a, s.phase = .release a)
      (admits : s.admits f.mflags f.address.toNat D.length = false) (r : TrackerResult) :
      WriteStep f D s ({ s with tres := r }.fail .writeMem .invalidAddr)
  | faulted (phase : s.phase = .fresh ∨ ∃ a, s.phase = .release a)
      (admits : s.admits f.mflags f.address.toNat D.length = true)
      (faults : s.memFaults f.address D.length = true) (r : TrackerResult) :
      WriteStep f D s ({ s with tres := r }.memAbort f.address .write D.length)
  | copied (phase : s.phase = .fresh ∨ ∃ a, s.phase = .release a)
      (admits : s.admits f.mflags f.address.toNat D.length = true)
      (served : s.memFaults f.address D.length = false) (r : TrackerResult) : WriteStep f D s (copiedState f D s r)
  | learned (phase : s.phase = .written) : WriteStep f D s s.learnLine
  | finished (S : Word) (phase : s.phase = .lineKnown S) : WriteStep f D s (finishWrite f.address D S s)

section
variable {f : WriteFields} {D : Bytes} {s t : State}

theorem checkedWrite_step (phase : s.phase = .fresh ∨ ∃ a, s.phase = .release a) :
    WriteStep f D s (checkedWrite f D s) := by
  obtain ⟨r, ⟨ha, e⟩ | ⟨ha, hm, e⟩ | ⟨ha, hm, e⟩⟩ := checkedWrite_cases f D s <;> rw [e]
  · exact .rejected phase ha r
  · exact .faulted phase ha hm r
  · exact .copied phase ha hm r

theorem exec_writeMem_step (h : exec (.writeMem (.full f D)) s = .next t) : WriteStep f D s t := by
  obtain rfl : writeMemEffect (.full f D) s = t := by injection h
  unfold writeMemEffect
  dsimp only
  split
  next hp => exact checkedWrite_step (.inl hp)
  next a hp => exact checkedWrite_step (.inr ⟨a, hp⟩)
  next hp => exact .learned hp
  next S hp => exact .finished S hp

/-- The response register holds a success (R75, R150). -/
def State.Succeeded (s : State) : Prop :=
  s.st = .respond ∧ s.tflags = flagsOk

theorem not_succeeded_of_dispatch (h : s.st = .dispatch) : ¬s.Succeeded := by
  rintro ⟨hr, -⟩
  rw [h] at hr
  cases hr

theorem not_succeeded_fail (s : State) (k : Cmd) (e : ErrCode) : ¬(s.fail k e).Succeeded := fun h =>
  absurd h.2 (show flagsError ≠ flagsOk by decide)

/-- Only the sync's step makes a WRITEMEM succeed (R156, R182). -/
theorem WriteStep.lineKnown_of_succeeded (h : WriteStep f D s t) (hs : ¬s.Succeeded) (ht : t.Succeeded) :
    ∃ S, s.phase = .lineKnown S := by
  cases h with
  | rejected phase admits r => exact absurd ht (not_succeeded_fail _ _ _)
  | faulted phase admits faults r => exact absurd ht hs
  | copied phase admits served r => exact absurd ht hs
  | learned phase => exact absurd ht hs
  | finished S phase => exact ⟨S, phase⟩

/-- A step that does not end after the copy leaves device memory as it was (R58). -/
theorem WriteStep.mem_eq (h : WriteStep f D s t) (ht : t.phase ≠ .written) : t.mem = s.mem := by
  cases h with
  | rejected phase admits r => rfl
  | faulted phase admits faults r => rfl
  | copied phase admits served r => exact absurd rfl ht
  | learned phase => rfl
  | finished S phase => rfl

/-- A step that ends after the copy has stored the data within the address space (R58). -/
theorem WriteStep.mem_of_written (h : WriteStep f D s t) (ht : t.phase = .written) :
    t.mem = s.mem.storeAll (addressed f.address.toNat D) ∧ f.address.toNat + D.length ≤ max32 + 1 := by
  cases h with
  | rejected phase admits r => cases ht
  | faulted phase admits faults r => cases ht
  | copied phase admits served r => exact ⟨rfl, memFaults_false served⟩
  | learned phase => cases ht
  | finished S phase => cases ht

/-! ### A WRITEMEM from its first step to its response -/

/-- A step from the start of a WRITEMEM ends the command or copies the data (R156). -/
theorem WriteStep.of_fresh (h : WriteStep f D s t) (hp : s.phase = .fresh) :
    t.phase = .fresh ∨ (s.memFaults f.address D.length = false ∧ ∃ r, t = copiedState f D s r) := by
  cases h with
  | rejected phase admits r => exact .inl rfl
  | faulted phase admits faults r => exact .inl rfl
  | copied phase admits served r => exact .inr ⟨served, r, rfl⟩
  | learned phase => rw [phase] at hp; cases hp
  | finished S phase => rw [phase] at hp; cases hp

/-- No step from the start of a WRITEMEM makes it succeed: the sync is yet to come (R156). -/
theorem WriteStep.not_succeeded_of_fresh (h : WriteStep f D s t) (hs : ¬s.Succeeded) (hp : s.phase = .fresh) :
    ¬t.Succeeded := fun ht => by
  obtain ⟨S, e⟩ := h.lineKnown_of_succeeded hs ht
  rw [hp] at e
  cases e

/-- The three steps of a WRITEMEM that succeeds: the copy, the line-size query, and the sync with its response (R156). A
first step that does not copy leaves the command at its start, too far from the sync. -/
theorem execFor_writeMem_succeeded (hs : s.st = .dispatch) (hp : s.phase = .fresh)
    (h : execFor 3 (.writeMem (.full f D)) s = .next t) (ht : t.Succeeded) :
    f.address.toNat + D.length ≤ max32 + 1 ∧ ∃ r,
      t = finishWrite f.address D (copiedState f D s r).effectiveLine (copiedState f D s r).learnLine := by
  obtain ⟨u, hu, -⟩ := exec_cases (.writeMem (.full f D)) s
  obtain ⟨v, hv, -⟩ := exec_cases (.writeMem (.full f D)) u
  obtain ⟨w, hw, -⟩ := exec_cases (.writeMem (.full f D)) v
  rw [execFor_succ 2 _ hu, execFor_succ 1 _ hv, execFor_succ 0 _ hw] at h
  obtain rfl : w = t := by injection h
  have first := exec_writeMem_step hu
  have second := exec_writeMem_step hv
  have third := exec_writeMem_step hw
  rcases first.of_fresh hp with hup | ⟨hm, r, rfl⟩
  · have hu' := first.not_succeeded_of_fresh (not_succeeded_of_dispatch hs) hp
    have hv' := second.not_succeeded_of_fresh hu' hup
    obtain ⟨S, hS⟩ := third.lineKnown_of_succeeded hv' ht
    rcases second.of_fresh hup with e | ⟨-, r, rfl⟩
    · rw [e] at hS; cases hS
    · cases hS
  · obtain rfl : (copiedState f D s r).learnLine = v := by injection hv
    injection hw with hw
    exact ⟨memFaults_false hm, r, hw.symm⟩

/-- The bytes of a READMEM that succeeds are those of device memory (R157). -/
theorem exec_readMem_succeeded {g : ReadFields} {x : Bytes} (hs : s.st = .dispatch)
    (h : exec (.readMem (.full g x)) s = .next t) (ht : t.Succeeded) :
    t.tpay = s.mem.readBytes g.address.toNat g.size.toNat := by
  obtain rfl : readMemEffect (.full g x) s = t := by injection h
  obtain ⟨-, e⟩ | ⟨-, r, ⟨-, e⟩ | ⟨-, -, e⟩ | ⟨-, -, e⟩⟩ := readMemEffect_cases g x s <;> rw [e] at ht ⊢
  · exact absurd ht (not_succeeded_fail _ _ _)
  · exact absurd ht (not_succeeded_fail _ _ _)
  · exact absurd ht (not_succeeded_of_dispatch hs)
  · exact tpay_respondWith _ _ _ _

/-! ### What an instruction fetch sees after the write -/

/-- The last four bytes of a successful WRITEMEM's payload are the sync's status (R156). -/
theorem status_finishWrite (a : Word) (D : Bytes) (S : Word) (s : State) :
    (finishWrite a D S s).tpay.drop 4 = le32 ((syncStatus s.syncAnswer).code s.cfg.errCodes) := by
  rw [finishWrite, State.succeed_eq, tpay_respondWith]
  exact List.drop_left' (length_le32 _)

/-- After the sync a fetch may see what stands in memory; an older byte where a store is without a good sync, unless this
one is good and its aligned range covers the address (R64, R182). -/
theorem fetchMaySee_finishWrite (a : Word) (D : Bytes) {S : Word} (s : State) {x : Nat} {b : Byte} (hS : 1 ≤ S.toNat)
    (hx : a.toNat ≤ x ∧ x < a.toNat + D.length) :
    (finishWrite a D S s).fetchMaySee x b = true ↔
      b = s.mem.read x ∨ (s.syncAnswer = false ∧ x ∈ s.dirty ∧ (x, b) ∈ s.past) := by
  have hcover := alignedRange_covers hS hx
  rw [State.fetchMaySee_iff]
  simp only [finishWrite, State.succeed_eq, State.respondWith_mem, State.respondWith_dirty, State.respondWith_past,
    State.syncLines_eq, State.callSync_mem, State.callSync_dirty, State.callSync_past]
  cases s.syncAnswer with
  | true => simp [mem_dirtyDrop, hcover]
  | false => simp

/-- The copy and the line-size query leave in the range the data, as its older contents the bytes from before, and every
address without a good sync (R64). -/
theorem fetchView_copied (hwf : s.mem.wf) (hfit : f.address.toNat + D.length ≤ max32 + 1) {x : Nat} {b : Byte}
    (hx : f.address.toNat ≤ x ∧ x < f.address.toNat + D.length) (r : TrackerResult) :
    (copiedState f D s r).learnLine.mem.read x = D.getD (x - f.address.toNat) 0 ∧
    x ∈ (copiedState f D s r).learnLine.dirty ∧
    ((x, b) ∈ (copiedState f D s r).learnLine.past ↔ b = s.mem.read x ∨ (x, b) ∈ s.past) := by
  refine ⟨?_, mem_dirtyAll_addressed hx, mem_pastAll_addressed.trans (by simp [hx, or_comm])⟩
  have h := Memory.read_transfer hwf hfit (show x - f.address.toNat < D.length by omega)
  rwa [Nat.add_sub_cancel' hx.1] at h

end

/-! ### The statements -/

/-- Settles O48: by whether the step ends after the copy; only a copy stores, and it stores the data at its addresses. -/
theorem writeMemWritesItsRangeOnly : Obligations.WriteMemWritesItsRangeOnly := by
  unfold Obligations.WriteMemWritesItsRangeOnly
  intro s t f D hwf hs h
  have hstep := exec_writeMem_step h
  obtain ⟨hsame, -⟩ := exec_next h
  have htable : t.table = s.table := by
    obtain rfl : writeMemEffect (.full f D) s = t := by injection h
    exact writeMemEffect_table _ s
  refine ⟨fun x hx => ?_, fun ht i hi => ?_, hstep.mem_eq,
    fun hr hf => hstep.lineKnown_of_succeeded (not_succeeded_of_dispatch hs) ⟨hr, hf⟩, htable, hsame.cfg, hsame.q,
    hsame.out, hsame.hdr, hsame.rxbuf⟩
  · by_cases ht : t.phase = .written
    · rw [(hstep.mem_of_written ht).1, Memory.read_transfer_other _ hx]
    · rw [hstep.mem_eq ht]
  · obtain ⟨hmem, hfit⟩ := hstep.mem_of_written ht
    rw [hmem, Memory.read_transfer hwf hfit hi]

/-- Settles O52: a write that succeeds has stored the data, and a read that succeeds answers what stands there. -/
theorem readAfterWriteAnswersTheData : Obligations.ReadAfterWriteAnswersTheData := by
  unfold Obligations.ReadAfterWriteAnswersTheData
  intro s t u v f g D x hwf hs hp hrun hr hf hmem hu hga hgs hread hvr hvf
  obtain ⟨hfit, r, rfl⟩ := execFor_writeMem_succeeded hs hp hrun ⟨hr, hf⟩
  have hstored : u.mem = s.mem.storeAll (addressed f.address.toNat D) := hmem
  rw [exec_readMem_succeeded hu hread ⟨hvr, hvf⟩, hstored, hga, hgs, Memory.readBytes_transfer hwf hfit]

/-- Settles O53: the write leaves its range's older contents in `past` and its addresses without a good sync; the status tells
whether its own sync, whose range covers them, was good. -/
theorem fetchCoherenceFollowsTheSync : Obligations.FetchCoherenceFollowsTheSync := by
  unfold Obligations.FetchCoherenceFollowsTheSync
  intro s t f D hwf hline herr hs hp hrun hr hf x b hlo hhi
  obtain ⟨hfit, r, rfl⟩ := execFor_writeMem_succeeded hs hp hrun ⟨hr, hf⟩
  have hS : 1 ≤ (copiedState f D s r).effectiveLine.toNat := one_le_effectiveLine hline
  obtain ⟨hread, hdirty, hpast⟩ := fetchView_copied hwf hfit (b := b) ⟨hlo, hhi⟩ r
  have hcfg : (copiedState f D s r).learnLine.cfg = s.cfg := by simp [copiedState]
  rw [fetchMaySee_finishWrite _ _ _ hS ⟨hlo, hhi⟩, status_finishWrite, hread, hpast, hcfg]
  cases (copiedState f D s r).learnLine.syncAnswer with
  | true =>
    exact ⟨fun _ => by simp, fun h => absurd (le32_injective h).symm herr⟩
  | false =>
    refine ⟨fun h => absurd (le32_eq_zeros.mp h) herr, fun _ => ?_⟩
    simp only [hdirty, true_and]

end Sys2Proof.Machine
end

section
/-! The port transactions of a command: at most one in a step, on the port that the step waits for, and of a kind that is the
command's own (R12, R54 to R58, R62). -/

namespace Sys2Proof.Machine

/-! ### What a step adds to the log -/

/-- The transactions that a step from `s` to `t` can make, instruction by instruction, with the point of the command at which
it makes them (R153 to R159, R182). -/
inductive Makes (s t : State) : Instr → PortTxn → Prop
  | alloc {o : Form AllocFields} {n c m a : Word} : Makes s t (.alloc o) (.alloc n c m a)
  | allocFree {o : Form AllocFields} {a : Word} : Makes s t (.alloc o) (.free a)
  | free {o : Form FreeFields} {a : Word} : Makes s t (.free o) (.free a)
  | memWrite {o : Form WriteFields} {a : Word} {D : Bytes} (phase : t.phase = .written) (st : t.st = s.st) :
      Makes s t (.writeMem o) (.memWrite a D)
  | writeFault {o : Form WriteFields} {a : Word} {n : Nat} (st : t.st = s.st) :
      Makes s t (.writeMem o) (.memFault a .write n)
  | writeLine {o : Form WriteFields} {q : Option Word} (phase : s.phase = .written) (st : t.st = s.st) :
      Makes s t (.writeMem o) (.lineSize q)
  | sync {o : Form WriteFields} {a n : Nat} {ok : Bool} {S : Word} (phase : s.phase = .lineKnown S) :
      Makes s t (.writeMem o) (.sync a n ok)
  | memRead {o : Form ReadFields} {a : Word} {D : Bytes} : Makes s t (.readMem o) (.memRead a D)
  | readFault {o : Form ReadFields} {a : Word} {n : Nat} : Makes s t (.readMem o) (.memFault a .read n)
  | infoLine {b : Bytes} {q : Option Word} : Makes s t (.getInfo b) (.lineSize q)
  | execCall {o : ExecForm} {a : Word} {r : Option Word} : Makes s t (.exec o) (.execCall a r)
  | heapInfo {b : Bytes} {h : HeapCounters} : Makes s t (.heapInfo b) (.heapInfo h)

/-- What one step of an instruction adds to the log: nothing, where it waits for no port and no WRITEMEM succeeds, or one
transaction on the port that it waits for. -/
inductive LogEffect (i : Instr) (s t : State) : Prop
  | silent (port : nextPort i s = none) (log : t.log = s.log) (quiet : ∀ o, i = .writeMem o → ¬t.Succeeded)
  | one (x : PortTxn) (log : t.log = s.log ++ [x]) (port : nextPort i s = x.port) (kind : Makes s t i x)

/-! ### Command by command -/

theorem requestAllocation_log {f : AllocFields} {x : Bytes} {s : State}
    (port : allocPort (.full f x) s = if goodAlignment f.alignment then some .allocator else none) :
    LogEffect (.alloc (.full f x)) s (requestAllocation f s) := by
  obtain ⟨hg, e⟩ | ⟨hg, -, e⟩ | ⟨hg, -, -, e⟩ | ⟨hg, -, -, e⟩ := requestAllocation_cases f s <;>
    rw [hg] at port <;> rw [e]
  · exact .silent port rfl (by simp)
  all_goals exact .one _ rfl port .alloc

theorem allocEffect_log (o : Form AllocFields) (s : State) : LogEffect (.alloc o) s (allocEffect o s) := by
  cases o with
  | short raw => exact .silent rfl rfl (by simp)
  | full f x =>
    unfold allocEffect
    dsimp only
    split
    next a hp => exact .one _ rfl (by simp [nextPort, allocPort, hp, PortTxn.port]) .allocFree
    all_goals exact requestAllocation_log (by simp [allocPort, *])

theorem untrack_log {a : Word} {x : Bytes} {f : FreeFields} {s : State} (port : freePort (.full f x) s = none) :
    LogEffect (.free (.full f x)) s (untrack a s) := by
  obtain ⟨-, e⟩ | ⟨-, e⟩ := untrack_cases a s <;> rw [e] <;> exact .silent port rfl (by simp)

theorem freeEffect_log (o : Form FreeFields) (s : State) : LogEffect (.free o) s (freeEffect o s) := by
  cases o with
  | short raw => exact .silent rfl rfl (by simp)
  | full f x =>
    unfold freeEffect
    dsimp only
    split
    next a hp => exact .one _ rfl (by simp [nextPort, freePort, hp, PortTxn.port]) .free
    all_goals exact untrack_log (by simp [freePort, *])

/-- WRITEMEM's checks and copy wait for memory where the range is admitted, and else for nothing (R156). -/
theorem writePort_of_checks {f : WriteFields} {D : Bytes} {s : State}
    (h : s.phase = .fresh ∨ ∃ a, s.phase = .release a) :
    writePort (.full f D) s = if s.admits f.mflags f.address.toNat D.length then some .memory else none := by
  obtain h | ⟨a, h⟩ := h <;> simp [writePort, h]

theorem writeMem_log {f : WriteFields} {D : Bytes} {s t : State} (h : WriteStep f D s t) :
    LogEffect (.writeMem (.full f D)) s t := by
  cases h with
  | rejected phase admits r =>
    exact .silent ((writePort_of_checks phase).trans (by simp [admits])) rfl fun _ _ => not_succeeded_fail _ _ _
  | faulted phase admits faults r =>
    exact .one _ rfl ((writePort_of_checks phase).trans (by simp [admits, PortTxn.port])) (.writeFault rfl)
  | copied phase admits served r =>
    exact .one _ rfl ((writePort_of_checks phase).trans (by simp [admits, PortTxn.port])) (.memWrite rfl rfl)
  | learned phase => exact .one _ rfl (by simp [nextPort, writePort, phase, PortTxn.port]) (.writeLine phase rfl)
  | finished S phase => exact .one _ rfl (by simp [nextPort, writePort, phase, PortTxn.port]) (.sync phase)

theorem writeMemEffect_log (o : Form WriteFields) (s : State) : LogEffect (.writeMem o) s (writeMemEffect o s) := by
  cases o with
  | short raw => exact .silent rfl rfl fun _ _ => not_succeeded_fail _ _ _
  | full f D => exact writeMem_log (exec_writeMem_step rfl)

theorem readMemEffect_log (o : Form ReadFields) (s : State) : LogEffect (.readMem o) s (readMemEffect o s) := by
  cases o with
  | short raw => exact .silent rfl rfl (by simp)
  | full f x =>
    obtain ⟨hm, e⟩ | ⟨hm, r, ⟨ha, e⟩ | ⟨ha, -, e⟩ | ⟨ha, -, e⟩⟩ := readMemEffect_cases f x s <;> rw [e]
    · exact .silent (by simp [nextPort, readPort, hm]) rfl (by simp)
    · exact .silent (by simp [nextPort, readPort, ha]) rfl (by simp)
    · exact .one _ rfl (by simp [nextPort, readPort, hm, ha, PortTxn.port]) .readFault
    · exact .one _ rfl (by simp [nextPort, readPort, hm, ha, PortTxn.port]) .memRead

theorem callEffect_log {o : ExecForm} {a : Word} {mf : Byte} {s : State} (port : execPort o s = callPort a mf s) :
    LogEffect (.exec o) s (callEffect a mf s) := by
  obtain ⟨r, ⟨ha, e⟩ | ⟨ha, v, w, -, e⟩ | ⟨ha, -, e⟩⟩ := callEffect_cases a mf s <;> rw [e] <;>
    rw [callPort, ha] at port
  · exact .silent port rfl (by simp)
  · exact .one _ rfl port .execCall
  · exact .one _ rfl port .execCall

/-- What one step of each instruction adds to the log. -/
theorem exec_log {i : Instr} {s t : State} (h : exec i s = .next t) : LogEffect i s t := by
  cases i with
  | ping data => cases h; exact .silent rfl rfl (by simp)
  | getInfo body => cases h; exact .one _ rfl rfl .infoLine
  | heapInfo body => cases h; exact .one _ rfl rfl .heapInfo
  | alloc o => cases h; exact allocEffect_log o s
  | free o => cases h; exact freeEffect_log o s
  | writeMem o => cases h; exact writeMemEffect_log o s
  | readMem o => cases h; exact readMemEffect_log o s
  | exec o =>
    cases h
    cases o with
    | short raw => exact .silent rfl rfl (by simp)
    | bare a => exact callEffect_log rfl
    | flagged a mf x => exact callEffect_log rfl
  | trackerAdd a sz => cases h; exact .silent rfl rfl (by simp)
  | trackerRemove a => cases h; exact .silent rfl rfl (by simp)
  | trackerContains a => cases h; exact .silent rfl rfl (by simp)
  | trackerValidate a sz => cases h; exact .silent rfl rfl (by simp)

theorem Makes.port_isSome {s t : State} {i : Instr} {x : PortTxn} (h : Makes s t i x) : ∃ p, x.port = some p := by
  cases h <;> exact ⟨_, rfl⟩

/-! ### The statement -/

/-- Settles O56: a silent step adds nothing to the log; another adds one transaction, whose kind tells the command. -/
theorem eachCommandUsesItsOwnPorts : Obligations.EachCommandUsesItsOwnPorts := by
  unfold Obligations.EachCommandUsesItsOwnPorts
  intro i s t h
  cases exec_log h with
  | silent port log quiet =>
    refine ⟨[], by simp [log], fun _ => rfl, by simp [port], ?_⟩
    simp only [List.not_mem_nil, false_implies, implies_true, true_and]
    exact fun o hi _ hr hf => absurd ⟨hr, hf⟩ (quiet o hi)
  | one y log port kind =>
    obtain ⟨p, hp⟩ := kind.port_isSome
    refine ⟨[y], log, by simp [port, hp], fun q hq => ⟨y, rfl, port ▸ hq⟩, ?_⟩
    simp only [List.mem_singleton, forall_eq]
    refine ⟨?_, ?_, ?_, ?_, ?_, ?_, ?_, ?_, ?_, ?_, ?_, ?_⟩
    · rintro a D rfl; cases kind with | memWrite phase => exact ⟨⟨_, rfl⟩, phase⟩
    · rintro a n rfl; cases kind with | writeFault => exact ⟨_, rfl⟩
    · rintro a D rfl; cases kind with | memRead => exact ⟨_, rfl⟩
    · rintro a n rfl; cases kind with | readFault => exact ⟨_, rfl⟩
    · rintro q rfl
      cases kind with
      | infoLine => exact .inl ⟨_, rfl⟩
      | writeLine phase => exact .inr ⟨⟨_, rfl⟩, phase⟩
    · rintro a n ok rfl; cases kind with | sync phase => exact ⟨⟨_, rfl⟩, _, phase⟩
    · rintro n c m a rfl; cases kind with | alloc => exact ⟨_, rfl⟩
    · rintro a rfl
      cases kind with
      | allocFree => exact .inl ⟨_, rfl⟩
      | free => exact .inr ⟨_, rfl⟩
    · rintro a r rfl; cases kind with | execCall => exact ⟨_, rfl⟩
    · rintro c rfl; cases kind with | heapInfo => exact ⟨_, rfl⟩
    · refine fun n p ok => ⟨?_, ?_⟩ <;> rintro rfl <;> cases kind
    · rintro o rfl hs hr -
      cases kind with
      | memWrite phase st => rw [st, hs] at hr; cases hr
      | writeFault st => rw [st, hs] at hr; cases hr
      | writeLine phase st => rw [st, hs] at hr; cases hr
      | sync phase => exact ⟨_, _, _, rfl⟩

end Sys2Proof.Machine
end

section
/-! The request encodings: every operand form and every request reads back from what the encoder writes, so that `decode`
undoes `encode` and a packet read from the wire is the command that was written (R70 to R84, R93). -/

namespace Sys2Proof

/-! ### Operand forms (R79 to R83) -/

/-- ALLOC's fields read back from its payload (R79). -/
theorem allocForm_allocBytes {o : Form AllocFields} (h : o.shortOk 12 = true) : allocForm (allocBytes o) = o := by
  cases o with
  | short raw => exact if_pos (of_decide_eq_true h)
  | full f rest =>
    have size : rdLE32 (allocBytes (.full f rest)) 0 = f.size := rdLE32_le32 f.size _
    have caps : rdLE32 (allocBytes (.full f rest)) 4 = f.caps := rdLE32_at (le32 f.size) f.caps _
    have alignment : rdLE32 (allocBytes (.full f rest)) 8 = f.alignment :=
      rdLE32_at (le32 f.size ++ le32 f.caps) f.alignment rest
    rw [allocForm, size, caps, alignment, if_neg (by simp [allocBytes, Cmd.fixedLen]; omega)]
    rfl

/-- FREE's field reads back from its payload (R80). -/
theorem freeForm_freeBytes {o : Form FreeFields} (h : o.shortOk 4 = true) : freeForm (freeBytes o) = o := by
  cases o with
  | short raw => exact if_pos (of_decide_eq_true h)
  | full f rest =>
    have address : rdLE32 (freeBytes (.full f rest)) 0 = f.address := rdLE32_le32 f.address rest
    rw [freeForm, address, if_neg (by simp [freeBytes, Cmd.fixedLen])]
    rfl

/-- WRITEMEM's fields and data read back from its payload (R81). -/
theorem writeForm_writeBytes {o : Form WriteFields} (h : o.shortOk 8 = true) : writeForm (writeBytes o) = o := by
  cases o with
  | short raw => exact if_pos (of_decide_eq_true h)
  | full f rest =>
    have address : rdLE32 (writeBytes (.full f rest)) 0 = f.address := rdLE32_le32 f.address _
    rw [writeForm, address, if_neg (by simp [writeBytes, Cmd.fixedLen]; omega)]
    rfl

/-- READMEM's fields read back from its payload (R82). -/
theorem readForm_readBytes {o : Form ReadFields} (h : o.shortOk 12 = true) : readForm (readBytes o) = o := by
  cases o with
  | short raw => exact if_pos (of_decide_eq_true h)
  | full f rest =>
    have address : rdLE32 (readBytes (.full f rest)) 0 = f.address := rdLE32_le32 f.address _
    have size : rdLE32 (readBytes (.full f rest)) 4 = f.size := rdLE32_at (le32 f.address) f.size _
    rw [readForm, address, size, if_neg (by simp [readBytes, Cmd.fixedLen]; omega)]
    rfl

/-- EXEC's address, its flags byte and the bytes after it read back from its payload (R83). -/
theorem execForm_execBytes {o : ExecForm} (h : o.shortOk = true) : execForm (execBytes o) = o := by
  cases o with
  | short raw => exact if_pos (of_decide_eq_true h)
  | bare a => exact congrArg ExecForm.bare (rdLE32_le32 a [])
  | flagged a mf rest =>
    have address : rdLE32 (execBytes (.flagged a mf rest)) 0 = a := rdLE32_le32 a _
    rw [execForm, address, if_neg (by simp [execBytes, Cmd.fixedLen]), if_neg (by simp [execBytes])]
    rfl

/-- Settles O28: each form reads back from the payload that the encoder writes for it. -/
theorem operandFieldsStandWhereTheTablesSay : Obligations.OperandFieldsStandWhereTheTablesSay := by
  unfold Obligations.OperandFieldsStandWhereTheTablesSay
  refine ⟨fun P h => ⟨if_pos h, if_pos h⟩, fun P h => if_pos h, fun P h => ⟨if_pos h, if_pos h⟩, ?_, ?_, ?_, ?_, ?_, ?_⟩
  · exact fun u v w rest => allocForm_allocBytes (o := .full ⟨u, v, w⟩ rest) rfl
  · exact fun u rest => freeForm_freeBytes (o := .full ⟨u⟩ rest) rfl
  · exact fun u m p0 p1 p2 rest => writeForm_writeBytes (o := .full ⟨u, m, p0, p1, p2⟩ rest) rfl
  · exact fun u v m p0 p1 p2 rest => readForm_readBytes (o := .full ⟨u, v, m, p0, p1, p2⟩ rest) rfl
  · exact fun u => execForm_execBytes (o := .bare u) rfl
  · exact fun u m rest => execForm_execBytes (o := .flagged u m rest) rfl

/-! ### Instructions -/

/-- How the encoder writes an instruction that `decode` gives back: a command as its id and the payload it is read from, or a
request of the lookup engine as the port carries it. -/
inductive Carries (ids : CmdIds) (i : Instr) : Encoded → Prop
  | packet (k : Cmd) (P : Bytes) (instr : commandInstr k P = i) (length : P.length = i.payloadLen) :
      Carries ids i (.packet (cmdId ids k) 0 P)
  | request (r : TrackerRequest) (instr : decodeRequest r = i) : Carries ids i (.request r)

/-- Every instruction with well-formed operand forms is written so that it reads back. -/
theorem encode_carries (ids : CmdIds) {i : Instr} (h : i.formsOk = true) : Carries ids i (encode ids i) := by
  cases i with
  | ping d => exact .packet .ping d rfl rfl
  | getInfo b => exact .packet .getInfo b rfl rfl
  | heapInfo b => exact .packet .heapInfo b rfl rfl
  | alloc o =>
    exact .packet .alloc _ (congrArg Instr.alloc (allocForm_allocBytes h)) (Laws.EncodedLength.alloc o ids _ _ _ rfl)
  | free o =>
    exact .packet .free _ (congrArg Instr.free (freeForm_freeBytes h)) (Laws.EncodedLength.free o ids _ _ _ rfl)
  | writeMem o =>
    exact .packet .writeMem _ (congrArg Instr.writeMem (writeForm_writeBytes h))
      (Laws.EncodedLength.writeMem o ids _ _ _ rfl)
  | readMem o =>
    exact .packet .readMem _ (congrArg Instr.readMem (readForm_readBytes h))
      (Laws.EncodedLength.readMem o ids _ _ _ rfl)
  | exec o =>
    exact .packet .exec _ (congrArg Instr.exec (execForm_execBytes h)) (Laws.EncodedLength.exec o ids _ _ _ rfl)
  | trackerAdd a sz => exact .request ⟨0b00#2, a, sz⟩ rfl
  | trackerRemove a => exact .request ⟨0b01#2, a, 0⟩ rfl
  | trackerContains a => exact .request ⟨0b10#2, a, 0⟩ rfl
  | trackerValidate a sz => exact .request ⟨0b11#2, a, sz⟩ rfl

theorem Instr.formsOk_of_wf {i : Instr} (h : i.wf = true) : i.formsOk = true := (Bool.and_eq_true_iff.mp h).1

theorem Carries.decode_eq {ids : CmdIds} {i : Instr} {e : Encoded} (h : Carries ids i e) (hids : ids.distinct = true) :
    decode ids e = .ok i := by
  cases h with
  | packet k P instr _ => exact instr ▸ decodeCommand_cmdId hids k P
  | request r instr => exact congrArg Except.ok instr

/-- Settles O25: the encoder writes the command's id and a payload that its forms read back, or the lookup engine's request. -/
theorem decodeInvertsEncode : Obligations.DecodeInvertsEncode := by
  unfold Obligations.DecodeInvertsEncode
  exact fun ids i hids hwf => (encode_carries ids (Instr.formsOk_of_wf hwf)).decode_eq hids

/-! ### Packets on the wire (R70 to R72, R90) -/

/-- A packet written on the wire is read as its command and payload, and the bytes after it are left (R70, R72, R90). -/
theorem decodeBytes_packetBytes {cfg : Config} {m : Nat} {c f : Byte} {P : Bytes} {i : Instr} (rest : Bytes)
    (hm : P.length ≤ m) (hmax : P.length ≤ max32) (hi : decodeCommand cfg.cmdIds c P = .ok i) :
    decodeBytes cfg m (packetBytes cfg c f P ++ rest) = .ok (i, rest) := by
  have hn : (BitVec.ofNat 32 P.length).toNat = P.length := by
    rw [BitVec.toNat_ofNat, Nat.mod_eq_of_lt (by unfold max32 at hmax; omega)]
  generalize hs : csum (coveredBytes cfg (headerBytes c f P.length ++ P)) = sum
  have hp : packetBytes cfg c f P ++ rest =
      [cfg.magic0, cfg.magic1] ++ headerBytes c f P.length ++ (P ++ (le16 sum ++ rest)) := by
    simp only [packetBytes, hs, List.append_assoc]
  rw [hp]
  simp only [headerBytes, le32, List.cons_append, List.nil_append] at hs ⊢
  simp only [decodeBytes, word32_extract, hn]
  rw [if_pos ⟨trivial, trivial⟩, if_neg (by omega), if_neg (by simp; omega)]
  simp [le16, half16_extract, hs, hi]

/-- Settles O26: the packet carries the command's id and payload, and its length field and sum are those of the payload. -/
theorem packetDecodesToItsCommand : Obligations.PacketDecodesToItsCommand := by
  unfold Obligations.PacketDecodesToItsCommand
  intro cfg m i B rest hids hfits hB
  obtain ⟨hwf, hm⟩ := Bool.and_eq_true_iff.mp hfits
  have hmax : i.payloadLen ≤ max32 := of_decide_eq_true (Bool.and_eq_true_iff.mp hwf).2
  have hm : i.payloadLen ≤ m := of_decide_eq_true hm
  have he := encode_carries cfg.cmdIds (Instr.formsOk_of_wf hwf)
  unfold encodeBytes at hB
  generalize encode cfg.cmdIds i = e at hB he
  cases he with
  | packet k P instr length =>
    cases hB
    exact decodeBytes_packetBytes rest (length ▸ hm) (length ▸ hmax) (instr ▸ decodeCommand_cmdId hids k P)
  | request r => cases hB

/-- A command's packet with nothing after it is read whole. -/
theorem decodeBytes_of_encodeBytes {cfg : Config} {m : Nat} {i : Instr} {B : Bytes} (hids : cfg.cmdIds.distinct = true)
    (hi : i.fits m = true) (hB : encodeBytes cfg i = some B) : decodeBytes cfg m B = .ok (i, []) := by
  have h := packetDecodesToItsCommand cfg m i B [] hids hi hB
  rwa [List.append_nil] at h

/-- Settles O31: each packet is what the encoder writes for its instruction. -/
theorem writtenOutPacketsDecode : Obligations.WrittenOutPacketsDecode := by
  unfold Obligations.WrittenOutPacketsDecode
  exact ⟨decodeBytes_of_encodeBytes (by decide) (by decide) (by decide),
    decodeBytes_of_encodeBytes (by decide) (by decide) (by decide),
    decodeBytes_of_encodeBytes (by decide) (by decide) (by decide), rfl⟩

/-! ### Command ids (R73, R151) -/

/-- An id that no command has is rejected by name, under every table (R89, R151). -/
theorem decodeCommand_unknown {ids : CmdIds} {c : Byte} (h : ∀ k, cmdId ids k ≠ c) (P : Bytes) :
    decodeCommand ids c P = .error (.unknownCommand c) := by
  have hc : cmdOf ids c = none := Option.eq_none_iff_forall_ne_some.mpr fun k hk => h k (cmdId_of_cmdOf hk)
  simp [decodeCommand, hc]

/-- Under eight different ids, an id selects a command exactly when it is that command's (R73). -/
theorem cmdOf_eq_some_iff {ids : CmdIds} (h : ids.distinct = true) {c : Byte} {k : Cmd} :
    cmdOf ids c = some k ↔ cmdId ids k = c :=
  ⟨cmdId_of_cmdOf, fun e => e ▸ cmdOf_cmdId h k⟩

/-- The decided ids are 0x01 to 0x08 (R73). -/
theorem cmdId_decided_range (k : Cmd) : 1 ≤ (cmdId .decided k).toNat ∧ (cmdId .decided k).toNat ≤ 8 := by
  cases k <;> decide

/-- Settles O27: the decided ids are eight different ones, none of them 0 or above 8. -/
theorem commandIdsAreExact : Obligations.CommandIdsAreExact := by
  unfold Obligations.CommandIdsAreExact
  have decided (k : Cmd) : cmdOf .decided (cmdId .decided k) = some k := cmdOf_cmdId (by decide) k
  refine ⟨decided .ping, decided .getInfo, decided .alloc, decided .free, decided .writeMem, decided .readMem,
    decided .exec, decided .heapInfo, fun c P hc => decodeCommand_unknown (fun k hk => ?_) P,
    fun ids c k h => cmdOf_eq_some_iff h, fun ids c P h => decodeCommand_unknown h P, rfl, fun _ => rfl, rfl, rfl⟩
  have := cmdId_decided_range k
  rw [hk] at this
  omega

end Sys2Proof
end

section
/-! What the request encodings leave without meaning: the reserved bits of `mflags` and the padding (R87, R88), and the
header's flags byte, which no step of the worker reads (R74). -/

namespace Sys2Proof.Machine

/-! ### Reserved bits and padding -/

/-- The bounds check reads `mflags` through its skip-bounds bit only (R87). -/
theorem checkRange_congr {m n : Byte} (h : skipBounds m = skipBounds n) (s : State) (a k : Nat) :
    s.checkRange m a k = s.checkRange n a k := by
  rw [State.checkRange, h, State.checkRange]

theorem admits_congr {m n : Byte} (h : skipBounds m = skipBounds n) (s : State) (a k : Nat) :
    s.admits m a k = s.admits n a k := by
  rw [State.admits, h, State.admits]

theorem checkedWrite_congr {f g : WriteFields} (ha : f.address = g.address)
    (hm : skipBounds f.mflags = skipBounds g.mflags) (D : Bytes) (s : State) : checkedWrite f D s = checkedWrite g D s := by
  simp only [checkedWrite, checkRange_congr hm, admits_congr hm, ha]

/-- WRITEMEM reads the address and the skip-bounds bit (R87, R88). -/
theorem writeMemEffect_congr {f g : WriteFields} (ha : f.address = g.address)
    (hm : skipBounds f.mflags = skipBounds g.mflags) (D : Bytes) (s : State) :
    writeMemEffect (.full f D) s = writeMemEffect (.full g D) s := by
  simp only [writeMemEffect, checkedWrite_congr ha hm, ha]

/-- READMEM reads the address, the size and the skip-bounds bit (R87, R88). -/
theorem readMemEffect_congr {f g : ReadFields} (ha : f.address = g.address) (hn : f.size = g.size)
    (hm : skipBounds f.mflags = skipBounds g.mflags) (x : Bytes) (s : State) :
    readMemEffect (.full f x) s = readMemEffect (.full g x) s := by
  simp only [readMemEffect, checkRange_congr hm, admits_congr hm, ha, hn]

/-- EXEC reads `mflags` through its skip-bounds bit only (R87). -/
theorem callEffect_congr {m n : Byte} (h : skipBounds m = skipBounds n) (a : Word) (s : State) :
    callEffect a m s = callEffect a n s := by
  rw [callEffect, h, callEffect]

/-- Settles O29: the three commands read `mflags` through the skip-bounds bit, which is bit 0, and no padding byte. -/
theorem reservedBitsAreIgnored : Obligations.ReservedBitsAreIgnored := by
  unfold Obligations.ReservedBitsAreIgnored
  exact ⟨fun f g D s ha hm => congrArg Host.Outcome.next (writeMemEffect_congr ha hm D s),
    fun f g r s ha hn hm => congrArg Host.Outcome.next (readMemEffect_congr ha hn hm r s),
    fun a m n r s hm => congrArg Host.Outcome.next (callEffect_congr hm a s)⟩

/-! ### The header's flags byte in a command's step -/

/-- The state with another flags byte in the header latch (R23, R74). -/
def State.reflag (f : Byte) (s : State) : State := { s with hdr := { s.hdr with flags := f } }

section
variable (f : Byte) (s : State)

theorem reflag_unwritten : (s.reflag f).unwritten = s.unwritten := rfl

theorem reflag_st : (s.reflag f).st = s.st := rfl

theorem reflag_idx : (s.reflag f).idx = s.idx := rfl

theorem reflag_phase : (s.reflag f).phase = s.phase := rfl

theorem reflag_execAnswer : (s.reflag f).execAnswer = s.execAnswer := rfl

/-- A choice that does not read the flags byte goes the same way with another. -/
theorem ite_reflag {c : Prop} [Decidable c] {a b a' b' : State} (ha : a' = a.reflag f) (hb : b' = b.reflag f) :
    (if c then a' else b') = (if c then a else b).reflag f := by
  rw [ha, hb, apply_ite (State.reflag f)]

theorem checkRange_reflag (mf : Byte) (a n : Nat) :
    (s.reflag f).checkRange mf a n = (s.checkRange mf a n).reflag f := by
  rw [State.checkRange_eq, State.checkRange_eq]
  rfl

theorem checkEntry_reflag (a : Word) : (s.reflag f).checkEntry a = (s.checkEntry a).reflag f := by
  rw [State.checkEntry_eq, State.checkEntry_eq]
  rfl

theorem requestAllocation_reflag (o : AllocFields) :
    requestAllocation o (s.reflag f) = (requestAllocation o s).reflag f :=
  ite_reflag f (ite_reflag f rfl (ite_reflag f rfl rfl)) rfl

theorem allocEffect_reflag (o : Form AllocFields) : allocEffect o (s.reflag f) = (allocEffect o s).reflag f := by
  cases o with
  | short raw => rfl
  | full o x =>
    unfold allocEffect
    rw [reflag_phase]
    cases s.phase with
    | release a => rfl
    | fresh => exact requestAllocation_reflag f s o
    | written => exact requestAllocation_reflag f s o
    | lineKnown S => exact requestAllocation_reflag f s o

theorem untrack_reflag (a : Word) : untrack a (s.reflag f) = (untrack a s).reflag f :=
  ite_reflag f rfl rfl

theorem freeEffect_reflag (o : Form FreeFields) : freeEffect o (s.reflag f) = (freeEffect o s).reflag f := by
  cases o with
  | short raw => rfl
  | full o x =>
    unfold freeEffect
    rw [reflag_phase]
    cases s.phase with
    | release a => rfl
    | fresh => exact untrack_reflag f s o.address
    | written => exact untrack_reflag f s o.address
    | lineKnown S => exact untrack_reflag f s o.address

theorem transferWrite_reflag (a : Word) (D : Bytes) :
    transferWrite a D (s.reflag f) = (transferWrite a D s).reflag f :=
  ite_reflag f rfl rfl

theorem checkedWrite_reflag (o : WriteFields) (D : Bytes) :
    checkedWrite o D (s.reflag f) = (checkedWrite o D s).reflag f := by
  unfold checkedWrite
  rw [checkRange_reflag]
  exact ite_reflag f (transferWrite_reflag f _ o.address D) rfl

theorem writeMemEffect_reflag (o : Form WriteFields) :
    writeMemEffect o (s.reflag f) = (writeMemEffect o s).reflag f := by
  cases o with
  | short raw => rfl
  | full o D =>
    unfold writeMemEffect
    rw [reflag_phase]
    cases s.phase with
    | fresh => exact checkedWrite_reflag f s o D
    | release a => exact checkedWrite_reflag f s o D
    | written => rfl
    | lineKnown S => rfl

theorem readMemEffect_reflag (o : Form ReadFields) : readMemEffect o (s.reflag f) = (readMemEffect o s).reflag f := by
  cases o with
  | short raw => rfl
  | full o x =>
    unfold readMemEffect
    dsimp only
    rw [checkRange_reflag]
    exact ite_reflag f rfl (ite_reflag f (ite_reflag f rfl rfl) rfl)

theorem enterCallee_reflag (a : Word) : enterCallee a (s.reflag f) = (enterCallee a s).reflag f := by
  unfold enterCallee
  rw [reflag_execAnswer]
  cases s.execAnswer with
  | returns r stores => rfl
  | never => rfl

theorem callEffect_reflag (a : Word) (mf : Byte) : callEffect a mf (s.reflag f) = (callEffect a mf s).reflag f := by
  unfold callEffect
  rw [checkEntry_reflag]
  exact ite_reflag f (enterCallee_reflag f s a) (ite_reflag f (enterCallee_reflag f _ a) rfl)

theorem execEffect_reflag (o : ExecForm) : execEffect o (s.reflag f) = (execEffect o s).reflag f := by
  cases o with
  | short raw => rfl
  | bare a => exact callEffect_reflag f s a 0
  | flagged a mf x => exact callEffect_reflag f s a mf

/-- One outcome of a step is the other with another flags byte in the latch. -/
def Reflagged (x y : Host.Outcome State Fault Refusal) : Prop :=
  ∃ t, x = .next t ∧ y = .next (t.reflag f)

theorem reflagged_next {t t' : State} (h : t' = t.reflag f) : Reflagged f (.next t) (.next t') :=
  ⟨t, rfl, congrArg Host.Outcome.next h⟩

/-- No instruction reads the flags byte (R74). -/
theorem exec_reflag (i : Instr) : Reflagged f (exec i s) (exec i (s.reflag f)) := by
  cases i with
  | alloc o => exact reflagged_next f (allocEffect_reflag f s o)
  | free o => exact reflagged_next f (freeEffect_reflag f s o)
  | writeMem o => exact reflagged_next f (writeMemEffect_reflag f s o)
  | readMem o => exact reflagged_next f (readMemEffect_reflag f s o)
  | exec o => exact reflagged_next f (execEffect_reflag f s o)
  | ping data => exact reflagged_next f rfl
  | getInfo body => exact reflagged_next f rfl
  | heapInfo body => exact reflagged_next f rfl
  | trackerAdd a sz => exact reflagged_next f rfl
  | trackerRemove a => exact reflagged_next f rfl
  | trackerContains a => exact reflagged_next f rfl
  | trackerValidate a sz => exact reflagged_next f rfl

/-! ### The header's flags byte in the framer's step -/

/-- A latch byte after the flags byte leaves it alone (R104). -/
theorem set_flags (h : Header) {i : Nat} (hi : 2 ≤ i) (b : Byte) :
    Header.set { h with flags := f } i b = { h.set i b with flags := f } := by
  unfold Header.set
  split
  case h_2 => omega
  all_goals rfl

theorem headerComplete_reflag : (s.reflag f).headerComplete = s.headerComplete.reflag f :=
  ite_reflag f rfl (ite_reflag f rfl rfl)

theorem takeHeader_reflag (h : 2 ≤ s.idx) (b : Byte) : (s.reflag f).takeHeader b = (s.takeHeader b).reflag f := by
  have hset : (s.reflag f).hdr.set s.idx b = { s.hdr.set s.idx b with flags := f } := set_flags f s.hdr h b
  unfold State.takeHeader
  dsimp only
  rw [reflag_idx, hset]
  exact ite_reflag f rfl (headerComplete_reflag f { s with hdr := s.hdr.set s.idx b, acc := accAdd s.acc b })

/-- A byte taken once the latch holds the flags byte goes the same way whatever that byte is (R101 to R109). -/
theorem takeByte_reflag (h : s.st = .hdr → 2 ≤ s.idx) (b : Byte) : (s.reflag f).takeByte b = (s.takeByte b).reflag f := by
  unfold State.takeByte
  rw [reflag_st]
  cases hs : s.st with
  | sync1 => rfl
  | sync2 => exact ite_reflag f rfl rfl
  | hdr => exact takeHeader_reflag f s (h hs) b
  | payload => exact ite_reflag f rfl rfl
  | csum => exact ite_reflag f rfl rfl
  | drain => rfl
  | verify => rfl
  | dispatch => rfl
  | respond => rfl

theorem dispatch_reflag : Reflagged f s.dispatch (s.reflag f).dispatch := by
  have hd : decodeCommand (s.reflag f).cfg.cmdIds (s.reflag f).hdr.cmd (s.reflag f).payload =
      decodeCommand s.cfg.cmdIds s.hdr.cmd s.payload := rfl
  unfold State.dispatch
  rw [hd]
  cases decodeCommand s.cfg.cmdIds s.hdr.cmd s.payload with
  | error e => exact reflagged_next f rfl
  | ok i =>
    dsimp only
    rw [enables_of_rest (reflag_unwritten f s)]
    split
    · exact exec_reflag f s i
    · exact reflagged_next f rfl

/-- The framer's step goes the same way with another flags byte (R74, R100). -/
theorem framerStep_reflag (h : s.st = .hdr → 2 ≤ s.idx) : Reflagged f s.framerStep (s.reflag f).framerStep := by
  by_cases hc : s.st.consumes = true
  · cases hq : s.q with
    | nil =>
      rw [framer_wait hc hq, framer_wait (s := s.reflag f) hc hq]
      exact reflagged_next f rfl
    | cons b rest =>
      rw [framer_take hc hq, framer_take (s := s.reflag f) hc hq]
      exact reflagged_next f (takeByte_reflag f { s with q := rest } h b)
  · unfold State.framerStep
    rw [reflag_st]
    cases hs : s.st <;> simp only [hs, FramerState.consumes, not_true_eq_false] at hc
    case verify => exact reflagged_next f (ite_reflag f rfl rfl)
    case dispatch => exact dispatch_reflag f s
    case respond => exact reflagged_next f rfl

end

/-! ### The statement -/

/-- Settles O30: an awake worker takes the framer's step, which goes the same way with another flags byte. -/
theorem requestFlagsAreIgnored : Obligations.RequestFlagsAreIgnored := by
  unfold Obligations.RequestFlagsAreIgnored
  intro s f ha hi
  obtain ⟨t, hs, ht⟩ := framerStep_reflag f s hi
  have ha' : (s.reflag f).Awake := ⟨ha.running, ha.clear, ha.free, ha.request⟩
  exact ⟨t, (workerStep_awake ha).trans hs, (workerStep_awake ha').trans ht⟩

end Sys2Proof.Machine
end

section
/-! The framer's steps (R100 to R112, R117): one equation per framer state for an awake worker, what changes the output
stream, and the statements that read them off. -/

namespace Sys2Proof

/-! ### The checksum function (R113) -/

theorem csum_singleton (b : Byte) : csum [b] = b.setWidth 16 := by
  simpa [csum_nil] using csum_snoc [] b

theorem csum_cons (b : Byte) (B : Bytes) : csum (b :: B) = b.setWidth 16 + csum B := by
  rw [← csum_singleton, ← csum_append, List.singleton_append]

/-- Settles O21: the sum of the bytes' values is the same in every order. -/
theorem checksumIsTheByteSum : Obligations.ChecksumIsTheByteSum := by
  unfold Obligations.ChecksumIsTheByteSum
  exact ⟨fun B => BitVec.toNat_ofNat _ _, fun A B h => congrArg (BitVec.ofNat 16) (h.map BitVec.toNat).sum_eq⟩

end Sys2Proof

namespace Sys2Proof.Machine

/-! ### The worker's step in each framer state -/

section
variable {s : State} {b : Byte} {rest : Bytes}

/-- An awake worker in a byte-consuming state takes the queue's oldest byte (R100). -/
theorem workerStep_take (ha : s.Awake) (hc : s.st.consumes = true) (hq : s.q = b :: rest) :
    s.workerStep = .next ({ s with q := rest }.takeByte b) := by
  rw [workerStep_awake ha, framer_take hc hq]

/-- An awake worker in a byte-consuming state waits at an empty queue (R100). -/
theorem workerStep_starved (ha : s.Awake) (hc : s.st.consumes = true) (hq : s.q = []) : s.workerStep = .next s := by
  rw [workerStep_awake ha, framer_wait hc hq]

theorem workerStep_sync1 (ha : s.Awake) (hs : s.st = .sync1) (hq : s.q = b :: rest) :
    s.workerStep = .next ({ s with q := rest }.takeSync1 b) := by
  rw [workerStep_take ha (by rw [hs]; rfl) hq]
  simp only [State.takeByte, hs]

theorem workerStep_sync2 (ha : s.Awake) (hs : s.st = .sync2) (hq : s.q = b :: rest) :
    s.workerStep = .next ({ s with q := rest }.takeSync2 b) := by
  rw [workerStep_take ha (by rw [hs]; rfl) hq]
  simp only [State.takeByte, hs]

theorem workerStep_hdr (ha : s.Awake) (hs : s.st = .hdr) (hq : s.q = b :: rest) :
    s.workerStep = .next ({ s with q := rest }.takeHeader b) := by
  rw [workerStep_take ha (by rw [hs]; rfl) hq]
  simp only [State.takeByte, hs]

theorem workerStep_payload (ha : s.Awake) (hs : s.st = .payload) (hq : s.q = b :: rest) :
    s.workerStep = .next ({ s with q := rest }.takePayload b) := by
  rw [workerStep_take ha (by rw [hs]; rfl) hq]
  simp only [State.takeByte, hs]

theorem workerStep_csum (ha : s.Awake) (hs : s.st = .csum) (hq : s.q = b :: rest) :
    s.workerStep = .next ({ s with q := rest }.takeCsum b) := by
  rw [workerStep_take ha (by rw [hs]; rfl) hq]
  simp only [State.takeByte, hs]

theorem workerStep_drain (ha : s.Awake) (hs : s.st = .drain) (hq : s.q = b :: rest) :
    s.workerStep = .next { s with q := rest }.takeDrain := by
  rw [workerStep_take ha (by rw [hs]; rfl) hq]
  simp only [State.takeByte, hs]

theorem workerStep_verify (ha : s.Awake) (hs : s.st = .verify) : s.workerStep = .next s.verifySum := by
  rw [workerStep_awake ha]
  simp only [State.framerStep, hs]

theorem workerStep_dispatch (ha : s.Awake) (hs : s.st = .dispatch) : s.workerStep = s.dispatch := by
  rw [workerStep_awake ha]
  simp only [State.framerStep, hs]

theorem workerStep_respond (ha : s.Awake) (hs : s.st = .respond) : s.workerStep = .next s.finishResponse := by
  rw [workerStep_awake ha]
  simp only [State.framerStep, hs]

end

/-! ### What each byte-consuming state does with its byte -/

section
variable {s : State} {b : Byte}

theorem takeSync2_match (h : b = s.cfg.magic1) :
    s.takeSync2 b = { s with idx := 0, acc := accInit s.cfg, st := .hdr } := if_pos h

theorem takeSync2_retest (h : b ≠ s.cfg.magic1) :
    s.takeSync2 b = { s with st := if b = s.cfg.magic0 then .sync2 else .sync1 } := if_neg h

theorem takeHeader_early (h : s.idx < 5) : s.takeHeader b =
    { s with hdr := s.hdr.set s.idx b, acc := s.acc + b.setWidth 16, idx := s.idx + 1 } := if_pos h

theorem takeHeader_last (h : s.idx = 5) : s.takeHeader b =
    { s with hdr := s.hdr.set s.idx b, acc := s.acc + b.setWidth 16 }.headerComplete := if_neg (by omega)

theorem headerComplete_oversized (h : s.maxPayload.toNat < s.hdr.len.toNat) :
    s.headerComplete = { s with drain := s.hdr.len.toNat + 2, st := .drain } := if_pos h

theorem headerComplete_empty (h : s.hdr.len.toNat ≤ s.maxPayload.toNat) (h0 : s.hdr.len.toNat = 0) :
    s.headerComplete = { s with idx := 0, st := .csum } := by
  unfold State.headerComplete
  rw [if_neg (by omega), if_pos (BitVec.eq_of_toNat_eq h0)]

theorem headerComplete_payload (h : s.hdr.len.toNat ≤ s.maxPayload.toNat) (h0 : s.hdr.len.toNat ≠ 0) :
    s.headerComplete = { s with idx := 0, st := .payload } := by
  unfold State.headerComplete
  rw [if_neg (by omega), if_neg fun e => h0 (by simp [e])]

theorem takePayload_last (h : s.idx + 1 = s.hdr.len.toNat) : s.takePayload b =
    { s with rxbuf := s.rxbuf.set s.idx b, acc := s.acc + b.setWidth 16, idx := 0, st := .csum } := if_pos h

theorem takePayload_early (h : s.idx + 1 ≠ s.hdr.len.toNat) : s.takePayload b =
    { s with rxbuf := s.rxbuf.set s.idx b, acc := s.acc + b.setWidth 16, idx := s.idx + 1 } := if_neg h

theorem takeCsum_low (h : s.idx = 0) : s.takeCsum b = { s with rcs := setLowByte s.rcs b, idx := 1 } := if_pos h

theorem takeCsum_high (h : s.idx = 1) : s.takeCsum b = { s with rcs := setHighByte s.rcs b, st := .verify } :=
  if_neg (by omega)

theorem takeDrain_last (h : s.drain = 1) : s.takeDrain = { s with drain := 0, st := .sync1 } := by
  simp [State.takeDrain, h]

theorem takeDrain_early (hs : s.st = .drain) (h : 1 < s.drain) : s.takeDrain = { s with drain := s.drain - 1 } := by
  simp only [State.takeDrain, if_neg (show s.drain - 1 ≠ 0 by omega), ← hs]

theorem accInit_eq (cfg : Config) : accInit cfg =
    if cfg.csumCoversMagic then BitVec.ofNat 16 (cfg.magic0.toNat + cfg.magic1.toNat) else 0 := by
  simp [accInit, csum]

/-- The latch's bytes after one of them is set (R104). -/
theorem toBytes_set (h : Header) {i : Nat} (hi : i ≤ 5) (b : Byte) : (h.set i b).toBytes = h.toBytes.set i b := by
  obtain rfl | rfl | rfl | rfl | rfl | rfl : i = 0 ∨ i = 1 ∨ i = 2 ∨ i = 3 ∨ i = 4 ∨ i = 5 := by omega
  all_goals rfl

end

/-- In `VERIFY`, `DISPATCH` and `RESPOND` an awake worker answers a next state and takes no byte (R21, R100). -/
theorem workerStep_internal {s : State} (ha : s.Awake) (hc : s.st.consumes = false) :
    ∃ t, s.workerStep = .next t ∧ t.q = s.q := by
  cases hs : s.st <;> simp only [hs, FramerState.consumes, Bool.true_eq_false] at hc
  case verify => exact ⟨_, workerStep_verify ha hs, verifySum_q s⟩
  case respond => exact ⟨_, workerStep_respond ha hs, rfl⟩
  case dispatch =>
    rw [workerStep_dispatch ha hs]
    unfold State.dispatch
    cases decodeCommand s.cfg.cmdIds s.hdr.cmd s.payload with
    | error e => exact ⟨_, rfl, rfl⟩
    | ok i =>
      dsimp only
      split
      · obtain ⟨t, ht, hm, -⟩ := exec_cases i s
        exact ⟨t, ht, hm.q⟩
      · exact ⟨s, rfl, rfl⟩

/-! ### The statements about one step -/

/-- Settles O12: a worker that is not awake waits or faults, a byte-consuming state takes one byte or waits, and the
comparison, the commands and the response leave the queue alone. -/
theorem framerStepsByBytes : Obligations.FramerStepsByBytes := by
  unfold Obligations.FramerStepsByBytes
  refine ⟨fun s hw hr => workerStep_waits hw fun h => hr h.1, fun s hw t ht => ?_,
    fun s ha hc hq => workerStep_starved ha hc hq,
    fun s b rest ha hc hq => ⟨_, workerStep_take ha hc hq, takeByte_q _ b⟩,
    fun s ha hc => workerStep_internal ha hc⟩
  obtain ⟨f, hf⟩ := Option.ne_none_iff_exists'.mp hw
  rw [workerStep_faulted hf] at ht
  cases ht

/-- Settles O13: `SYNC1` keeps nothing of a byte but whether it is the first magic byte. -/
theorem sync1HuntsForMagic : Obligations.Sync1HuntsForMagic := by
  unfold Obligations.Sync1HuntsForMagic
  exact fun s b rest ha hs hq => workerStep_sync1 ha hs hq

/-- Settles O14: the match is tested first, and the accumulator starts from the magic bytes that the checksum covers. -/
theorem sync2MatchesOrRetests : Obligations.Sync2MatchesOrRetests := by
  unfold Obligations.Sync2MatchesOrRetests
  intro s b rest ha hs hq
  rw [workerStep_sync2 ha hs hq, ← accInit_eq]
  exact ⟨fun h => congrArg _ (takeSync2_match h), fun h => congrArg _ (takeSync2_retest h)⟩

/-- Settles O15: the sixth byte completes the header in its own step, with the length that it completes. -/
theorem headerIsSixBytes : Obligations.HeaderIsSixBytes := by
  unfold Obligations.HeaderIsSixBytes
  intro s b rest ha hs hq hi
  dsimp only
  rw [workerStep_hdr ha hs hq]
  have last (h : s.idx = 5) := takeHeader_last (s := { s with q := rest }) (b := b) h
  refine ⟨toBytes_set s.hdr hi b, fun h => congrArg _ (takeHeader_early h), fun h hmax => ?_, fun h hmax h0 => ?_,
    fun h hmax h0 => ?_⟩
  · exact congrArg _ ((last h).trans (headerComplete_oversized hmax))
  · exact congrArg _ ((last h).trans (headerComplete_empty hmax h0))
  · exact congrArg _ ((last h).trans (headerComplete_payload hmax h0))

/-- Settles O16: the byte is stored and summed, and the index says whether it is the last. -/
theorem payloadByteIsStored : Obligations.PayloadByteIsStored := by
  unfold Obligations.PayloadByteIsStored
  intro s b rest ha hs hq
  rw [workerStep_payload ha hs hq]
  exact ⟨fun h => congrArg _ (takePayload_last h), fun h => congrArg _ (takePayload_early h)⟩

/-- Settles O17: each byte replaces one half of the received checksum and keeps the other. -/
theorem checksumFieldIsLittleEndian : Obligations.ChecksumFieldIsLittleEndian := by
  unfold Obligations.ChecksumFieldIsLittleEndian
  refine ⟨fun s b rest ha hs hi hq => ⟨setLowByte s.rcs b, ?_, extract_low_half16 .., extract_high_half16 ..⟩,
    fun s b rest ha hs hi hq => ⟨setHighByte s.rcs b, ?_, extract_high_half16 .., extract_low_half16 ..⟩⟩
  · exact (workerStep_csum ha hs hq).trans (congrArg _ (takeCsum_low hi))
  · exact (workerStep_csum ha hs hq).trans (congrArg _ (takeCsum_high hi))

/-- Settles O18: the counter falls by one, and the last byte ends the drain. -/
theorem drainCountsDown : Obligations.DrainCountsDown := by
  unfold Obligations.DrainCountsDown
  intro s b rest ha hs hq _
  rw [workerStep_drain ha hs hq]
  exact ⟨fun h => congrArg _ (takeDrain_last h), fun h => congrArg _ (takeDrain_early hs h)⟩

/-- Settles O19: a mismatch is the report of a checksum error with the latch's command id. -/
theorem verifyComparesTheSums : Obligations.VerifyComparesTheSums := by
  unfold Obligations.VerifyComparesTheSums
  intro s ha hs
  rw [workerStep_verify ha hs]
  refine ⟨fun h => congrArg _ (if_pos h), fun h => ?_⟩
  have hv : s.verifySum = s.respondWith s.hdr.cmd flagsError (le32 s.cfg.errCodes.checksum) := if_neg h
  exact ⟨_, rfl, by rw [hv]; rfl, by rw [hv]; rfl, by rw [hv, tpay_respondWith], hv⟩

/-- Settles O20: the response is the packet of the response register, written out. -/
theorem respondEmitsOnePacket : Obligations.RespondEmitsOnePacket := by
  unfold Obligations.RespondEmitsOnePacket
  exact fun s ha hs => workerStep_respond ha hs

/-- Settles O37: an awake worker in `DISPATCH` runs or waits as the decoded instruction's port says, and a request at the
lookup engine's port comes before the framer. -/
theorem stepRunsTheDecodedInstruction : Obligations.StepRunsTheDecodedInstruction := by
  unfold Obligations.StepRunsTheDecodedInstruction
  refine ⟨fun s i ha hl hs hi => ?_, fun s i ts ha ht hs hi => ?_, fun s r hr hw hh hl hq => ?_⟩
  · rw [step_alone hl, workerStep_dispatch ha hs]
    exact ⟨dispatch_enabled hi, dispatch_waits hi⟩
  · have ha' : State.Awake { s with turns := ts } := ⟨ha.running, ha.clear, ha.free, ha.request⟩
    rw [step_given ht, State.move, workerStep_dispatch ha' hs]
    exact ⟨dispatch_enabled (s := { s with turns := ts }) hi, dispatch_waits (s := { s with turns := ts }) hi⟩
  · rw [step_alone hl, workerStep_serves hw ⟨hr, hh⟩ hq]

theorem produce_idle {s : State} (h : s.link = []) : s.produce = s := by
  simp only [State.produce, h]

/-- The quiescent point as four facts (R117). -/
theorem quiescent_iff {s : State} : s.quiescent = true ↔
    s.link = [] ∧ (∀ m ∈ s.turns, m.sends = false) ∧ s.q = [] ∧ s.st.consumes = true := by
  simp [State.quiescent, and_assoc]

/-- Settles O60: no byte is queued for the worker and none is on the link for the producer. -/
theorem quiescentPointWaits : Obligations.QuiescentPointWaits := by
  unfold Obligations.QuiescentPointWaits
  intro s ha h
  obtain ⟨hl, hm, hq, hc⟩ := quiescent_iff.mp h
  refine ⟨workerStep_starved ha hc hq, produce_idle hl, fun ht => ?_, fun ts ht => ?_⟩
  · rw [step_alone ⟨ht, hl⟩, workerStep_starved ha hc hq]
  · have hsub : ∀ m ∈ ts, m ∈ s.turns := by
      rcases ht with ht | ht <;> rw [ht] <;> exact fun m => List.mem_cons_of_mem _
    refine ⟨?_, quiescent_iff.mpr ⟨hl, fun m hts => hm m (hsub m hts), hq, hc⟩⟩
    rcases ht with ht | ht <;> rw [step_given ht]
    · exact workerStep_starved (s := { s with turns := ts }) ⟨ha.running, ha.clear, ha.free, ha.request⟩ hc hq
    · exact congrArg _ (produce_idle (s := { s with turns := ts }) hl)

/-! ### What changes the output stream (R112, R115) -/

@[simp] theorem takeByte_out (s : State) (b : Byte) : (s.takeByte b).out = s.out := by
  obtain ⟨_, _, _, _, _, _, _, e⟩ := takeByte_frame s b
  rw [e]

@[simp] theorem verifySum_out (s : State) : s.verifySum.out = s.out := by
  rcases verifySum_cases s with ⟨-, e⟩ | ⟨-, e⟩ <;> simp [e]

theorem framerStep_out {s t : State} (h : s.framerStep = .next t) :
    t.out = s.out ∨ (s.st = .respond ∧ t = s.finishResponse) := by
  obtain ⟨-, -, rfl⟩ | ⟨-, b, rest, -, rfl⟩ | ⟨-, rfl⟩ | ⟨-, i, -, ⟨-, h⟩ | ⟨-, rfl⟩⟩ | ⟨-, -, rfl⟩ | ⟨hs, rfl⟩ :=
    framerStep_cases h
  · exact .inl rfl
  · exact .inl (takeByte_out _ b)
  · exact .inl (verifySum_out s)
  · exact .inl (exec_next h).1.out
  · exact .inl rfl
  · exact .inl rfl
  · exact .inr ⟨hs, rfl⟩

theorem workerStep_out {s t : State} (h : s.workerStep = .next t) :
    t.out = s.out ∨ (s.st = .respond ∧ t = s.finishResponse) := by
  obtain ⟨-, ⟨-, rfl⟩ | ⟨r, -, -, -, h⟩ | ⟨-, h⟩⟩ := workerStep_cases h
  · exact .inl rfl
  · exact .inl (exec_next h).1.out
  · exact framerStep_out h

theorem produce_out (s : State) : s.produce.out = s.out := by
  unfold State.produce
  repeat' split
  all_goals rfl

theorem obtainBuffer_out (s : State) (n : Word) : (s.obtainBuffer n).out = s.out := by
  unfold State.obtainBuffer
  split <;> rfl

theorem boot_out (s : State) : s.boot.out = s.out := by
  have h := (obtainBuffer_out (s.obtainBuffer s.cfg.rxBufSize) s.cfg.txBufSize).trans (obtainBuffer_out s _)
  simp only [State.boot]
  split <;> exact h

theorem start_out {s t : State} (h : s.start = .next t) : t.out = s.out := by
  obtain hr | hr | hr : s.run = .running ∨ s.run = .faulted ∨ s.run = .idle ∨ s.run = .failed := by
    cases s.run <;> simp
  · cases (start_running hr).symm.trans h
    rfl
  · cases (start_faulted hr).symm.trans h
    rfl
  · rw [start_boots hr] at h
    split at h <;> cases h
    exact boot_out s

/-- Only `RESPOND` and the host change the output stream. -/
theorem move_out {s t : State} {m : Turn} (h : s.move m = .next t) :
    t.out = s.out ∨ (s.st = .respond ∧ t = s.finishResponse) ∨ (m = .hostRecv ∧ t.out = s.out.tail) := by
  cases m with
  | worker => exact (workerStep_out h).imp_right .inl
  | producer => cases h; exact .inl (produce_out s)
  | hostSend b => cases h; exact .inl rfl
  | hostRecv => cases h; exact .inr (.inr ⟨rfl, rfl⟩)
  | start => exact .inl (start_out h)
  | port p b => cases h; exact .inl rfl
  | powerOn w => cases h; exact .inl rfl

/-- Settles O11: the move that changed the output stream is `RESPOND`'s or the host's. -/
theorem onlyRespondEmits : Obligations.OnlyRespondEmits := by
  unfold Obligations.OnlyRespondEmits
  intro s t h hne
  obtain ⟨u, m, hu, hm, ht⟩ := step_cases h
  have K := move_out hm
  rw [hu] at K
  obtain e | ⟨hs, rfl⟩ | ⟨rfl, e⟩ := K
  · exact absurd e hne
  · exact .inl ⟨hs, rfl, rfl⟩
  · obtain ⟨ts, ht⟩ | ⟨-, ht⟩ := ht
    · exact .inr ⟨ts, ht, e⟩
    · simp at ht

end Sys2Proof.Machine
end

section
/-! Whole packets in the queue: the framer's run over each field, the state in which it has received a packet (R118), and
what an oversized packet (R119) and a flipped payload bit (R114) do. -/

namespace Sys2Proof.Machine

/-! ### A run of the worker alone -/

/-- The framer is free to step, and the worker moves next. -/
structure State.Lone (s : State) : Prop where
  awake : s.Awake
  alone : s.Alone

/-- The queue, the framer's registers and the receive buffer do not decide it. -/
theorem State.Lone.framed {s : State} (h : s.Lone) {q rxbuf : Bytes} {st : FramerState} {idx drain : Nat} {hdr : Header}
    {acc rcs : Half} : State.Lone { s with
      q := q, st := st, idx := idx, hdr := hdr, acc := acc, rcs := rcs, drain := drain, rxbuf := rxbuf } :=
  ⟨⟨h.awake.running, h.awake.clear, h.awake.free, h.awake.request⟩, ⟨h.alone.turns, h.alone.link⟩⟩

/-- The worker's step begins the run when no other agent moves. -/
theorem runFor_worker {s t : State} {k : Nat} (hl : s.Lone) (h : s.workerStep = .next t) :
    runFor (k + 1) s = runFor k t := by
  simp only [runFor, step_alone hl.alone, h]

/-! ### The header (R101 to R105) -/

/-- The latch after some bytes are set in it, one after another from an index on (R104). -/
def Header.setAll : Header → Nat → Bytes → Header
  | h, _, [] => h
  | h, i, b :: B => Header.setAll (h.set i b) (i + 1) B

/-- Six bytes from index 0 on are a header's command id, flags and length, whatever the latch held (R23, R70). -/
theorem setAll_header (h : Header) (c f : Byte) (n : Word) : h.setAll 0 ([c, f] ++ le32 n) = Header.mk' c f n := rfl

theorem len_mk' (c f : Byte) (n : Word) : (Header.mk' c f n).len = n := word32_extract n

/-- The rest of a header is latched and summed, one byte a step, and the last of them completes it (R104, R105). -/
theorem runFor_header {s : State} {B rest : Bytes} (hl : s.Lone) (hs : s.st = .hdr) (hB : B ≠ [])
    (hi : s.idx + B.length = 6) (hq : s.q = B ++ rest) :
    runFor B.length s = .next (State.headerComplete { s with
      q := rest, idx := 5, hdr := s.hdr.setAll s.idx B, acc := s.acc + csum B }) := by
  induction B generalizing s with
  | nil => exact absurd rfl hB
  | cons b B ih =>
    rw [List.length_cons] at hi ⊢
    refine Eq.trans (runFor_worker hl (workerStep_hdr hl.awake hs hq)) ?_
    by_cases hn : B = []
    · subst hn
      have h5 : s.idx = 5 := by simpa using hi
      refine congrArg Host.Outcome.next (Eq.trans (takeHeader_last h5) ?_)
      simp only [csum_singleton, ← h5]
      rfl
    · have := List.length_pos_of_ne_nil hn
      refine Eq.trans (congrArg (runFor B.length) (takeHeader_early (show s.idx < 5 by omega))) ?_
      refine Eq.trans (ih hl.framed hs hn (show s.idx + 1 + B.length = 6 by omega) rfl) ?_
      simp only [csum_cons, BitVec.add_assoc]
      rfl

/-- The state with a header latched and summed from `SYNC1` on, before its length's branch is taken. -/
def State.opened (s : State) (c f : Byte) (n : Word) (rest : Bytes) : State :=
  { s with
    q := rest, st := .hdr, idx := 5, hdr := Header.mk' c f n
    acc := accInit s.cfg + csum ([c, f] ++ le32 n) }

/-- A packet's first eight bytes take the framer from `SYNC1` to a complete header (R101 to R105). -/
theorem runFor_opening {s : State} {c f : Byte} {n : Word} {rest : Bytes} (hl : s.Lone) (hs : s.st = .sync1)
    (hq : s.q = [s.cfg.magic0, s.cfg.magic1] ++ ([c, f] ++ le32 n) ++ rest) :
    runFor 8 s = .next (s.opened c f n rest).headerComplete := by
  let B := [c, f] ++ le32 n
  let s1 : State := { s with q := s.cfg.magic1 :: (B ++ rest), st := .sync2 }
  let s2 : State := { s with q := B ++ rest, st := .hdr, idx := 0, acc := accInit s.cfg }
  have h1 : s.workerStep = .next s1 := by
    rw [workerStep_sync1 hl.awake hs hq, State.takeSync1, if_pos rfl]
    rfl
  have h2 : s1.workerStep = .next s2 := by
    rw [workerStep_sync2 (s := s1) hl.framed.awake rfl rfl, takeSync2_match rfl]
  rw [runFor_worker hl h1, runFor_worker (s := s1) hl.framed h2, State.opened, ← setAll_header s.hdr]
  exact runFor_header (s := s2) (B := B) hl.framed rfl (List.cons_ne_nil _ _) rfl rfl

/-! ### The payload and the checksum field (R106 to R108) -/

/-- The rest of a payload is stored and summed, one byte a step (R106). -/
theorem runFor_payload {s : State} {P rest : Bytes} (hl : s.Lone) (hs : s.st = .payload) (hP : P ≠ [])
    (hlen : s.idx + P.length = s.hdr.len.toNat) (hbuf : s.idx + P.length ≤ s.rxbuf.length) (hq : s.q = P ++ rest) :
    runFor P.length s = .next { s with
      q := rest, st := .csum, idx := 0, acc := s.acc + csum P
      rxbuf := s.rxbuf.take s.idx ++ P ++ s.rxbuf.drop (s.idx + P.length) } := by
  induction P generalizing s with
  | nil => exact absurd rfl hP
  | cons b P ih =>
    rw [List.length_cons] at hlen hbuf ⊢
    refine Eq.trans (runFor_worker hl (workerStep_payload hl.awake hs hq)) ?_
    by_cases hn : P = []
    · subst hn
      refine congrArg Host.Outcome.next (Eq.trans (takePayload_last hlen) ?_)
      have hset : s.rxbuf.set s.idx b = s.rxbuf.take s.idx ++ [b] ++ s.rxbuf.drop (s.idx + 1) := by
        rw [List.set_eq_take_append_cons_drop, if_pos (by simpa using hbuf)]
        simp
      simp only [csum_singleton, hset]
      rfl
    · have := List.length_pos_of_ne_nil hn
      refine Eq.trans (congrArg (runFor P.length)
        (takePayload_early (show s.idx + 1 ≠ s.hdr.len.toNat by omega))) ?_
      refine Eq.trans (ih hl.framed hs hn (show s.idx + 1 + P.length = s.hdr.len.toNat by omega)
        (show s.idx + 1 + P.length ≤ (s.rxbuf.set s.idx b).length by rw [List.length_set]; omega) rfl) ?_
      have htake : (s.rxbuf.set s.idx b).take (s.idx + 1) = s.rxbuf.take s.idx ++ [b] := take_set_succ (by omega) b
      have hdrop : (s.rxbuf.set s.idx b).drop (s.idx + 1 + P.length) = s.rxbuf.drop (s.idx + (P.length + 1)) := by
        rw [List.drop_set_of_lt (by omega), Nat.add_assoc, Nat.add_comm 1]
      simp only [csum_cons, BitVec.add_assoc, htake, hdrop, List.append_assoc, List.singleton_append]

/-- From a complete header the payload, which may be empty, takes the framer to `CSUM` (R105, R106). -/
theorem runFor_headerComplete {s : State} {P rest : Bytes} (hl : s.Lone)
    (hlen : s.hdr.len.toNat = P.length) (hmax : P.length ≤ s.maxPayload.toNat) (hbuf : P.length ≤ s.rxbuf.length)
    (hq : s.q = P ++ rest) :
    runFor P.length s.headerComplete = .next { s with
      q := rest, st := .csum, idx := 0, acc := s.acc + csum P, rxbuf := P ++ s.rxbuf.drop P.length } := by
  rw [← hlen] at hmax
  by_cases hP : P = []
  · subst hP
    rw [headerComplete_empty hmax hlen]
    simp only [csum_nil, add_zero, List.length_nil, List.drop_zero, List.nil_append] at hq ⊢
    rw [← hq]
    rfl
  · have := List.length_pos_of_ne_nil hP
    rw [headerComplete_payload hmax (by omega)]
    refine Eq.trans (runFor_payload hl.framed rfl hP (show 0 + P.length = s.hdr.len.toNat by omega)
      (show 0 + P.length ≤ s.rxbuf.length by omega) hq) ?_
    simp only [List.take_zero, List.nil_append, Nat.zero_add]

/-- The checksum field's two bytes, set low then high, are the sum that was sent (R107, R108). -/
theorem setHighByte_setLowByte (r v : Half) :
    setHighByte (setLowByte r (v.extractLsb' 0 8)) (v.extractLsb' 8 8) = v := by
  rw [setHighByte, setLowByte, extract_low_half16, half16_extract]

theorem runFor_csum {s : State} {v : Half} {rest : Bytes} (hl : s.Lone) (hs : s.st = .csum)
    (hi : s.idx = 0) (hq : s.q = le16 v ++ rest) :
    runFor 2 s = .next { s with q := rest, st := .verify, idx := 1, rcs := v } := by
  refine Eq.trans (runFor_worker hl (workerStep_csum hl.awake hs hq)) ?_
  refine Eq.trans (congrArg (runFor 1) (takeCsum_low hi)) ?_
  refine Eq.trans (runFor_worker hl.framed (workerStep_csum hl.framed.awake hs rfl)) ?_
  refine congrArg Host.Outcome.next (Eq.trans (takeCsum_high rfl) ?_)
  simp only [setHighByte_setLowByte]
  rfl

/-! ### A packet received -/

/-- The state in `VERIFY` after a packet with any checksum field, with `rest` behind it in the queue. -/
def State.received (s : State) (c f : Byte) (P : Bytes) (v : Half) (rest : Bytes) : State :=
  { s with
    q := rest, st := .verify, idx := 1, hdr := Header.mk' c f (BitVec.ofNat 32 P.length)
    acc := csum (coveredBytes s.cfg (headerBytes c f P.length ++ P)), rcs := v
    rxbuf := P ++ s.rxbuf.drop P.length }

/-- The accumulator's start value and the sum of the body are the sum of the covered bytes (R102, R113). -/
theorem accInit_add_csum (cfg : Config) (B : Bytes) : accInit cfg + csum B = csum (coveredBytes cfg B) := by
  unfold accInit coveredBytes
  split
  · rw [csum_append]
  · simp

/-- A length within the maximum reads back from the header (R71). -/
theorem toNat_len_mk' {c f : Byte} {n : Nat} {w : Word} (h : n ≤ w.toNat) :
    (Header.mk' c f (BitVec.ofNat 32 n)).len.toNat = n := by
  rw [len_mk', BitVec.toNat_ofNat, Nat.mod_eq_of_lt (h.trans_lt w.isLt)]

/-- The framer takes a packet in one step per byte, whatever its checksum field (R101 to R108). -/
theorem runFor_received {s : State} {c f : Byte} {P rest : Bytes} {v : Half} (hl : s.Lone)
    (hs : s.st = .sync1) (hmax : P.length ≤ s.maxPayload.toNat) (hbuf : P.length ≤ s.rxbuf.length)
    (hq : s.q = [s.cfg.magic0, s.cfg.magic1] ++ (headerBytes c f P.length ++ P) ++ le16 v ++ rest) :
    runFor (P.length + 10) s = .next (s.received c f P v rest) := by
  have hq : s.q = [s.cfg.magic0, s.cfg.magic1] ++ ([c, f] ++ le32 (BitVec.ofNat 32 P.length)) ++
      (P ++ (le16 v ++ rest)) := by
    rw [hq]
    simp only [headerBytes, List.append_assoc]
  let o := s.opened c f (BitVec.ofNat 32 P.length) (P ++ (le16 v ++ rest))
  let u : State := { o with
    q := le16 v ++ rest, st := .csum, idx := 0, acc := o.acc + csum P, rxbuf := P ++ s.rxbuf.drop P.length }
  have ho : o.hdr.len.toNat = P.length := toNat_len_mk' hmax
  have hu : runFor P.length o.headerComplete = .next u := runFor_headerComplete hl.framed ho hmax hbuf rfl
  have hacc : u.acc = csum (coveredBytes s.cfg (headerBytes c f P.length ++ P)) := by
    rw [← accInit_add_csum, csum_append, ← BitVec.add_assoc]
    rfl
  rw [show P.length + 10 = 8 + (P.length + 2) by omega, runFor_add (runFor_opening hl hs hq), runFor_add hu,
    runFor_csum (s := u) hl.framed rfl rfl rfl, hacc]
  rfl

/-- One step more compares the sums (R110). -/
theorem runFor_compared {s : State} {c f : Byte} {P rest : Bytes} {v : Half} (hl : s.Lone)
    (hs : s.st = .sync1) (hmax : P.length ≤ s.maxPayload.toNat) (hbuf : P.length ≤ s.rxbuf.length)
    (hq : s.q = [s.cfg.magic0, s.cfg.magic1] ++ (headerBytes c f P.length ++ P) ++ le16 v ++ rest) :
    runFor (P.length + 11) s = .next (s.received c f P v rest).verifySum := by
  rw [show P.length + 11 = P.length + 10 + 1 by omega, runFor_add (runFor_received hl hs hmax hbuf hq)]
  exact runFor_worker hl.framed (workerStep_verify hl.framed.awake rfl)

theorem payload_received {s : State} {P : Bytes} (hmax : P.length ≤ s.maxPayload.toNat) (c f : Byte) (v : Half)
    (rest : Bytes) : (s.received c f P v rest).payload = P := by
  have h : (s.received c f P v rest).hdr.len.toNat = P.length := toNat_len_mk' hmax
  rw [State.payload, h]
  exact List.take_left

/-- In `DISPATCH` an unknown id is reported (R151). -/
theorem dispatch_unknown {s : State} {e : DecodeError}
    (h : decodeCommand s.cfg.cmdIds s.hdr.cmd s.payload = .error e) : s.dispatch = .next s.unknownCommand := by
  simp only [State.dispatch, h]

/-! ### A packet too long (R109) -/

/-- The rest of a drain discards its bytes, one a step (R109). -/
theorem runFor_drain {s : State} {D rest : Bytes} (hl : s.Lone) (hs : s.st = .drain) (hD : D ≠ [])
    (hn : s.drain = D.length) (hq : s.q = D ++ rest) :
    runFor D.length s = .next { s with q := rest, st := .sync1, drain := 0 } := by
  induction D generalizing s with
  | nil => exact absurd rfl hD
  | cons b D ih =>
    rw [List.length_cons] at hn ⊢
    refine Eq.trans (runFor_worker hl (workerStep_drain hl.awake hs hq)) ?_
    by_cases hD' : D = []
    · subst hD'
      exact congrArg Host.Outcome.next (takeDrain_last hn)
    · have := List.length_pos_of_ne_nil hD'
      refine Eq.trans (congrArg (runFor D.length) (takeDrain_early hs (show 1 < s.drain by omega))) ?_
      exact ih hl.framed hs hD' (show s.drain - 1 = D.length by omega) rfl

/-! ### A payload byte replaced on the link -/

theorem csum_set {l : Bytes} {i : Nat} (hi : i < l.length) (b : Byte) :
    csum (l.set i b) + l[i].setWidth 16 = csum l + b.setWidth 16 := by
  have hl : csum l = csum (l.take i) + (l[i].setWidth 16 + csum (l.drop (i + 1))) := by
    rw [← csum_cons, ← csum_append, ← List.drop_eq_getElem_cons hi, List.take_append_drop]
  rw [List.set_eq_take_append_cons_drop, if_pos hi, csum_append, csum_cons, hl]
  ac_rfl

/-- Another byte in one place is another sum (R114). -/
theorem csum_set_ne {l : Bytes} {i : Nat} (hi : i < l.length) {b : Byte} (hb : b ≠ l[i]) : csum (l.set i b) ≠ csum l := by
  intro h
  have hw := csum_set hi b
  rw [h, BitVec.add_right_inj] at hw
  have hw := congrArg BitVec.toNat hw
  simp only [BitVec.toNat_setWidth] at hw
  exact hb (BitVec.eq_of_toNat_eq (by omega))

/-- The magic and the header are eight bytes, so a payload byte replaced in a packet is one replaced in its payload. -/
theorem packetBytes_set (cfg : Config) (c f : Byte) {P : Bytes} {i : Nat} (hi : i < P.length) (b : Byte) :
    (packetBytes cfg c f P).set (8 + i) b =
      [cfg.magic0, cfg.magic1] ++ (headerBytes c f (P.set i b).length ++ P.set i b) ++
        le16 (csum (coveredBytes cfg (headerBytes c f P.length ++ P))) := by
  have hh : (headerBytes c f P.length).length = 6 := rfl
  simp only [packetBytes, List.length_set]
  rw [Nat.add_comm, List.set_append_left _ _ (by simp [hh]; omega), List.set_append_right _ _ (by simp),
    List.set_append_right _ _ (by simp [hh])]
  simp [hh]

theorem flipped_ne (a : Byte) {k : Nat} (hk : k < 8) : a ^^^ (1#8 <<< k) ≠ a := by
  intro h
  have hbit := congrArg (fun w : Byte => w.getLsbD k) h
  simp [hk] at hbit

/-! ### The statements -/

/-- Settles O22: the received packet's sums agree, and in `DISPATCH` the worker runs what its id and payload are. -/
theorem packetReachesTheDispatcher : Obligations.PacketReachesTheDispatcher := by
  unfold Obligations.PacketReachesTheDispatcher
  intro s c f P rest ha ha' hs hmax hbuf hq
  have hl : s.Lone := ⟨ha, ha'⟩
  let v := csum (coveredBytes s.cfg (headerBytes c f P.length ++ P))
  let t : State := { s.received c f P v rest with st := .dispatch }
  have hrun : runFor (P.length + 11) s = .next t :=
    (runFor_compared hl hs hmax hbuf hq).trans (congrArg _ (if_pos rfl))
  have hpay : t.payload = P := payload_received hmax c f v rest
  have hstep : step t = t.dispatch :=
    (step_alone hl.framed.alone).trans (workerStep_dispatch hl.framed.awake rfl)
  refine ⟨t, hrun, rfl, rfl, rfl, rfl, hpay, rfl, fun i hi he => ?_, fun e he => ?_⟩ <;> rw [hstep]
  · exact dispatch_enabled (hpay ▸ hi) he
  · exact dispatch_unknown (hpay ▸ he)

/-- Settles O23: the header's branch sets the counter to the bytes behind it, the drain discards these, and the packet after
them is received as any other. -/
theorem oversizedPacketIsDrained : Obligations.OversizedPacketIsDrained := by
  unfold Obligations.OversizedPacketIsDrained
  intro s c f n D c2 f2 P rest ha ha' hs hmax hD hP hbuf hq
  have hl : s.Lone := ⟨ha, ha'⟩
  let next := packetBytes s.cfg c2 f2 P ++ rest
  let o := s.opened c f n (D ++ next)
  let t : State := { o with q := next, st := s.st, drain := 0 }
  have hq : s.q = [s.cfg.magic0, s.cfg.magic1] ++ ([c, f] ++ le32 n) ++ (D ++ next) := by
    rw [hq, List.append_assoc]
    rfl
  have ho : o.hdr.len = n := len_mk' c f n
  have ht : runFor (8 + D.length) s = .next t := by
    rw [runFor_add (runFor_opening hl hs hq), headerComplete_oversized (s := o) (ho ▸ hmax)]
    refine (runFor_drain hl.framed rfl (List.ne_nil_of_length_pos (by omega))
      (show o.hdr.len.toNat + 2 = D.length by rw [ho, hD]) rfl).trans ?_
    rw [← hs]
    rfl
  have hlt : t.Lone := hl.framed
  obtain ⟨u, hu, ust, uq, ucmd, -, upay, ueq, -, -⟩ :=
    packetReachesTheDispatcher t c2 f2 P rest hlt.awake hlt.alone hs hP hbuf rfl
  exact ⟨⟨t, ht, hs, rfl, rfl⟩, u, (runFor_add ht).trans hu, ust, uq, ucmd, upay, (congrArg State.out ueq :)⟩

/-- Settles O24: a packet with a payload byte replaced carries the checksum of another sum, so that `VERIFY` reports it. -/
theorem flippedPayloadBitIsReported : Obligations.FlippedPayloadBitIsReported := by
  unfold Obligations.FlippedPayloadBitIsReported
  intro s c f P rest i k ha ha' hs hmax hbuf hi hk hq
  rw [List.getD_eq_getElem _ _ hi, packetBytes_set _ _ _ hi] at hq
  let b := P[i] ^^^ (1#8 <<< k)
  let r := s.received c f (P.set i b) (csum (coveredBytes s.cfg (headerBytes c f P.length ++ P))) rest
  have hrun : runFor (P.length + 11) s = .next r.verifySum := by
    rw [← List.length_set (as := P) (i := i) (a := b)] at hmax hbuf ⊢
    exact runFor_compared ⟨ha, ha'⟩ hs hmax hbuf hq
  have hne : r.acc ≠ r.rcs := by
    intro h
    have h : csum (coveredBytes s.cfg (headerBytes c f (P.set i b).length ++ P.set i b)) =
      csum (coveredBytes s.cfg (headerBytes c f P.length ++ P)) := h
    rw [List.length_set, ← accInit_add_csum, ← accInit_add_csum, csum_append, csum_append, BitVec.add_right_inj,
      BitVec.add_right_inj] at h
    exact csum_set_ne hi (flipped_ne _ hk) h
  have hv : r.verifySum = r.reportError c .checksum := if_neg hne
  rw [hv] at hrun
  exact ⟨_, hrun, rfl, rfl, rfl, tpay_respondWith .., rfl, rfl, rfl, rfl, rfl⟩

end Sys2Proof.Machine
end

section
/-! The lookup engine: the state that each request answers, and what it does to the number of slots in use (R131 to R136). -/

namespace Sys2Proof.Machine

variable {s : State} {T U : List Slot} {a sz : Word}

/-! ### The requests as state updates -/

theorem exec_trackerAdd_of_some (h : tableAdd s.table a sz = some U) :
    exec (.trackerAdd a sz) s = .next { s with table := U, tres := .ok } := by
  show Host.Outcome.next (s.lookupAdd a sz) = _
  simp only [State.lookupAdd, h, Option.getD_some, Option.isSome_some, if_true]

theorem exec_trackerAdd_of_none (h : tableAdd s.table a sz = none) :
    exec (.trackerAdd a sz) s = .next { s with tres := .tableFull } := by
  show Host.Outcome.next (s.lookupAdd a sz) = _
  simp only [State.lookupAdd, h, Option.getD_none, Option.isSome_none, Bool.false_eq_true, if_false]

theorem exec_trackerRemove_of_some (h : tableRemove s.table a = some U) :
    exec (.trackerRemove a) s = .next { s with table := U, tres := .found } := by
  show Host.Outcome.next (s.lookupRemove a) = _
  simp only [State.lookupRemove, h, Option.getD_some, Option.isSome_some, if_true]

theorem exec_trackerRemove_of_none (h : tableRemove s.table a = none) :
    exec (.trackerRemove a) s = .next { s with tres := .notFound } := by
  show Host.Outcome.next (s.lookupRemove a) = _
  simp only [State.lookupRemove, h, Option.getD_none, Option.isSome_none, Bool.false_eq_true, if_false]

theorem exec_trackerContains_of_eq {b : Bool} (h : tableContains s.table a = b) :
    exec (.trackerContains a) s = .next { s with tres := .bit b } := h ▸ rfl

theorem exec_trackerValidate_of_eq {b : Bool} (h : tableValidate s.table a.toNat sz.toNat = b) :
    exec (.trackerValidate a sz) s = .next { s with tres := .bit b } := h ▸ rfl

/-! ### The answers of `contains` and `validate` -/

theorem tableContains_eq_false : tableContains T a = false ↔ ¬TrackedStart T a :=
  Bool.eq_false_iff.trans (not_congr tableContains_iff)

theorem tableValidate_eq_false {x n : Nat} : tableValidate T x n = false ↔ ¬Tracked T x n :=
  Bool.eq_false_iff.trans (not_congr tableValidate_iff)

/-- A legal table holds no entry with address 0 (R133). -/
theorem not_trackedStart_zero (h : ∀ t ∈ T, t.legal) : ¬TrackedStart T 0 := by
  rintro ⟨t, ht, hused, haddr⟩
  have hlegal := h t ht
  rw [Slot.legal, if_pos hused] at hlegal
  exact hlegal haddr

/-! ### The number of slots in use -/

/-- A free slot in any place adds nothing to the count, and a slot in use adds one. -/
theorem usedSlots_append_cons (pre post : List Slot) (t : Slot) :
    usedSlots (pre ++ t :: post) = usedSlots (pre ++ post) + if t.used then 1 else 0 := by
  simp only [usedSlots, List.countP_append, List.countP_cons, Nat.add_assoc]

theorem usedSlots_tableAdd (h : tableAdd T a sz = some U) : usedSlots U = usedSlots T + 1 := by
  obtain ⟨pre, t, post, rfl, -, ht, rfl⟩ := tableAdd_eq_some.mp h
  simp [usedSlots_append_cons, ht]

theorem usedSlots_tableRemove (h : tableRemove T a = some U) : usedSlots U + 1 = usedSlots T := by
  obtain ⟨pre, t, post, rfl, -, ht, -, rfl⟩ := tableRemove_eq_some.mp h
  simp [usedSlots_append_cons, ht, Slot.free]

theorem usedSlots_eq_length : usedSlots T = T.length ↔ ∀ t ∈ T, t.used = true :=
  List.countP_eq_length

end Sys2Proof.Machine
end

namespace Sys2Proof.Machine

/-- Settles O32: `add` answers a table exactly when it splits at a lowest free slot, and none when every slot is in use. -/
theorem trackerAddTakesTheLowestFreeSlot : Obligations.TrackerAddTakesTheLowestFreeSlot := by
  unfold Obligations.TrackerAddTakesTheLowestFreeSlot
  intro s a sz
  exact ⟨fun pre post t hT hpre ht =>
      exec_trackerAdd_of_some (tableAdd_eq_some.mpr ⟨pre, t, post, hT, hpre, ht, rfl⟩),
    fun hfull => exec_trackerAdd_of_none (tableAdd_eq_none.mpr hfull)⟩

/-- Settles O33: `remove` answers a table exactly when it splits at a lowest match, and none when no slot in use starts at the
address. -/
theorem trackerRemoveFreesTheLowestMatch : Obligations.TrackerRemoveFreesTheLowestMatch := by
  unfold Obligations.TrackerRemoveFreesTheLowestMatch
  intro s a
  exact ⟨fun pre post t hT hpre hused haddr =>
      exec_trackerRemove_of_some (tableRemove_eq_some.mpr ⟨pre, t, post, hT, hpre, hused, haddr, rfl⟩),
    fun hnone => exec_trackerRemove_of_none (tableRemove_eq_none.mpr (tableContains_eq_false.mpr hnone))⟩

/-- Settles O36: by whether the operation answers a table; one slot's flag is then the difference between the counts. -/
theorem usedSlotsCountAllocations : Obligations.UsedSlotsCountAllocations := by
  unfold Obligations.UsedSlotsCountAllocations
  intro s t a sz
  refine ⟨fun h => ?_, fun h => ?_, List.countP_le_length⟩
  · cases hT : tableAdd s.table a sz with
    | some U =>
      rw [exec_trackerAdd_of_some hT] at h
      cases h
      exact .inl ⟨rfl, usedSlots_tableAdd hT⟩
    | none =>
      rw [exec_trackerAdd_of_none hT] at h
      cases h
      exact .inr ⟨rfl, rfl, usedSlots_eq_length.mpr (tableAdd_eq_none.mp hT)⟩
  · cases hT : tableRemove s.table a with
    | some U =>
      rw [exec_trackerRemove_of_some hT] at h
      cases h
      exact .inl ⟨rfl, usedSlots_tableRemove hT⟩
    | none =>
      rw [exec_trackerRemove_of_none hT] at h
      cases h
      exact .inr ⟨rfl, rfl⟩

/-- Settles O34: the answer is the exact start-address match, and a legal table has no entry with address 0. -/
theorem trackerContainsIsExact : Obligations.TrackerContainsIsExact := by
  unfold Obligations.TrackerContainsIsExact
  intro s a
  exact ⟨fun h => exec_trackerContains_of_eq (tableContains_iff.mpr h),
    fun h => exec_trackerContains_of_eq (tableContains_eq_false.mpr h),
    fun h => exec_trackerContains_of_eq (tableContains_eq_false.mpr (not_trackedStart_zero h))⟩

/-- Settles O35: the answer is R134's arithmetic. -/
theorem trackerValidateIsArithmetic : Obligations.TrackerValidateIsArithmetic := by
  unfold Obligations.TrackerValidateIsArithmetic
  intro s a sz
  exact ⟨fun h => exec_trackerValidate_of_eq (tableValidate_iff.mpr h),
    fun h => exec_trackerValidate_of_eq (tableValidate_eq_false.mpr h)⟩

end Sys2Proof.Machine

section
/-! The commands' checks in the spec's arithmetic (R58, R135, R154, R158), the line size in use (R180) and the status words. -/

namespace Sys2Proof.Machine

/-! ### When the checks pass -/

/-- The alignment test of R154 is the one for a nonzero power of two. -/
theorem goodAlignment_iff {v : Word} : goodAlignment v = true ↔ IsPowerOfTwo v := by
  have hne : v ≠ 0 ↔ v.toNat ≠ 0 := not_congr BitVec.toNat_eq
  have hand (h : v.toNat ≠ 0) : v &&& (v - 1) = 0 ↔ v.toNat &&& (v.toNat - 1) = 0 := by
    have hpred : (v - 1).toNat = v.toNat - 1 := by bv_omega
    rw [← hpred, ← BitVec.toNat_and]
    exact BitVec.toNat_eq
  calc goodAlignment v = true ↔ v ≠ 0 ∧ v &&& (v - 1) = 0 := by simp [goodAlignment]
    _ ↔ v.toNat ≠ 0 ∧ v.toNat &&& (v.toNat - 1) = 0 := by rw [hne]; exact and_congr_right hand
    _ ↔ IsPowerOfTwo v := Nat.ne_zero_and_sub_one_eq_zero_iff_isPowerOfTwo

theorem goodAlignment_eq_false {v : Word} : goodAlignment v = false ↔ ¬IsPowerOfTwo v :=
  Bool.eq_false_iff.trans (not_congr goodAlignment_iff)

section
variable {s : State} {mf : Byte} {a n : Nat}

/-- The bounds check lets a request go on that skips it or whose range is tracked (R135). -/
theorem admits_iff : s.admits mf a n = true ↔ mf.getLsbD 0 = true ∨ Tracked s.table a n :=
  Bool.or_eq_true_iff.trans (or_congr Iff.rfl tableValidate_iff)

theorem admits_eq_false : s.admits mf a n = false ↔ mf.getLsbD 0 = false ∧ ¬Tracked s.table a n :=
  Bool.or_eq_false_iff.trans (and_congr Iff.rfl tableValidate_eq_false)

end

/-- EXEC's check of its entry address (R158). -/
theorem entryOk_iff {s : State} {a : Word} : s.entryOk a = true ↔
    Tracked s.table a.toNat 1 ∧ (s.cfg.execRequireStart = true → TrackedStart s.table a) := by
  have hstart : (!s.cfg.execRequireStart || tableContains s.table a) = true ↔
      (s.cfg.execRequireStart = true → TrackedStart s.table a) := by
    rw [Bool.or_eq_true_iff, tableContains_iff, Bool.not_eq_true', ← Bool.not_eq_true, ← imp_iff_not_or]
    rfl
  exact Bool.and_eq_true_iff.trans (and_congr tableValidate_iff hstart)

/-- A transfer faults when it is not empty, and crosses the top of the address space or is not served (R58). -/
theorem memFaults_iff {s : State} {a : Word} {n : Nat} :
    s.memFaults a n = true ↔ n ≠ 0 ∧ (2 ^ 32 < a.toNat + n ∨ s.servedAnswer = false) := by
  simp only [State.memFaults, Bool.and_eq_true, Bool.or_eq_true, decide_eq_true_eq, Bool.not_eq_true']
  rfl

theorem memFaults_eq_false {s : State} {a : Word} {n : Nat} :
    s.memFaults a n = false ↔ ¬(n ≠ 0 ∧ (2 ^ 32 < a.toNat + n ∨ s.servedAnswer = false)) :=
  Bool.eq_false_iff.trans (not_congr memFaults_iff)

/-- The line size in use is the query's answer, or the default after none or 0 (R180). -/
theorem lineInUse_eq {cfg : Config} {q : Option Word} {line : Word} (answered : ∀ w, q = some w → w.toNat ≠ 0 → line = w)
    (failed : q = none ∨ q = some 0 → line = cfg.cacheLineDefault) : lineInUse cfg q = line := by
  cases q with
  | none => exact (failed (.inl rfl)).symm
  | some w =>
    by_cases hw : w = 0
    · subst hw
      exact (failed (.inr rfl)).symm
    · rw [answered w rfl fun h => hw (BitVec.eq_of_toNat_eq h), lineInUse, if_neg hw]

/-! ### The status words -/

theorem le32_code_ok (err : ErrCodes) : le32 (ErrCode.ok.code err) = [0, 0, 0, 0] :=
  le32_eq_zeros.mpr rfl

/-- The status of a WRITEMEM is `ERR_OK` after a good sync, else `ERR_CACHE_SYNC` (R156, R183). -/
theorem le32_syncStatus (ok : Bool) (err : ErrCodes) :
    le32 ((syncStatus ok).code err) = if ok then [0, 0, 0, 0] else le32 err.cacheSync := by
  cases ok
  · rfl
  · exact le32_code_ok err

end Sys2Proof.Machine
end

section
/-! ALLOC and FREE: the state that each outcome of their steps answers (R154, R155). -/

namespace Sys2Proof.Machine

variable {s : State} {f : AllocFields} {g : FreeFields} {x : Bytes} {a : Word} {T U : List Slot}

/-! ### ALLOC, outcome by outcome -/

theorem exec_alloc_fresh (hp : s.phase = .fresh) : exec (.alloc (.full f x)) s = .next (requestAllocation f s) := by
  show Host.Outcome.next (allocEffect (.full f x) s) = _
  simp only [allocEffect, hp]

theorem exec_alloc_release (hp : s.phase = .release a) :
    exec (.alloc (.full f x)) s = .next ((s.callFree a).fail .alloc .alloc) := by
  show Host.Outcome.next (allocEffect (.full f x) s) = _
  simp only [allocEffect, hp]

theorem requestAllocation_badAlignment (hg : goodAlignment f.alignment = false) :
    requestAllocation f s = s.fail .alloc .alloc :=
  if_neg (Bool.eq_false_iff.mp hg)

theorem requestAllocation_noMemory (hg : goodAlignment f.alignment = true) (h0 : s.allocAnswer = 0) :
    requestAllocation f s = (s.callAlloc f.size f.caps f.alignment).fail .alloc .alloc :=
  (if_pos hg).trans (if_pos h0)

theorem requestAllocation_answered (hg : goodAlignment f.alignment = true) (h0 : s.allocAnswer ≠ 0) :
    requestAllocation f s = trackAllocation (s.callAlloc f.size f.caps f.alignment) s.allocAnswer f.size :=
  (if_pos hg).trans (if_neg h0)

theorem requestAllocation_recorded (hg : goodAlignment f.alignment = true) (h0 : s.allocAnswer ≠ 0)
    (hT : tableAdd s.table s.allocAnswer f.size = some U) :
    requestAllocation f s = { s.callAlloc f.size f.caps f.alignment with table := U, tres := .ok }.succeed .alloc
      (le32 s.allocAnswer ++ [0, 0, 0, 0]) := by
  rw [requestAllocation_answered hg h0, trackAllocation,
    Host.Outcome.next.inj (exec_trackerAdd_of_some (s := s.callAlloc f.size f.caps f.alignment) hT), ← le32_code_ok]
  rfl

theorem requestAllocation_tableFull (hg : goodAlignment f.alignment = true) (h0 : s.allocAnswer ≠ 0)
    (hT : tableAdd s.table s.allocAnswer f.size = none) :
    requestAllocation f s =
      { s.callAlloc f.size f.caps f.alignment with tres := .tableFull, phase := .release s.allocAnswer } := by
  rw [requestAllocation_answered hg h0, trackAllocation,
    Host.Outcome.next.inj (exec_trackerAdd_of_none (s := s.callAlloc f.size f.caps f.alignment) hT)]
  rfl

/-! ### FREE, outcome by outcome -/

theorem exec_free_fresh (hp : s.phase = .fresh) : exec (.free (.full g x)) s = .next (untrack g.address s) := by
  show Host.Outcome.next (freeEffect (.full g x) s) = _
  simp only [freeEffect, hp]

theorem exec_free_release (hp : s.phase = .release a) :
    exec (.free (.full g x)) s = .next ((s.callFree a).succeed .free [0, 0, 0, 0]) := by
  show Host.Outcome.next (freeEffect (.full g x) s) = _
  simp only [freeEffect, hp, le32_code_ok]

theorem untrack_untracked (h : ¬TrackedStart s.table a) :
    untrack a s = { s with tres := .bit false }.fail .free .invalidAddr := by
  obtain ⟨hc, e⟩ | ⟨hc, -⟩ := untrack_cases a s
  · rw [e, State.lookupContains, hc]
  · exact absurd (tableContains_iff.mp hc) h

theorem untrack_tracked (h : tableRemove s.table a = some U) :
    untrack a s = { s with table := U, tres := .found, phase := .release a } := by
  obtain ⟨hc, -⟩ | ⟨-, e⟩ := untrack_cases a s
  · rw [tableRemove_eq_none.mpr hc] at h
    cases h
  · rw [e, Host.Outcome.next.inj (exec_trackerRemove_of_some (s := s.lookupContains a) h)]
    rfl

theorem exec_free_untracked (hp : s.phase = .fresh) (h : ¬TrackedStart s.table g.address) :
    exec (.free (.full g x)) s = .next ({ s with tres := .bit false }.fail .free .invalidAddr) :=
  (exec_free_fresh hp).trans (congrArg Host.Outcome.next (untrack_untracked h))

theorem exec_free_tracked (hp : s.phase = .fresh) (h : tableRemove s.table g.address = some U) :
    exec (.free (.full g x)) s = .next { s with table := U, tres := .found, phase := .release g.address } :=
  (exec_free_fresh hp).trans (congrArg Host.Outcome.next (untrack_tracked h))

/-- An address that an entry starts at has an entry to remove (R132, R133). -/
theorem exists_tableRemove (h : TrackedStart T a) : ∃ U, tableRemove T a = some U :=
  Option.ne_none_iff_exists'.mp fun hnone => tableContains_eq_false.mp (tableRemove_eq_none.mp hnone) h

/-- `remove` takes one entry with its start address away (R132). -/
theorem countP_tableRemove (h : tableRemove T a = some U) :
    U.countP (fun v => v.used && v.addr == a) + 1 = T.countP (fun v => v.used && v.addr == a) := by
  obtain ⟨pre, t, post, rfl, -, hused, haddr, rfl⟩ := tableRemove_eq_some.mp h
  simp [Slot.free, hused, haddr, Nat.add_assoc]

theorem trackedStart_iff_countP : TrackedStart T a ↔ 0 < T.countP (fun v => v.used && v.addr == a) := by
  simp [TrackedStart, List.countP_pos_iff]

end Sys2Proof.Machine
end

section
/-! WRITEMEM, READMEM and EXEC: the state that each outcome of their steps answers (R156 to R158), and that only an unchecked
or a tracked range reaches a port (R161). -/

namespace Sys2Proof.Machine

/-! ### The lookup engine's answer after the checks -/

/-- What the lookup engine's answer register holds after the bounds check of a range (R61, R135). -/
def State.rangeAnswer (s : State) (mf : Byte) (a n : Nat) : TrackerResult :=
  if skipBounds mf then s.tres else .bit (tableValidate s.table a n)

/-- What the lookup engine's answer register holds after the check of an entry address (R135, R158). -/
def State.entryAnswer (s : State) (mf : Byte) (a : Word) : TrackerResult :=
  if skipBounds mf then s.tres
  else if s.cfg.execRequireStart then .bit (tableContains s.table a)
  else .bit (tableValidate s.table a.toNat 1)

theorem checkRange_rangeAnswer (s : State) (mf : Byte) (a n : Nat) :
    s.checkRange mf a n = { s with tres := s.rangeAnswer mf a n } :=
  s.checkRange_eq mf a n

section
variable {s : State} {f : WriteFields} {D : Bytes} {g : ReadFields} {x : Bytes} {a : Word} {mf : Byte}

/-! ### WRITEMEM, outcome by outcome -/

theorem exec_writeMem_fresh (hp : s.phase = .fresh) :
    exec (.writeMem (.full f D)) s = .next (checkedWrite f D s) := by
  show Host.Outcome.next (writeMemEffect (.full f D) s) = _
  simp only [writeMemEffect, hp]

theorem exec_writeMem_written (hp : s.phase = .written) : exec (.writeMem (.full f D)) s = .next s.learnLine := by
  show Host.Outcome.next (writeMemEffect (.full f D) s) = _
  simp only [writeMemEffect, hp]

theorem exec_writeMem_lineKnown {S : Word} (hp : s.phase = .lineKnown S) :
    exec (.writeMem (.full f D)) s = .next (finishWrite f.address D S s) := by
  show Host.Outcome.next (writeMemEffect (.full f D) s) = _
  simp only [writeMemEffect, hp]

theorem checkedWrite_rejected (ha : s.admits f.mflags f.address.toNat D.length = false) :
    checkedWrite f D s =
      { s with tres := s.rangeAnswer f.mflags f.address.toNat D.length }.fail .writeMem .invalidAddr := by
  rw [← checkRange_rangeAnswer]
  exact if_neg (Bool.eq_false_iff.mp ha)

theorem checkedWrite_admitted (ha : s.admits f.mflags f.address.toNat D.length = true) :
    checkedWrite f D s =
      transferWrite f.address D { s with tres := s.rangeAnswer f.mflags f.address.toNat D.length } := by
  rw [← checkRange_rangeAnswer]
  exact if_pos ha

theorem checkedWrite_faulted (ha : s.admits f.mflags f.address.toNat D.length = true)
    (hf : s.memFaults f.address D.length = true) : checkedWrite f D s =
      { s with tres := s.rangeAnswer f.mflags f.address.toNat D.length }.memAbort f.address .write D.length :=
  (checkedWrite_admitted ha).trans (if_pos hf)

theorem checkedWrite_served (ha : s.admits f.mflags f.address.toNat D.length = true)
    (hf : s.memFaults f.address D.length = false) : checkedWrite f D s =
      ({ s with tres := s.rangeAnswer f.mflags f.address.toNat D.length }.memWrite f.address D).goOn .written :=
  (checkedWrite_admitted ha).trans (if_neg (Bool.eq_false_iff.mp hf))

/-! ### READMEM, outcome by outcome -/

theorem readMemEffect_oversized (hn : s.maxPayload.toNat < g.size.toNat) :
    readMemEffect (.full g x) s = s.fail .readMem .malformed :=
  if_pos hn

theorem readMemEffect_rejected (hn : g.size.toNat ≤ s.maxPayload.toNat)
    (ha : s.admits g.mflags g.address.toNat g.size.toNat = false) :
    readMemEffect (.full g x) s =
      { s with tres := s.rangeAnswer g.mflags g.address.toNat g.size.toNat }.fail .readMem .invalidAddr := by
  rw [← checkRange_rangeAnswer]
  exact (if_neg (by omega)).trans (if_neg (Bool.eq_false_iff.mp ha))

theorem readMemEffect_admitted (hn : g.size.toNat ≤ s.maxPayload.toNat)
    (ha : s.admits g.mflags g.address.toNat g.size.toNat = true) :
    readMemEffect (.full g x) s = transferRead g.address g.size.toNat
      { s with tres := s.rangeAnswer g.mflags g.address.toNat g.size.toNat } := by
  rw [← checkRange_rangeAnswer]
  exact (if_neg (by omega)).trans (if_pos ha)

theorem transferRead_faulted {n : Nat} (hf : s.memFaults a n = true) : transferRead a n s = s.memAbort a .read n :=
  if_pos hf

theorem transferRead_served {n : Nat} (hf : s.memFaults a n = false) :
    transferRead a n s = (s.memRead a n).succeed .readMem (s.mem.readBytes a.toNat n) :=
  if_neg (Bool.eq_false_iff.mp hf)

/-! ### EXEC, outcome by outcome -/

theorem callEffect_rejected (hs : skipBounds mf = false) (he : s.entryOk a = false) :
    callEffect a mf s = { s with tres := s.entryAnswer mf a }.fail .exec .invalidAddr := by
  rw [State.entryAnswer, if_neg (Bool.eq_false_iff.mp hs), ← State.checkEntry_eq]
  exact (if_neg (Bool.eq_false_iff.mp hs)).trans (if_neg (Bool.eq_false_iff.mp he))

theorem callEffect_entered (h : skipBounds mf = true ∨ s.entryOk a = true) :
    callEffect a mf s = enterCallee a { s with tres := s.entryAnswer mf a } := by
  cases hs : skipBounds mf with
  | true =>
    rw [State.entryAnswer, if_pos hs]
    exact if_pos hs
  | false =>
    have he : s.entryOk a = true := h.resolve_left (Bool.eq_false_iff.mp hs)
    rw [State.entryAnswer, if_neg (Bool.eq_false_iff.mp hs), ← State.checkEntry_eq]
    exact (if_neg (Bool.eq_false_iff.mp hs)).trans (if_pos he)

theorem enterCallee_returns {r : Word} {stores : List (Word × Byte)} (h : s.execAnswer = .returns r stores) :
    enterCallee a s = (s.calleeReturned a r stores).succeed .exec (le32 r) := by
  simp only [enterCallee, h]

theorem enterCallee_never (h : s.execAnswer = .never) : enterCallee a s = s.calleeHangs a := by
  simp only [enterCallee, h]

/-! ### Rejection by the Tracker -/

/-- What a report of an invalid address writes, and what it leaves (R161, R196). -/
theorem invalidAddr_report {t : State} {r : TrackerResult} {k : Cmd} (h : t = { s with tres := r }.fail k .invalidAddr) :
    t.tflags = 0x01 ∧ t.tpay = le32 s.cfg.errCodes.invalidAddr ∧ t.log = s.log ∧ t.mem = s.mem := by
  subst h
  exact ⟨rfl, tpay_respondWith .., rfl, rfl⟩

/-- The response register holds an error (R75, R196). -/
def State.Reported (s : State) : Prop :=
  s.st = .respond ∧ s.tflags = flagsError

theorem not_reported_of_dispatch (h : s.st = .dispatch) : ¬s.Reported := by
  rintro ⟨hr, -⟩
  rw [h] at hr
  cases hr

theorem not_reported_succeed (s : State) (k : Cmd) (p : Bytes) : ¬(s.succeed k p).Reported := fun h =>
  absurd h.2 (show flagsOk ≠ flagsError by decide)

/-- Past its checks a WRITEMEM reports no error: it faults or goes on (R156). -/
theorem not_reported_transferWrite (h : s.st = .dispatch) : ¬(transferWrite a D s).Reported := by
  unfold transferWrite
  split
  · exact not_reported_of_dispatch h
  · exact not_reported_of_dispatch h

/-- Past its checks a READMEM reports no error: it faults or succeeds (R157). -/
theorem not_reported_transferRead {n : Nat} (h : s.st = .dispatch) : ¬(transferRead a n s).Reported := by
  unfold transferRead
  split
  · exact not_reported_of_dispatch h
  · exact not_reported_succeed _ _ _

/-- Past its checks an EXEC reports no error: the callee returns or never does (R158). -/
theorem not_reported_enterCallee (h : s.st = .dispatch) : ¬(enterCallee a s).Reported := by
  unfold enterCallee
  split
  · exact not_reported_succeed _ _ _
  · exact not_reported_of_dispatch h

end

end Sys2Proof.Machine
end

section
/-! A dispatched packet, from its first step to its end: every step of a command answers, faults, hangs or brings the command
nearer to its answer (R160, R197, R200, R201). -/

namespace Sys2Proof.Machine

/-! ### One step of a command -/

/-- How many steps a command has to go, at most (R12, R154 to R156; log entry 18). -/
def stepsLeft : Cmd → Progress → Nat
  | .alloc, .release _ => 1
  | .alloc, _ => 2
  | .free, .release _ => 1
  | .free, _ => 2
  | .writeMem, .written => 2
  | .writeMem, .lineKnown _ => 1
  | .writeMem, _ => 3
  | .ping, _ => 1
  | .getInfo, _ => 1
  | .readMem, _ => 1
  | .exec, _ => 1
  | .heapInfo, _ => 1

theorem stepsLeft_bounds (k : Cmd) (p : Progress) : 1 ≤ stepsLeft k p ∧ stepsLeft k p ≤ 3 := by
  unfold stepsLeft
  split <;> decide

/-- What keeps the worker going: the status, the fault mark and the hung callee are as before. -/
structure Alive (s t : State) : Prop where
  run  : t.run = s.run
  why  : t.why = s.why
  hung : t.hung = s.hung

/-- The ways in which one step of the command `k` can end: it answers with its own id, a transfer of WRITEMEM or READMEM faults,
the callee of EXEC never returns, or the command goes on, with fewer steps left. -/
inductive CommandStep (k : Cmd) (s t : State) : Prop
  | answers (st : t.st = .respond) (tcmd : t.tcmd = cmdId s.cfg.cmdIds k)
      (flags : t.tflags = flagsOk ∨ t.tflags = flagsError) (alive : Alive s t)
  | faults (st : t.st = s.st) (run : t.run = .faulted) (why : t.why.isSome = true) (cmd : k = .writeMem ∨ k = .readMem)
  | hangs (st : t.st = s.st) (run : t.run = s.run) (hung : t.hung.isSome = true) (cmd : k = .exec)
  | goesOn (st : t.st = s.st) (alive : Alive s t) (left : stepsLeft k t.phase < stepsLeft k s.phase)

theorem commandStep_succeed {k : Cmd} {s u : State} (p : Bytes) (cfg : u.cfg = s.cfg) (alive : Alive s u) :
    CommandStep k s (u.succeed k p) :=
  .answers rfl (congrArg (fun c : Config => cmdId c.cmdIds k) cfg) (.inl rfl) ⟨alive.run, alive.why, alive.hung⟩

theorem commandStep_fail {k : Cmd} {s u : State} (e : ErrCode) (cfg : u.cfg = s.cfg) (alive : Alive s u) :
    CommandStep k s (u.fail k e) :=
  .answers rfl (congrArg (fun c : Config => cmdId c.cmdIds k) cfg) (.inr rfl) ⟨alive.run, alive.why, alive.hung⟩

section
variable {s : State}

theorem requestAllocation_commandStep (f : AllocFields) (h : stepsLeft .alloc s.phase = 2) :
    CommandStep .alloc s (requestAllocation f s) := by
  obtain ⟨-, e⟩ | ⟨-, -, e⟩ | ⟨-, -, -, e⟩ | ⟨-, -, -, e⟩ := requestAllocation_cases f s <;> rw [e]
  · exact commandStep_fail _ rfl ⟨rfl, rfl, rfl⟩
  · exact commandStep_fail _ rfl ⟨rfl, rfl, rfl⟩
  · exact .goesOn rfl ⟨rfl, rfl, rfl⟩ (h ▸ Nat.one_lt_two)
  · exact commandStep_succeed _ rfl ⟨rfl, rfl, rfl⟩

theorem allocEffect_commandStep (o : Form AllocFields) : CommandStep .alloc s (allocEffect o s) := by
  cases o with
  | short raw => exact commandStep_fail _ rfl ⟨rfl, rfl, rfl⟩
  | full f x =>
    unfold allocEffect
    dsimp only
    split
    next a hp => exact commandStep_fail _ rfl ⟨rfl, rfl, rfl⟩
    all_goals next hp => exact requestAllocation_commandStep f (hp ▸ rfl)

theorem untrack_commandStep (a : Word) (h : stepsLeft .free s.phase = 2) : CommandStep .free s (untrack a s) := by
  obtain ⟨-, e⟩ | ⟨-, e⟩ := untrack_cases a s <;> rw [e]
  · exact commandStep_fail _ rfl ⟨rfl, rfl, rfl⟩
  · exact .goesOn rfl ⟨rfl, rfl, rfl⟩ (h ▸ Nat.one_lt_two)

theorem freeEffect_commandStep (o : Form FreeFields) : CommandStep .free s (freeEffect o s) := by
  cases o with
  | short raw => exact commandStep_fail _ rfl ⟨rfl, rfl, rfl⟩
  | full f x =>
    unfold freeEffect
    dsimp only
    split
    next a hp => exact commandStep_succeed _ rfl ⟨rfl, rfl, rfl⟩
    all_goals next hp => exact untrack_commandStep _ (hp ▸ rfl)

theorem WriteStep.commandStep {f : WriteFields} {D : Bytes} {t : State} (h : WriteStep f D s t) :
    CommandStep .writeMem s t := by
  cases h with
  | rejected phase admits r => exact commandStep_fail _ rfl ⟨rfl, rfl, rfl⟩
  | faulted phase admits faults r => exact .faults rfl rfl rfl (.inl rfl)
  | copied phase admits served r =>
    refine .goesOn rfl ⟨rfl, rfl, rfl⟩ ?_
    rcases phase with phase | ⟨a, phase⟩ <;> exact phase ▸ Nat.lt_add_one 2
  | learned phase => exact .goesOn rfl ⟨rfl, rfl, rfl⟩ (phase ▸ Nat.one_lt_two)
  | finished S phase => exact commandStep_succeed _ rfl ⟨rfl, rfl, rfl⟩

theorem writeMemEffect_commandStep (o : Form WriteFields) : CommandStep .writeMem s (writeMemEffect o s) := by
  cases o with
  | short raw => exact commandStep_fail _ rfl ⟨rfl, rfl, rfl⟩
  | full f D => exact (exec_writeMem_step rfl).commandStep

theorem readMemEffect_commandStep (o : Form ReadFields) : CommandStep .readMem s (readMemEffect o s) := by
  cases o with
  | short raw => exact commandStep_fail _ rfl ⟨rfl, rfl, rfl⟩
  | full f x =>
    obtain ⟨-, e⟩ | ⟨-, r, ⟨-, e⟩ | ⟨-, -, e⟩ | ⟨-, -, e⟩⟩ := readMemEffect_cases f x s <;> rw [e]
    · exact commandStep_fail _ rfl ⟨rfl, rfl, rfl⟩
    · exact commandStep_fail _ rfl ⟨rfl, rfl, rfl⟩
    · exact .faults rfl rfl rfl (.inr rfl)
    · exact commandStep_succeed _ rfl ⟨rfl, rfl, rfl⟩

theorem callEffect_commandStep (a : Word) (mf : Byte) : CommandStep .exec s (callEffect a mf s) := by
  obtain ⟨r, ⟨-, e⟩ | ⟨-, v, w, -, e⟩ | ⟨-, -, e⟩⟩ := callEffect_cases a mf s <;> rw [e]
  · exact commandStep_fail _ rfl ⟨rfl, rfl, rfl⟩
  · exact commandStep_succeed _ rfl ⟨rfl, rfl, rfl⟩
  · exact .hangs rfl rfl rfl rfl

/-- Every step of a command answers, faults, hangs or brings the command nearer to its answer. -/
theorem exec_commandStep {k : Cmd} {P : Bytes} {t : State} (h : exec (commandInstr k P) s = .next t) :
    CommandStep k s t := by
  cases k with
  | ping => cases h; exact commandStep_succeed _ rfl ⟨rfl, rfl, rfl⟩
  | getInfo => cases h; exact commandStep_succeed _ rfl ⟨rfl, rfl, rfl⟩
  | heapInfo => cases h; exact commandStep_succeed _ rfl ⟨rfl, rfl, rfl⟩
  | alloc => cases h; exact allocEffect_commandStep _
  | free => cases h; exact freeEffect_commandStep _
  | writeMem => cases h; exact writeMemEffect_commandStep _
  | readMem => cases h; exact readMemEffect_commandStep _
  | exec =>
    cases h
    cases execForm P with
    | short raw => exact commandStep_fail _ rfl ⟨rfl, rfl, rfl⟩
    | bare a => exact callEffect_commandStep a 0
    | flagged a mf x => exact callEffect_commandStep a mf

end

/-! ### A run of one command -/

/-- The worker is about to step the command `k`: it is alone and awake in `DISPATCH`, and every port can answer. -/
structure Dispatching (k : Cmd) (s : State) : Prop where
  awake  : s.Awake
  alone  : s.Alone
  ready  : s.ready = .all
  st     : s.st = .dispatch
  cmd    : cmdOf s.cfg.cmdIds s.hdr.cmd = some k

theorem Dispatching.step_eq {k : Cmd} {s : State} (h : Dispatching k s) :
    step s = exec (commandInstr k s.payload) s := by
  have hdec : decodeCommand s.cfg.cmdIds s.hdr.cmd s.payload = .ok (commandInstr k s.payload) := by
    simp only [decodeCommand, h.cmd]
  rw [step_alone h.alone, workerStep_dispatch h.awake h.st, dispatch_enabled hdec (enables_of_all h.ready _)]

theorem awake_of_alive {s t : State} (h : s.Awake) (hm : Unmoved s t) (ha : Alive s t) : t.Awake :=
  ⟨ha.run.trans h.running, ha.why.trans h.clear, ha.hung.trans h.free, hm.treq.trans h.request⟩

theorem alone_of_unmoved {s t : State} (h : s.Alone) (hm : Unmoved s t) : t.Alone :=
  ⟨hm.turns.trans h.turns, hm.link.trans h.link⟩

/-- An answer goes out and the framer is back in `SYNC1` (R112, R197). -/
theorem step_respond {t : State} (ha : t.Awake) (hl : t.Alone) (hs : t.st = .respond) :
    ∃ u, step t = .next u ∧ u.st = .sync1 ∧ u.Awake :=
  ⟨t.finishResponse, by rw [step_alone hl, workerStep_respond ha hs], rfl, ha.running, ha.clear, ha.free, ha.request⟩

/-- The ways in which a dispatched packet with the id `c` can end in `t`: answered, stopped by a port fault, or kept by a callee
that never returns (R160, R200, R201). -/
def PacketEnd (ids : CmdIds) (c : Byte) (t : State) : Prop :=
  (t.st = .respond ∧ t.Awake ∧ t.tcmd = c ∧ (t.tflags = 0x00 ∨ t.tflags = 0x01) ∧
      ∃ u, step t = .next u ∧ u.st = .sync1 ∧ u.Awake) ∨
    (t.st = .dispatch ∧ t.run = .faulted ∧ t.why.isSome = true ∧ (c = ids.writeMem ∨ c = ids.readMem)) ∨
    (t.st = .dispatch ∧ t.run = .running ∧ t.hung.isSome = true ∧ c = ids.exec)

/-- A step of a dispatched command ends the packet, or leaves the command dispatching with fewer steps left. -/
theorem Dispatching.step_cases {k : Cmd} {s : State} (h : Dispatching k s) :
    ∃ t, step s = .next t ∧ (PacketEnd s.cfg.cmdIds s.hdr.cmd t ∨
      (Dispatching k t ∧ t.cfg = s.cfg ∧ t.hdr = s.hdr ∧ stepsLeft k t.phase < stepsLeft k s.phase)) := by
  obtain ⟨t, ht, hm, -⟩ := exec_cases (commandInstr k s.payload) s
  have hid : cmdId s.cfg.cmdIds k = s.hdr.cmd := cmdId_of_cmdOf h.cmd
  refine ⟨t, h.step_eq.trans ht, ?_⟩
  cases exec_commandStep ht with
  | answers st tcmd flags alive =>
    have awake := awake_of_alive h.awake hm alive
    exact .inl (.inl ⟨st, awake, tcmd.trans hid, flags, step_respond awake (alone_of_unmoved h.alone hm) st⟩)
  | faults st run why cmd =>
    refine .inl (.inr (.inl ⟨st.trans h.st, run, why, ?_⟩))
    rcases cmd with rfl | rfl
    · exact .inl hid.symm
    · exact .inr hid.symm
  | hangs st run hung cmd =>
    subst cmd
    exact .inl (.inr (.inr ⟨st.trans h.st, run.trans h.awake.running, hung, hid.symm⟩))
  | goesOn st alive left =>
    exact .inr ⟨⟨awake_of_alive h.awake hm alive, alone_of_unmoved h.alone hm, hm.ready.trans h.ready, st.trans h.st,
      by rw [hm.cfg, hm.hdr, h.cmd]⟩, hm.cfg, hm.hdr, left⟩

/-- A dispatched command ends within the steps that it has left. -/
theorem Dispatching.ends {k : Cmd} {s : State} {n : Nat} (h : Dispatching k s) (hn : stepsLeft k s.phase ≤ n) :
    ∃ j t, j ≤ n ∧ runFor j s = .next t ∧ PacketEnd s.cfg.cmdIds s.hdr.cmd t := by
  induction n generalizing s with
  | zero => exact absurd hn (Nat.not_le_of_lt (stepsLeft_bounds k s.phase).1)
  | succ n ih =>
    obtain ⟨t, ht, hend | ⟨ht', hcfg, hhdr, hleft⟩⟩ := h.step_cases
    · exact ⟨1, t, by omega, runFor_one ht, hend⟩
    · obtain ⟨j, u, hj, hu, hend⟩ := ih ht' (by omega)
      rw [hcfg, hhdr] at hend
      exact ⟨1 + j, u, by omega, (runFor_add (runFor_one ht)).trans hu, hend⟩

end Sys2Proof.Machine
end

namespace Sys2Proof.Machine

/-! ### The statements -/

/-- Settles O40: an unknown command is answered in one step, and a command has at most three steps to go. -/
theorem commandsNeverStopTheWorker : Obligations.CommandsNeverStopTheWorker := by
  unfold Obligations.CommandsNeverStopTheWorker
  intro s ha hl hr hs
  cases hk : cmdOf s.cfg.cmdIds s.hdr.cmd with
  | some k => exact (Dispatching.mk ha hl hr hs hk).ends (stepsLeft_bounds k s.phase).2
  | none =>
    have hstep : step s = .next s.unknownCommand := by
      rw [step_alone hl, workerStep_dispatch ha hs, State.dispatch, decodeCommand, hk]
    have awake : s.unknownCommand.Awake := ⟨ha.running, ha.clear, ha.free, ha.request⟩
    exact ⟨1, s.unknownCommand, by omega, runFor_one hstep,
      .inl ⟨rfl, awake, rfl, .inr rfl, step_respond awake ⟨hl.turns, hl.link⟩ rfl⟩⟩

/-- Settles O38: an id that no command has decodes to nothing, and none of the decided ids is 0 or above 8. -/
theorem unknownCommandIsReported : Obligations.UnknownCommandIsReported := by
  unfold Obligations.UnknownCommandIsReported
  intro s ha hs h
  have hnone : ∀ k, cmdId s.cfg.cmdIds k ≠ s.hdr.cmd := by
    rcases h with h | ⟨hids, hc⟩
    · exact h
    · intro k hk
      have hrange := cmdId_decided_range k
      rw [← hids, hk] at hrange
      omega
  rw [workerStep_dispatch ha hs, State.dispatch, decodeCommand_unknown hnone]
  rfl

/-- Settles O41: the answer is the payload, and the packet that goes out is made of it. -/
theorem pingEchoes : Obligations.PingEchoes := by
  unfold Obligations.PingEchoes
  intro s data
  have hpay : (s.succeed .ping data).tpay = data := tpay_respondWith ..
  refine ⟨s.succeed .ping data, rfl, rfl, hpay, ?_⟩
  rw [State.finishResponse, hpay]
  rfl

/-- Settles O42: the line size in use is the query's answer or the default. -/
theorem getInfoAnswersFiveWords : Obligations.GetInfoAnswersFiveWords := by
  unfold Obligations.GetInfoAnswersFiveWords
  intro s body line answered failed
  rw [← lineInUse_eq answered failed]
  rfl

/-- Settles O43: the four words are those of the query's answer. -/
theorem heapInfoAnswersFourCounters : Obligations.HeapInfoAnswersFourCounters := by
  unfold Obligations.HeapInfoAnswersFourCounters
  exact fun s body => rfl

/-- Settles O44: by the alignment, the allocator's answer, and whether the table has a free slot. -/
theorem allocOutcomes : Obligations.AllocOutcomes := by
  unfold Obligations.AllocOutcomes
  refine ⟨fun s raw => rfl, fun s f x hp hg => ?_, fun s f x hp hg => ?_⟩
  · rw [exec_alloc_fresh hp, requestAllocation_badAlignment (goodAlignment_eq_false.mpr hg)]
    rfl
  · have halign := goodAlignment_iff.mpr hg
    refine ⟨fun h0 => ?_, fun pre post u h0 hT hpre hu => ?_, fun h0 hfull => ⟨?_, ?_⟩⟩
    · rw [exec_alloc_fresh hp, requestAllocation_noMemory halign h0]
      rfl
    · rw [exec_alloc_fresh hp,
        requestAllocation_recorded halign h0 (tableAdd_eq_some.mpr ⟨pre, u, post, hT, hpre, hu, rfl⟩)]
      rfl
    · rw [exec_alloc_fresh hp, requestAllocation_tableFull halign h0 (tableAdd_eq_none.mpr hfull)]
      rfl
    · exact exec_alloc_release rfl

/-- Settles O45: by whether an entry starts at the address; with a legal table none starts at 0. -/
theorem freeOutcomes : Obligations.FreeOutcomes := by
  unfold Obligations.FreeOutcomes
  exact ⟨fun s raw => rfl, fun s f x hp h => exec_free_untracked hp h,
    fun s x hp hlegal => exec_free_untracked hp (not_trackedStart_zero hlegal),
    fun s f x pre post u hp hT hpre hused haddr =>
      ⟨exec_free_tracked hp (tableRemove_eq_some.mpr ⟨pre, u, post, hT, hpre, hused, haddr, rfl⟩),
        exec_free_release rfl⟩⟩

/-- Settles O46: the first FREE takes the only entry with the address away, so that the second finds none. -/
theorem secondFreeIsRejected : Obligations.SecondFreeIsRejected := by
  unfold Obligations.SecondFreeIsRejected
  intro s t u f x y hp hone hrun hut hup
  obtain ⟨U, hU⟩ := exists_tableRemove (trackedStart_iff_countP.mpr (hone ▸ Nat.one_pos))
  rw [execFor_succ 1 _ (exec_free_tracked hp hU), execFor_succ 0 _ (exec_free_release rfl)] at hrun
  cases hrun
  have gone : ¬TrackedStart u.table f.address := by
    have hcount := countP_tableRemove hU
    have hUu : u.table = U := hut
    rw [hUu, trackedStart_iff_countP]
    omega
  exact ⟨rfl, tpay_respondWith .., rfl, _, exec_free_untracked hup gone, rfl, rfl, tpay_respondWith .., rfl, rfl⟩

/-- Settles O47: by the bounds check and whether the transfer faults; the query and the sync follow a served one. -/
theorem writeMemOutcomes : Obligations.WriteMemOutcomes := by
  unfold Obligations.WriteMemOutcomes
  refine ⟨fun s raw => rfl, fun s f D hp => ?_⟩
  intro a L t served
  have ht : t = { s with tres := s.rangeAnswer f.mflags a L } := checkRange_rangeAnswer s f.mflags a L
  clear_value t
  subst ht
  refine ⟨fun hskip hrange => ?_, fun hadmit => ⟨fun hfault => ?_, fun hserved => ⟨?_, fun line answered failed =>
    ⟨?_, ?_⟩⟩⟩⟩
  · rw [exec_writeMem_fresh hp, checkedWrite_rejected (admits_eq_false.mpr ⟨hskip, hrange⟩)]
    rfl
  · rw [exec_writeMem_fresh hp, checkedWrite_faulted (admits_iff.mpr hadmit) (memFaults_iff.mpr hfault), State.memAbort,
      State.takeFault, ← hp]
    rfl
  · rw [exec_writeMem_fresh hp, checkedWrite_served (admits_iff.mpr hadmit) (memFaults_eq_false.mpr hserved)]
    rfl
  · rw [exec_writeMem_written rfl, ← lineInUse_eq answered failed]
    rfl
  · rw [exec_writeMem_lineKnown rfl, finishWrite, le32_syncStatus]
    rfl

/-- Settles O49: by the size limit, the bounds check and whether the transfer faults. -/
theorem readMemOutcomes : Obligations.ReadMemOutcomes := by
  unfold Obligations.ReadMemOutcomes
  refine ⟨fun s raw => rfl, fun s f x => ?_⟩
  intro a n t served
  have ht : t = { s with tres := s.rangeAnswer f.mflags a n } := checkRange_rangeAnswer s f.mflags a n
  clear_value t
  subst ht
  refine ⟨fun hn => congrArg Host.Outcome.next (readMemEffect_oversized hn),
    fun hn hskip hrange => congrArg Host.Outcome.next (readMemEffect_rejected hn (admits_eq_false.mpr ⟨hskip, hrange⟩)),
    fun hn hadmit => ?_⟩
  have checked := readMemEffect_admitted (x := x) hn (admits_iff.mpr hadmit)
  refine ⟨fun hfault => ?_, fun hserved => ⟨s.mem.readBytes a n, Memory.length_readBytes .., fun i hi =>
    Memory.getD_readBytes s.mem hi, ?_⟩⟩
  · exact congrArg Host.Outcome.next (checked.trans (transferRead_faulted (memFaults_iff.mpr hfault)))
  · exact congrArg Host.Outcome.next (checked.trans (transferRead_served (memFaults_eq_false.mpr hserved)))

/-- Settles O50: by the check of the entry address and whether the callee returns. -/
theorem execOutcomes : Obligations.ExecOutcomes := by
  unfold Obligations.ExecOutcomes
  refine ⟨fun s raw => rfl, fun s a x => rfl, fun s a mf x => ?_⟩
  intro bounds t called
  have ht : t = { s with tres := s.entryAnswer mf a } := by
    unfold State.entryAnswer
    cases hs : skipBounds mf
    · exact if_neg (Bool.eq_false_iff.mp hs)
    · exact if_pos hs
  clear_value t
  subst ht
  refine ⟨fun hskip hbounds => ?_, fun hadmit => ?_⟩
  · have he : s.entryOk a = false := Bool.eq_false_iff.mpr fun h => hbounds (entryOk_iff.mp h)
    exact congrArg Host.Outcome.next (callEffect_rejected hskip he)
  · have entered := callEffect_entered (hadmit.imp_right entryOk_iff.mpr)
    exact ⟨fun r stores h => congrArg Host.Outcome.next (entered.trans (enterCallee_returns h)),
      fun h => congrArg Host.Outcome.next (entered.trans (enterCallee_never h))⟩

/-- Settles O51: without skip-bounds the checks end each command, and with skip-bounds each goes past them. -/
theorem untrackedRangesAreRejected : Obligations.UntrackedRangesAreRejected := by
  unfold Obligations.UntrackedRangesAreRejected
  refine ⟨fun s t f D h hs hp => ⟨fun hskip hrange => ?_, fun hskip => ?_⟩,
    fun s t f x h hs hn => ⟨fun hskip hrange => ?_, fun hskip => ?_⟩,
    fun s t a mf x h hs => ⟨fun hskip hrange => ?_, fun hskip => ?_⟩⟩
  · obtain rfl := Host.Outcome.next.inj ((exec_writeMem_fresh hp).symm.trans h)
    exact invalidAddr_report (checkedWrite_rejected (admits_eq_false.mpr ⟨hskip, hrange⟩))
  · obtain rfl := Host.Outcome.next.inj ((exec_writeMem_fresh hp).symm.trans h)
    rw [checkedWrite_admitted (admits_iff.mpr (.inl hskip))]
    exact not_reported_transferWrite hs
  · obtain rfl : readMemEffect (.full f x) s = t := Host.Outcome.next.inj h
    exact invalidAddr_report (readMemEffect_rejected hn (admits_eq_false.mpr ⟨hskip, hrange⟩))
  · obtain rfl : readMemEffect (.full f x) s = t := Host.Outcome.next.inj h
    rw [readMemEffect_admitted hn (admits_iff.mpr (.inl hskip))]
    exact not_reported_transferRead hs
  · obtain rfl : callEffect a mf s = t := Host.Outcome.next.inj h
    have he : s.entryOk a = false := Bool.eq_false_iff.mpr fun h => hrange (entryOk_iff.mp h).1
    exact invalidAddr_report (callEffect_rejected hskip he)
  · obtain rfl : callEffect a mf s = t := Host.Outcome.next.inj h
    rw [callEffect_entered (.inl hskip)]
    exact not_reported_enterCallee hs

end Sys2Proof.Machine

section
/-! The cache synchroniser's range: the multiples of the line size around a write (R181). -/

namespace Sys2Proof.Machine

variable {a L S x : Nat}

/-- Rounding down goes to a multiple of the line size that is less than one line back. -/
theorem lineFloor_spec (hS : 1 ≤ S) : S ∣ lineFloor a S ∧ lineFloor a S ≤ a ∧ a < lineFloor a S + S :=
  ⟨Nat.dvd_mul_left S (a / S), Nat.div_mul_le_self a S, Nat.lt_div_mul_add hS⟩

/-- Rounding up is rounding down from one byte short of a line further on. -/
theorem lineCeil_eq_lineFloor : lineCeil x S = lineFloor (x + (S - 1)) S := rfl

/-- Rounding up goes to a multiple of the line size that is less than one line on. -/
theorem lineCeil_spec (hS : 1 ≤ S) : S ∣ lineCeil x S ∧ x ≤ lineCeil x S ∧ lineCeil x S < x + S := by
  obtain ⟨hdvd, hle, hlt⟩ := lineFloor_spec (a := x + (S - 1)) hS
  rw [lineCeil_eq_lineFloor]
  exact ⟨hdvd, by omega, by omega⟩

/-- The aligned range ends at the rounded-up end of the write: its length is not cut off at 0. -/
theorem alignedRange_stop (hS : 1 ≤ S) : (alignedRange a L S).1 + (alignedRange a L S).2 = lineCeil (a + L) S := by
  obtain ⟨-, hfloor, -⟩ := lineFloor_spec (a := a) hS
  obtain ⟨-, hceil, -⟩ := lineCeil_spec (x := a + L) hS
  exact Nat.add_sub_cancel' (hfloor.trans ((Nat.le_add_right a L).trans hceil))

end Sys2Proof.Machine
end

section
/-! The statements about the coherency operation of a write (R180 to R182). -/

namespace Sys2Proof.Machine

/-- Settles O55: the range runs from the address rounded down to the end of the write rounded up. -/
theorem alignedRangeIsTheLeastCover : Obligations.AlignedRangeIsTheLeastCover := by
  unfold Obligations.AlignedRangeIsTheLeastCover
  intro a L S hS start stop
  obtain ⟨hdvd, hle, hlt⟩ : S ∣ start ∧ start ≤ a ∧ a < start + S := lineFloor_spec hS
  have hstop : stop = lineCeil (a + L) S := alignedRange_stop hS
  rw [hstop]
  exact ⟨hdvd, hle, hlt, lineCeil_spec hS⟩

/-- Settles O54: the step after the copy learns the line size, and the step after that syncs and answers. -/
theorem cacheSyncIsOneQueryAndOneSync : Obligations.CacheSyncIsOneQueryAndOneSync := by
  unfold Obligations.CacheSyncIsOneQueryAndOneSync
  refine fun s f D => ⟨fun line hp answered failed => ?_, fun S hp => ?_⟩
  · obtain rfl : s.effectiveLine = line := lineInUse_eq answered failed
    exact ⟨exec_writeMem_written hp, one_le_effectiveLine⟩
  · rw [exec_writeMem_lineKnown hp, finishWrite, le32_syncStatus]
    rfl

end Sys2Proof.Machine
end

section
/-! A block that is stopped: by a set fault mark (R200), or inside a callee that never returns (R201). -/

namespace Sys2Proof.Machine

/-- A started block whose worker can take no step: its fault mark is set, or it is inside a callee that never returns. -/
structure State.Stopped (s : State) : Prop where
  booted : s.run = .running ∨ s.run = .faulted
  stuck  : s.why ≠ none ∨ s.hung ≠ none

/-- What a stopped block keeps: all that is its own but the queue, to which the producer may add; nothing is emitted, but the
host may read a byte. -/
def KeepsBlock (s t : State) : Prop :=
  Outside { s with q := t.q } t ∧ (t.out = s.out ∨ t.out = s.out.tail)

section
variable {s t : State}

/-- A stopped worker waits where it answers a next state at all (R200, R201). -/
theorem State.Stopped.workerStep_eq (h : s.Stopped) (e : s.workerStep = .next t) : t = s := by
  obtain ⟨hwhy, ⟨-, rfl⟩ | ⟨r, -, hhung, -⟩ | ⟨ha, -⟩⟩ := workerStep_cases e
  · rfl
  · exact absurd hhung (h.stuck.resolve_left (not_not_intro hwhy))
  · exact absurd ha.free (h.stuck.resolve_left (not_not_intro hwhy))

/-- A block that was started turns a start away (R220). -/
theorem start_of_booted (h : s.run = .running ∨ s.run = .faulted) (e : s.start = .next t) :
    ∃ r, t = { s with startRes := r } := by
  rcases h with h | h
  · cases (start_running h).symm.trans e
    exact ⟨_, rfl⟩
  · cases (start_faulted h).symm.trans e
    exact ⟨_, rfl⟩

theorem keepsBlock_produce (s : State) : KeepsBlock s s.produce := by
  refine ⟨?_, .inl (produce_out s)⟩
  obtain ⟨b, rest, -, -, e⟩ | o := produce_cases s
  · rw [e]
  · have hq : s.produce.q = s.q := by rw [o]
    rw [hq]
    exact o

/-- A move in a stopped block keeps the block, but for a power-on (R200, R201, R224). -/
theorem State.Stopped.move_keeps {m : Turn} (h : s.Stopped) (e : s.move m = .next t) :
    KeepsBlock s t ∨ ∃ w, m = .powerOn w := by
  cases m with
  | worker =>
    obtain rfl := h.workerStep_eq e
    exact .inl ⟨rfl, .inl rfl⟩
  | producer =>
    cases e
    exact .inl (keepsBlock_produce s)
  | hostSend b =>
    cases e
    exact .inl ⟨rfl, .inl rfl⟩
  | hostRecv =>
    cases e
    exact .inl ⟨rfl, .inr rfl⟩
  | start =>
    obtain ⟨r, rfl⟩ := start_of_booted h.booted e
    exact .inl ⟨rfl, .inl rfl⟩
  | port p b =>
    cases e
    exact .inl ⟨rfl, .inl rfl⟩
  | powerOn w => exact .inr ⟨w, rfl⟩

/-- A step of a stopped block keeps the block, but for a power-on that `turns` names. -/
theorem State.Stopped.step_keeps (h : s.Stopped) (e : step s = .next t) :
    KeepsBlock s t ∨ ∃ ts w, s.turns = .powerOn w :: ts := by
  obtain ⟨u, m, hu, hm, ht⟩ := step_cases e
  have stopped : u.Stopped := by
    rw [hu]
    exact ⟨h.booted, h.stuck⟩
  obtain ⟨keeps, out⟩ | ⟨w, rfl⟩ := stopped.move_keeps hm
  · rw [hu] at keeps out
    exact .inl ⟨keeps, out⟩
  · obtain ⟨ts, hts⟩ | ⟨-, hpick⟩ := ht
    · exact .inr ⟨ts, w, hts⟩
    · simp at hpick

end

/-- Settles O58: a fault mark stops the block, whose status is then `FAULTED`. -/
theorem faultMarkIsNeverCleared : Obligations.FaultMarkIsNeverCleared := by
  unfold Obligations.FaultMarkIsNeverCleared
  intro s f hi hf
  have hrun : s.run = .faulted := hi.mark.mpr (by rw [hf]; rfl)
  have stopped : s.Stopped := ⟨.inr hrun, .inl (by simp [hf])⟩
  refine ⟨workerStep_faulted hf, fun t e => (stopped.step_keeps e).imp_left ?_⟩
  rintro ⟨keeps, out⟩
  rw [keeps]
  exact ⟨hf, hrun, rfl, rfl, rfl, out⟩

/-- Settles O59: a callee that never returns stops the block, which is then running and in `DISPATCH`. -/
theorem hungCalleeKeepsTheBlock : Obligations.HungCalleeKeepsTheBlock := by
  unfold Obligations.HungCalleeKeepsTheBlock
  intro s a hi ha
  obtain ⟨hrun, hst⟩ := hi.inCallee (by rw [ha]; rfl)
  have stopped : s.Stopped := ⟨.inl hrun, .inr (by simp [ha])⟩
  have clear : s.why = none := hi.why_none (by simp [hrun])
  refine ⟨workerStep_waits clear (by simp [ha]), fun t e => (stopped.step_keeps e).imp_left ?_⟩
  rintro ⟨keeps, out⟩
  rw [keeps]
  exact ⟨ha, hst, hrun, rfl, rfl, out⟩

end Sys2Proof.Machine
end

section
/-! Error reports: the ways in which a step of an instruction can report an error, and what each of them leaves (R196). -/

namespace Sys2Proof.Machine

/-- The ways in which a step of an instruction can report an error (R151 to R160, R196): a check fails, which may have asked
the lookup engine; the allocator had no memory for ALLOC; or ALLOC has released the memory that it found no slot for. -/
inductive Report (s : State) : Instr → State → Prop
  | checked {i : Instr} (k : Cmd) (e : ErrCode) (r : TrackerResult) (code : e ≠ .ok ∧ e ≠ .cacheSync) :
      Report s i ({ s with tres := r }.fail k e)
  | noMemory (f : AllocFields) (x : Bytes) (answer : s.allocAnswer = 0) :
      Report s (.alloc (.full f x)) ((s.callAlloc f.size f.caps f.alignment).fail .alloc .alloc)
  | released (f : AllocFields) (x : Bytes) (a : Word) (phase : s.phase = .release a) :
      Report s (.alloc (.full f x)) ((s.callFree a).fail .alloc .alloc)

section
variable {s t : State}

/-! ### Command by command -/

/-- A payload that is too short, or a READMEM above the maximum, is reported without a lookup (R86, R157). -/
theorem report_malformed (i : Instr) (k : Cmd) : Report s i (s.fail k .malformed) :=
  .checked k .malformed s.tres (by decide)

theorem report_invalidAddr (i : Instr) (k : Cmd) (r : TrackerResult) :
    Report s i ({ s with tres := r }.fail k .invalidAddr) :=
  .checked k .invalidAddr r (by decide)

/-- ALLOC with a full payload requests memory, or releases what it found no slot for (R154). -/
theorem exec_alloc_cases {f : AllocFields} {x : Bytes} (h : exec (.alloc (.full f x)) s = .next t) :
    t = requestAllocation f s ∨ ∃ a, s.phase = .release a ∧ t = (s.callFree a).fail .alloc .alloc := by
  obtain rfl : allocEffect (.full f x) s = t := Host.Outcome.next.inj h
  unfold allocEffect
  dsimp only
  split
  next a hp => exact .inr ⟨a, hp, rfl⟩
  all_goals exact .inl rfl

/-- FREE with a full payload removes the entry, or tells the allocator once the entry is gone (R155). -/
theorem exec_free_cases {f : FreeFields} {x : Bytes} (h : exec (.free (.full f x)) s = .next t) :
    t = untrack f.address s ∨
      ∃ a, s.phase = .release a ∧ t = (s.callFree a).succeed .free (le32 (ErrCode.ok.code s.cfg.errCodes)) := by
  obtain rfl : freeEffect (.full f x) s = t := Host.Outcome.next.inj h
  unfold freeEffect
  dsimp only
  split
  next a hp => exact .inr ⟨a, hp, rfl⟩
  all_goals exact .inl rfl

theorem report_alloc {o : Form AllocFields} (hs : s.st = .dispatch) (h : exec (.alloc o) s = .next t) (ht : t.Reported) :
    Report s (.alloc o) t := by
  cases o with
  | short raw =>
    cases h
    exact report_malformed _ _
  | full f x =>
    obtain rfl | ⟨a, hp, rfl⟩ := exec_alloc_cases h
    · obtain ⟨-, e⟩ | ⟨-, h0, e⟩ | ⟨-, -, -, e⟩ | ⟨-, -, -, e⟩ := requestAllocation_cases f s <;> rw [e] at ht ⊢
      · exact .checked .alloc .alloc s.tres (by decide)
      · exact .noMemory f x h0
      · exact absurd ht (not_reported_of_dispatch hs)
      · exact absurd ht (not_reported_succeed _ _ _)
    · exact .released f x a hp

theorem report_free {o : Form FreeFields} (hs : s.st = .dispatch) (h : exec (.free o) s = .next t) (ht : t.Reported) :
    Report s (.free o) t := by
  cases o with
  | short raw =>
    cases h
    exact report_malformed _ _
  | full f x =>
    obtain rfl | ⟨a, -, rfl⟩ := exec_free_cases h
    · obtain ⟨-, e⟩ | ⟨-, e⟩ := untrack_cases f.address s <;> rw [e] at ht ⊢
      · exact report_invalidAddr _ _ _
      · exact absurd ht (not_reported_of_dispatch hs)
    · exact absurd ht (not_reported_succeed _ _ _)

theorem report_writeMem {o : Form WriteFields} (hs : s.st = .dispatch) (h : exec (.writeMem o) s = .next t)
    (ht : t.Reported) : Report s (.writeMem o) t := by
  cases o with
  | short raw =>
    cases h
    exact report_malformed _ _
  | full f D =>
    cases exec_writeMem_step h with
    | rejected phase admits r => exact report_invalidAddr _ _ _
    | faulted phase admits faults r => exact absurd ht (not_reported_of_dispatch hs)
    | copied phase admits served r => exact absurd ht (not_reported_of_dispatch hs)
    | learned phase => exact absurd ht (not_reported_of_dispatch hs)
    | finished S phase => exact absurd ht (not_reported_succeed _ _ _)

theorem report_readMem {o : Form ReadFields} (hs : s.st = .dispatch) (h : exec (.readMem o) s = .next t)
    (ht : t.Reported) : Report s (.readMem o) t := by
  obtain rfl : readMemEffect o s = t := Host.Outcome.next.inj h
  cases o with
  | short raw => exact report_malformed _ _
  | full f x =>
    obtain ⟨-, e⟩ | ⟨-, r, ⟨-, e⟩ | ⟨-, -, e⟩ | ⟨-, -, e⟩⟩ := readMemEffect_cases f x s <;> rw [e] at ht ⊢
    · exact report_malformed _ _
    · exact report_invalidAddr _ _ _
    · exact absurd ht (not_reported_of_dispatch hs)
    · exact absurd ht (not_reported_succeed _ _ _)

theorem report_call {a : Word} {mf : Byte} (i : Instr) (hs : s.st = .dispatch) (ht : (callEffect a mf s).Reported) :
    Report s i (callEffect a mf s) := by
  obtain ⟨r, ⟨-, e⟩ | ⟨-, v, w, -, e⟩ | ⟨-, -, e⟩⟩ := callEffect_cases a mf s <;> rw [e] at ht ⊢
  · exact report_invalidAddr _ _ _
  · exact absurd ht (not_reported_succeed _ _ _)
  · exact absurd ht (not_reported_of_dispatch hs)

theorem report_exec {o : ExecForm} (hs : s.st = .dispatch) (h : exec (.exec o) s = .next t) (ht : t.Reported) :
    Report s (.exec o) t := by
  obtain rfl : execEffect o s = t := Host.Outcome.next.inj h
  cases o with
  | short raw => exact report_malformed _ _
  | bare a => exact report_call _ hs ht
  | flagged a mf x => exact report_call _ hs ht

/-- Every error report of an instruction is one of those: the commands that answer at once report none, and a request of the
lookup engine answers at its port (R152, R153, R159, R130). -/
theorem exec_report {i : Instr} (hs : s.st = .dispatch) (h : exec i s = .next t) (ht : t.Reported) : Report s i t := by
  cases i with
  | alloc o => exact report_alloc hs h ht
  | free o => exact report_free hs h ht
  | writeMem o => exact report_writeMem hs h ht
  | readMem o => exact report_readMem hs h ht
  | exec o => exact report_exec hs h ht
  | ping data => cases h; exact absurd ht (not_reported_succeed _ _ _)
  | getInfo body => cases h; exact absurd ht (not_reported_succeed _ _ _)
  | heapInfo body => cases h; exact absurd ht (not_reported_succeed _ _ _)
  | trackerAdd a sz => cases h; exact absurd ht (not_reported_of_dispatch hs)
  | trackerRemove a => cases h; exact absurd ht (not_reported_of_dispatch hs)
  | trackerContains a => cases h; exact absurd ht (not_reported_of_dispatch hs)
  | trackerValidate a sz => cases h; exact absurd ht (not_reported_of_dispatch hs)

/-! ### What a report leaves -/

/-- No report changes the table, device memory or the instruction-fetch view (R196). -/
theorem Report.keeps {i : Instr} (h : Report s i t) :
    t.table = s.table ∧ t.mem = s.mem ∧ t.past = s.past ∧ t.dirty = s.dirty := by
  cases h <;> exact ⟨rfl, rfl, rfl, rfl⟩

/-- A report's payload is the error's code, and the error is none that a success answers with (R76, R183). -/
theorem Report.payload {i : Instr} (h : Report s i t) :
    ∃ e : ErrCode, t.tpay = le32 (e.code s.cfg.errCodes) ∧ e ≠ .ok ∧ e ≠ .cacheSync := by
  cases h with
  | checked k e r code => exact ⟨e, tpay_respondWith .., code⟩
  | noMemory f x answer => exact ⟨.alloc, tpay_respondWith .., by decide⟩
  | released f x a phase => exact ⟨.alloc, tpay_respondWith .., by decide⟩

/-- Only ALLOC's reports come with a port transaction (R154, R196). -/
theorem Report.log_eq {i : Instr} (h : Report s i t) : t.log = s.log ∨
    ∃ (f : AllocFields) (x : Bytes), i = .alloc (.full f x) ∧
      (t.log = s.log ++ [.alloc f.size f.caps f.alignment 0] ∨ ∃ a, s.phase = .release a ∧ t.log = s.log ++ [.free a]) := by
  cases h with
  | checked k e r code => exact .inl rfl
  | noMemory f x answer => exact .inr ⟨f, x, rfl, .inl (by rw [← answer]; rfl)⟩
  | released f x a phase => exact .inr ⟨f, x, rfl, .inr ⟨a, phase, rfl⟩⟩

/-- An ALLOC that goes on has asked for memory with every slot in use, and changes nothing but the allocator's part (R154). -/
theorem exec_alloc_goesOn {f : AllocFields} {x : Bytes} (h : exec (.alloc (.full f x)) s = .next t)
    (ht : t.st = .dispatch) : (∀ v ∈ s.table, v.used = true) ∧
      t = { s.callAlloc f.size f.caps f.alignment with tres := .tableFull, phase := .release s.allocAnswer } := by
  obtain rfl | ⟨a, -, rfl⟩ := exec_alloc_cases h
  · obtain ⟨-, e⟩ | ⟨-, -, e⟩ | ⟨hg, h0, hT, -⟩ | ⟨-, -, -, e⟩ := requestAllocation_cases f s
    · rw [e] at ht; cases ht
    · rw [e] at ht; cases ht
    · exact ⟨tableAdd_eq_none.mp hT, requestAllocation_tableFull hg h0 hT⟩
    · rw [e] at ht; cases ht
  · cases ht

end

/-- Settles O39: a report is one of the three ways; an ALLOC that goes on leaves its release to come; a WRITEMEM past its copy
only queries, or succeeds; a FREE past its removal succeeds. -/
theorem errorReportsArePrecise : Obligations.ErrorReportsArePrecise := by
  unfold Obligations.ErrorReportsArePrecise
  refine ⟨fun s c e => ⟨rfl, tpay_respondWith ..⟩, fun i s t hs h hst hfl => ?_, fun f x s t _ h ht => ?_,
    fun f D s t hs hp h => ?_, fun f x a s t hp h => ?_⟩
  · have report := exec_report hs h ⟨hst, hfl⟩
    obtain ⟨table, mem, past, dirty⟩ := report.keeps
    exact ⟨table, mem, past, dirty, report.payload, report.log_eq⟩
  · obtain ⟨used, rfl⟩ := exec_alloc_goesOn h ht
    exact ⟨s.allocAnswer, rfl, rfl, used, rfl, rfl, rfl, rfl⟩
  · obtain hp | ⟨S, hp⟩ := hp
    · cases (exec_writeMem_written hp).symm.trans h
      exact not_reported_of_dispatch hs
    · cases (exec_writeMem_lineKnown hp).symm.trans h
      exact not_reported_succeed _ _ _
  · cases (exec_free_release hp).symm.trans h
    exact ⟨rfl, rfl⟩

end Sys2Proof.Machine
end

section
/-! Each agent's turn comes (R199, R231): a producer's move leaves a worker with an enabled step ready, and the worker, while
the producer makes no move, comes to where it has no step. -/

namespace Sys2Proof.Machine

section
variable {s t : State}

/-! ### A worker with an enabled step -/

theorem workerReady_iff : s.workerReady = true ↔
    s.run = .running ∧ s.why = none ∧ s.hung = none ∧ (s.treq.isSome = true ∨ s.framerReady = true) := by
  simp [State.workerReady, and_assoc]

/-- What a framer with a step has: a byte to take, the sums to compare, a command whose port can answer or an unknown one, or
a response (R12, R100). -/
theorem framerReady_cases (h : s.framerReady = true) :
    (s.st.consumes = true ∧ ∃ b rest, s.q = b :: rest) ∨ s.st = .verify ∨
    (s.st = .dispatch ∧ ∃ k, cmdOf s.cfg.cmdIds s.hdr.cmd = some k ∧ s.enables (commandInstr k s.payload) = true) ∨
    (s.st = .dispatch ∧ cmdOf s.cfg.cmdIds s.hdr.cmd = none) ∨ s.st = .respond := by
  unfold State.framerReady at h
  cases hs : s.st <;> simp only [hs] at h
  case verify => exact .inr (.inl rfl)
  case respond => exact .inr (.inr (.inr (.inr rfl)))
  case dispatch =>
    cases hk : cmdOf s.cfg.cmdIds s.hdr.cmd with
    | none => exact .inr (.inr (.inr (.inl ⟨rfl, rfl⟩)))
    | some k =>
      simp only [decodeCommand, hk] at h
      exact .inr (.inr (.inl ⟨rfl, k, rfl, h⟩))
  all_goals exact .inl ⟨rfl, List.exists_cons_of_ne_nil (by simpa using h)⟩

/-- The producer writes the queue, the link and its draws only, and leaves a byte in a queue that had one (R31). -/
theorem produce_frame (s : State) :
    s.produce = { s with q := s.produce.q, link := s.produce.link, ans := s.produce.ans, draws := s.produce.draws } ∧
      (s.produce.q = [] → s.q = []) := by
  unfold State.produce
  split
  · exact ⟨rfl, id⟩
  · split
    · exact ⟨rfl, fun h => (List.append_eq_nil_iff.mp h).1⟩
    · exact ⟨rfl, id⟩

/-- Only an emptied queue can take the framer's step away, among what the producer writes. -/
theorem framerReady_queued {q : Bytes} (l : Bytes) (an : Answers) (d n : Nat) (hq : q = [] → s.q = [])
    (h : s.framerReady = true) :
    State.framerReady { s with q := q, link := l, ans := an, draws := d, lead := n } = true := by
  unfold State.framerReady at h ⊢
  cases hs : s.st <;> simp only [hs] at h ⊢
  case dispatch => exact h
  all_goals
    simp only [Bool.not_eq_true', List.isEmpty_eq_false_iff] at h ⊢
    exact mt hq h

/-- A move of the producer leaves a worker with an enabled step ready (R231). -/
theorem workerReady_produce (n : Nat) (h : s.workerReady = true) :
    ({ s with lead := n } : State).produce.workerReady = true := by
  obtain ⟨hrun, hwhy, hhung, hstep⟩ := workerReady_iff.mp h
  obtain ⟨e, hq⟩ := produce_frame { s with lead := n }
  rw [e]
  exact workerReady_iff.mpr ⟨hrun, hwhy, hhung, hstep.imp_right (framerReady_queued _ _ _ n hq)⟩

/-! ### The worker's turn -/

/-- A state that differs from `s` in what the producer and the choice of the agent write. -/
abbrev OnlyProduced (s u : State) : Prop :=
  u = { s with q := u.q, link := u.link, ans := u.ans, draws := u.draws, lead := u.lead }

/-- With no byte on the link, or the producer's lead used up, a worker with an enabled step moves (R199). -/
theorem step_worker (ht : s.turns = []) (hr : s.workerReady = true) (h : s.link = [] ∨ s.lead = 0) :
    ∃ n d, step s = { s with lead := n, draws := d }.workerStep := by
  by_cases hl : s.link = []
  · exact ⟨s.lead, s.draws, step_alone ⟨ht, hl⟩⟩
  · have hz := h.resolve_left hl
    obtain ⟨n, hn, -⟩ | ⟨-, e⟩ := step_ready ht hl hr
    · omega
    · exact ⟨_, _, e⟩

/-- A worker with an enabled step takes it after at most `lead` moves of the producer (R231). -/
theorem worker_turn_comes {n : Nat} (hn : s.lead = n) (ht : s.turns = []) (hr : s.workerReady = true) :
    ∃ k u, k ≤ n ∧ runFor k s = .next u ∧ u.workerReady = true ∧ OnlyProduced s u ∧
      ∃ m d, step u = { u with lead := m, draws := d }.workerStep := by
  induction n generalizing s with
  | zero => exact ⟨0, s, le_rfl, rfl, hr, rfl, step_worker ht hr (.inr hn)⟩
  | succ n ih =>
    by_cases hl : s.link = []
    · exact ⟨0, s, Nat.zero_le _, rfl, hr, rfl, step_worker ht hr (.inl hl)⟩
    obtain ⟨m, hm, e⟩ | ⟨hz, -⟩ := step_ready ht hl hr
    · obtain rfl : m = n := by omega
      have frame := (produce_frame { s with lead := m }).1
      obtain ⟨k, u, hk, hu, hur, hsu, hlast⟩ := ih (s := ({ s with lead := m } : State).produce) (by rw [frame])
        (by rw [frame]; exact ht) (workerReady_produce m hr)
      rw [frame] at hsu
      exact ⟨1 + k, u, by omega, (runFor_add (runFor_one e)).trans hu, hur, hsu, hlast⟩
    · omega

/-! ### The producer's turn -/

/-- How many steps of the worker a framer state stands for, at most, before the next byte is taken. -/
def State.stage (s : State) : Nat :=
  match s.st with
  | .verify => 5
  | .dispatch =>
    match cmdOf s.cfg.cmdIds s.hdr.cmd with
    | some k => 1 + stepsLeft k s.phase
    | none => 2
  | .respond => 1
  | .sync1 | .sync2 | .hdr | .payload | .csum | .drain => 0

/-- A bound on the worker's steps while no byte joins the queue: a byte taken is worth more than what it can lead to. -/
def State.workLeft (s : State) : Nat :=
  6 * s.q.length + s.stage + if s.treq.isSome then 1 else 0

theorem stage_le (s : State) : s.stage ≤ 5 := by
  unfold State.stage
  split
  · exact le_rfl
  · split
    next k _ => have := (stepsLeft_bounds k s.phase).2; omega
    next => decide
  all_goals decide

theorem stage_of_consumes (h : s.st.consumes = true) : s.stage = 0 := by
  cases hs : s.st <;> simp only [hs, FramerState.consumes, Bool.false_eq_true] at h <;> simp only [State.stage, hs]

theorem stage_verify (h : s.st = .verify) : s.stage = 5 := by simp only [State.stage, h]

theorem stage_respond (h : s.st = .respond) : s.stage = 1 := by simp only [State.stage, h]

theorem stage_command {k : Cmd} (h : s.st = .dispatch) (hk : cmdOf s.cfg.cmdIds s.hdr.cmd = some k) :
    s.stage = 1 + stepsLeft k s.phase := by
  simp only [State.stage, h, hk]

theorem stage_unknown (h : s.st = .dispatch) (hk : cmdOf s.cfg.cmdIds s.hdr.cmd = none) : s.stage = 2 := by
  simp only [State.stage, h, hk]

theorem stage_dispatch_le (h : s.st = .dispatch) : 2 ≤ s.stage ∧ s.stage ≤ 4 := by
  cases hk : cmdOf s.cfg.cmdIds s.hdr.cmd with
  | none => rw [stage_unknown h hk]; omega
  | some k =>
    rw [stage_command h hk]
    have := stepsLeft_bounds k s.phase
    omega

/-- One step of the worker on its way to where it has none: it leaves the link and the moves to come alone, and then has no
step or less work. -/
structure Progressed (s t : State) : Prop where
  turns : t.turns = s.turns
  link  : t.link = s.link
  less  : t.workerReady = false ∨ t.workLeft < s.workLeft

/-- With the queue and the lookup engine's port as they were, the framer's state tells the work. -/
theorem progressed_of_stage (turns : t.turns = s.turns) (link : t.link = s.link) (q : t.q = s.q) (treq : t.treq = s.treq)
    (stage : t.stage < s.stage) : Progressed s t := by
  refine ⟨turns, link, .inr ?_⟩
  simp only [State.workLeft, q, treq]
  omega

/-- A byte taken leaves the moves to come, the link and the lookup engine's port alone. -/
theorem takeByte_outer (s : State) (b : Byte) :
    (s.takeByte b).turns = s.turns ∧ (s.takeByte b).link = s.link ∧ (s.takeByte b).treq = s.treq := by
  obtain ⟨_, _, _, _, _, _, _, e⟩ := takeByte_frame s b
  rw [e]
  exact ⟨rfl, rfl, rfl⟩

theorem progressed_take {b : Byte} {rest : Bytes} (hq : s.q = b :: rest) :
    Progressed s (({ s with q := rest } : State).takeByte b) := by
  have hstage := stage_le (({ s with q := rest } : State).takeByte b)
  obtain ⟨turns, link, treq⟩ := takeByte_outer { s with q := rest } b
  refine ⟨turns, link, .inr ?_⟩
  simp only [State.workLeft, takeByte_q, treq, hq, List.length_cons]
  omega

theorem progressed_verify (hs : s.st = .verify) : Progressed s s.verifySum := by
  obtain ⟨-, e⟩ | ⟨-, e⟩ := verifySum_cases s <;> rw [e]
  · refine progressed_of_stage rfl rfl rfl rfl ?_
    have := stage_dispatch_le (s := { s with st := .dispatch }) rfl
    rw [stage_verify hs]
    omega
  · exact progressed_of_stage rfl rfl rfl rfl (by rw [stage_verify hs, stage_respond rfl]; decide)

/-- A command answers, stops the worker, or has fewer steps left. -/
theorem progressed_command {k : Cmd} (hs : s.st = .dispatch) (hk : cmdOf s.cfg.cmdIds s.hdr.cmd = some k)
    (h : exec (commandInstr k s.payload) s = .next t) : Progressed s t := by
  have hm : Unmoved s t := (exec_next h).1
  have stopped (hn : ¬(t.run = .running ∧ t.hung = none)) : Progressed s t :=
    ⟨hm.turns, hm.link, .inl (Bool.eq_false_iff.mpr fun hr => by
      obtain ⟨hrun, -, hhung, -⟩ := workerReady_iff.mp hr
      exact hn ⟨hrun, hhung⟩)⟩
  have nearer := progressed_of_stage hm.turns hm.link hm.q hm.treq
  cases exec_commandStep h with
  | answers st tcmd flags alive =>
    refine nearer ?_
    have := stage_dispatch_le hs
    rw [stage_respond st]
    omega
  | faults st run why cmd => exact stopped (by simp [run])
  | hangs st run hung cmd => exact stopped fun hn => by simp [hn.2] at hung
  | goesOn st alive left =>
    refine nearer ?_
    rw [stage_command hs hk, stage_command (st.trans hs) (by rw [hm.cfg, hm.hdr, hk])]
    omega

theorem framer_progresses (ha : s.Awake) (h : s.framerReady = true) : ∃ t, s.workerStep = .next t ∧ Progressed s t := by
  obtain ⟨hc, b, rest, hq⟩ | hs | ⟨hs, k, hk, he⟩ | ⟨hs, hk⟩ | hs := framerReady_cases h
  · exact ⟨_, workerStep_take ha hc hq, progressed_take hq⟩
  · exact ⟨_, workerStep_verify ha hs, progressed_verify hs⟩
  · obtain ⟨t, ht, -⟩ := exec_cases (commandInstr k s.payload) s
    have hdec : decodeCommand s.cfg.cmdIds s.hdr.cmd s.payload = .ok (commandInstr k s.payload) := by
      simp only [decodeCommand, hk]
    exact ⟨t, (workerStep_dispatch ha hs).trans ((dispatch_enabled hdec he).trans ht), progressed_command hs hk ht⟩
  · have hdec : decodeCommand s.cfg.cmdIds s.hdr.cmd s.payload = .error (.unknownCommand s.hdr.cmd) := by
      simp only [decodeCommand, hk]
    refine ⟨_, (workerStep_dispatch ha hs).trans (dispatch_unknown hdec), progressed_of_stage rfl rfl rfl rfl ?_⟩
    rw [stage_unknown hs hk, stage_respond rfl]
    decide
  · refine ⟨_, workerStep_respond ha hs, progressed_of_stage rfl rfl rfl rfl ?_⟩
    rw [stage_respond hs, stage_of_consumes rfl]
    decide

/-- A worker with an enabled step answers a next state, with no step left or less work. -/
theorem workerStep_progresses (h : s.workerReady = true) : ∃ t, s.workerStep = .next t ∧ Progressed s t := by
  obtain ⟨hrun, hwhy, hhung, hstep⟩ := workerReady_iff.mp h
  cases hq : s.treq with
  | none => exact framer_progresses ⟨hrun, hwhy, hhung, hq⟩ (hstep.resolve_left (by simp [hq]))
  | some r =>
    obtain ⟨t, ht, -⟩ := exec_cases (decodeRequest r) { s with treq := none }
    refine ⟨t, (workerStep_serves hwhy ⟨hrun, hhung⟩ hq).trans ht, ?_⟩
    obtain ⟨T, x, rfl⟩ := exec_decodeRequest_frame ht
    refine ⟨rfl, rfl, .inr ?_⟩
    simp only [State.workLeft, hq]
    exact Nat.lt_succ_self _

/-- A producer with a byte offers it after steps of the worker only: the worker runs out of steps while no byte is queued for
it (R231). -/
theorem producer_turn_comes (ht : s.turns = []) (hl : s.link ≠ []) :
    ∃ k u, runFor k s = .next u ∧ u.link = s.link ∧ ∃ n, step u = .next ({ u with lead := n } : State).produce := by
  induction hw : s.workLeft using Nat.strong_induction_on generalizing s with
  | _ w ih =>
    cases hr : s.workerReady with
    | false => exact ⟨0, s, rfl, rfl, s.lead, step_unready ht hl hr⟩
    | true =>
      obtain ⟨n, -, e⟩ | ⟨-, e⟩ := step_ready ht hl hr
      · exact ⟨0, s, rfl, rfl, n, e⟩
      · obtain ⟨t, hstep, turns, link, less⟩ :=
          workerStep_progresses (s := { s with lead := Config.freeLead s.draws, draws := s.draws + 1 }) hr
        have first := runFor_one (e.trans hstep)
        have hl' : t.link ≠ [] := by rwa [link]
        rcases less with idle | less
        · exact ⟨1, t, first, link, t.lead, step_unready (turns.trans ht) hl' idle⟩
        · obtain ⟨k, u, hu, hul, hlast⟩ := ih t.workLeft (hw ▸ less) (turns.trans ht) hl' rfl
          exact ⟨1 + k, u, (runFor_add first).trans hu, hul.trans link, hlast⟩

end

/-- Settles O8: the default picks the only agent that can move; the producer's lead counts down to the worker's move, and the
worker's work runs out before the producer's. -/
theorem stepIsOneAgentsMove : Obligations.StepIsOneAgentsMove := by
  unfold Obligations.StepIsOneAgentsMove
  refine ⟨fun s m ms h => step_given h, fun s h => step_alone h, fun s ht hl hr => step_unready ht hl hr,
    fun s ht hl hr => ?_, fun s ht hr => worker_turn_comes rfl ht hr, fun s ht hl => producer_turn_comes ht hl⟩
  obtain produced | ⟨hz, e⟩ := step_ready ht hl hr
  · exact .inl produced
  · exact .inr ⟨hz, _, e⟩

end Sys2Proof.Machine
end

section
/-! Start and power-on: what each start answers and leaves (R220 to R222), the negotiated maximum (R223), and what a power-on
discards (R224). -/

namespace Sys2Proof.Machine

section
variable {s t : State}

/-! ### The start procedure, case by case -/

/-- A buffer's allocation asks the large pool, and the small one only where the large one has no memory (R220). -/
theorem obtainBuffer_eq (s : State) (w : Word) :
    s.obtainBuffer w =
      if s.bufferAnswer then { s with
          ans := { s.ans with buffers := s.ans.buffers.tail }, draws := s.draws + 1
          log := s.log ++ [.bufAlloc w .large true] }
      else { s with
          ans := { s.ans with buffers := s.ans.buffers.tail.tail }, draws := s.draws + 2
          log := s.log ++ [.bufAlloc w .large false, .bufAlloc w .small (s.bufferObtained w)] } := by
  cases h : s.bufferAnswer <;>
    simp [State.obtainBuffer, State.bufferObtained, State.bufAlloc, State.transact, h]

/-- With both buffers the procedure ends in `STARTED` (R220). -/
theorem boot_started (hrx : s.bufferObtained s.cfg.rxBufSize = true)
    (htx : (s.obtainBuffer s.cfg.rxBufSize).bufferObtained s.cfg.txBufSize = true) :
    s.boot = ((s.obtainBuffer s.cfg.rxBufSize).obtainBuffer s.cfg.txBufSize).started := by
  simp only [State.boot, hrx, htx, Bool.and_self, if_true]

/-- Without one of the buffers the procedure ends in `START_FAILED` (R220, R222). -/
theorem boot_startFailed (h : ¬(s.bufferObtained s.cfg.rxBufSize = true ∧
      (s.obtainBuffer s.cfg.rxBufSize).bufferObtained s.cfg.txBufSize = true)) :
    s.boot = ((s.obtainBuffer s.cfg.rxBufSize).obtainBuffer s.cfg.txBufSize).startFailed
      (s.bufferObtained s.cfg.rxBufSize) ((s.obtainBuffer s.cfg.rxBufSize).bufferObtained s.cfg.txBufSize) :=
  if_neg (by rwa [Bool.and_eq_true])

theorem length_freshBuffer (d n : Nat) : (freshBuffer d n).length = n := by
  simp [freshBuffer]

/-- A start after which the block runs has ended in `STARTED`, under an accepted configuration (R220, R223). -/
theorem started_of_start (hs : s.run = .idle ∨ s.run = .failed) (h : s.start = .next t) (ht : t.run = .running) :
    configOk s.cfg = true ∧ ∃ u, Outside s u ∧ t = u.started := by
  obtain o | ⟨-, hc, rfl⟩ := start_cases h
  · have hrun : t.run = s.run := by rw [o]
    rw [← hrun, ht] at hs
    simp at hs
  · obtain ⟨u, o, e | ⟨rx, tx, e⟩⟩ := boot_cases s
    · exact ⟨hc, u, o, e⟩
    · rw [e] at ht
      cases ht

/-! ### The negotiated maximum -/

theorem twenty_le_negotiatedMax {c : Config} (h : configOk c = true) : 20 ≤ (negotiatedMax c).toNat := by
  simp only [configOk, Bool.and_eq_true, decide_eq_true_eq] at h
  obtain ⟨⟨⟨⟨hmax, -⟩, -⟩, -⟩, -⟩ := h
  exact hmax

@[simp] theorem takeByte_maxPayload (s : State) (b : Byte) : (s.takeByte b).maxPayload = s.maxPayload := by
  obtain ⟨_, _, _, _, _, _, _, e⟩ := takeByte_frame s b
  rw [e]

@[simp] theorem verifySum_maxPayload (s : State) : s.verifySum.maxPayload = s.maxPayload := by
  rcases verifySum_cases s with ⟨-, e⟩ | ⟨-, e⟩ <;> simp [e]

/-- Only a start from `IDLE` or `FAILED` and a power-on write the negotiated maximum (R223, R224). -/
theorem moved_maxPayload {m : Turn} (h : Moved s t m) :
    t.maxPayload = s.maxPayload ∨ (s.run = .idle ∨ s.run = .failed) ∨ t.run = .idle := by
  cases h with
  | outside h => exact .inl (by rw [h])
  | delivered b rest link room h => exact .inl (by rw [h])
  | served r req h => exact .inl (exec_next h).1.maxPayload
  | took awake consumes b rest q h => exact .inl (by rw [h, takeByte_maxPayload])
  | compared awake st h => exact .inl (by rw [h, verifySum_maxPayload])
  | ran awake st k cmd h => exact .inl (exec_next h).1.maxPayload
  | unknown awake h => exact .inl (by rw [h]; rfl)
  | responded awake st h => exact .inl (by rw [h]; rfl)
  | started idle config u o h => exact .inr (.inl idle)
  | startFailed idle u o rx tx h => exact .inr (.inl idle)
  | poweredOn w h => exact .inr (.inr (by rw [h]; rfl))

/-- While the engine runs, no step writes the negotiated maximum (R223). -/
theorem step_maxPayload (hs : s.run = .running) (h : step s = .next t) (ht : t.run = .running) :
    t.maxPayload = s.maxPayload := by
  obtain ⟨u, m, hu, hm, -⟩ := step_moved h
  have hmax : u.maxPayload = s.maxPayload := by rw [hu]
  have hrun : u.run = s.run := by rw [hu]
  obtain kept | idle | idle := moved_maxPayload hm
  · exact kept.trans hmax
  · rw [hrun, hs] at idle
    simp at idle
  · rw [ht] at idle
    cases idle

end

/-! ### The statements -/

/-- Settles O5: the two allocations decide between `STARTED` and `START_FAILED`, and in every other status a start is turned
away. -/
theorem startProcedure : Obligations.StartProcedure := by
  unfold Obligations.StartProcedure
  intro s hc
  refine ⟨fun hs => ?_, obtainBuffer_eq s, fun hr hw => workerStep_waits hw (by simp [hr]), start_running, start_faulted⟩
  have hboot : s.start = .next s.boot := (start_boots hs).trans (if_pos hc)
  have cfg : ((s.obtainBuffer s.cfg.rxBufSize).obtainBuffer s.cfg.txBufSize).cfg = s.cfg := by
    rw [(obtainBuffer_outside s s.cfg.rxBufSize).trans (obtainBuffer_outside _ s.cfg.txBufSize)]
  refine ⟨fun hrx htx => ?_, fun hn => ?_⟩
  · rw [boot_started hrx htx, State.started, cfg] at hboot
    rw [cfg]
    exact ⟨_, _, length_freshBuffer _ _, length_freshBuffer _ _, hboot⟩
  · rw [hboot, boot_startFailed hn, State.startFailed, cfg]

/-- Settles O6: a start that succeeds writes the least of the three sizes, no later step writes it, and what a start accepts
has it at least 20. -/
theorem negotiatedMaximumIsFixed : Obligations.NegotiatedMaximumIsFixed := by
  unfold Obligations.NegotiatedMaximumIsFixed
  refine ⟨fun s t hs h ht => ?_, fun s t => step_maxPayload, fun s hs hlt => ?_⟩
  · obtain ⟨hc, u, o, rfl⟩ := started_of_start hs h ht
    have hmax : u.started.maxPayload = negotiatedMax s.cfg := by rw [o]; rfl
    rw [hmax]
    exact ⟨toNat_negotiatedMax s.cfg, twenty_le_negotiatedMax hc⟩
  · rw [← toNat_negotiatedMax] at hlt
    have hc : ¬configOk s.cfg = true := fun hc => absurd (twenty_le_negotiatedMax hc) (by omega)
    exact (start_boots hs).trans (if_neg hc)

/-- Settles O7: a power-on leaves the reset state but for what is not the block's, and a start builds a table of free slots. -/
theorem powerOnDiscardsTheBlock : Obligations.PowerOnDiscardsTheBlock := by
  unfold Obligations.PowerOnDiscardsTheBlock
  intro s stores
  refine ⟨s.powerOn stores, rfl, rfl, rfl, rfl, rfl, rfl, rfl, rfl, rfl, fun u h hrun => ?_⟩
  obtain ⟨-, v, o, rfl⟩ := started_of_start (.inl rfl) h hrun
  have htable : v.started.table = List.replicate s.cfg.tableCapacity.toNat Slot.free := by rw [o]; rfl
  rw [htable]
  simp [usedSlots, Slot.free]

end Sys2Proof.Machine
end
